-- ==== Sys2Proof/Word.lean ====
section
/-! DEFINITION. The word types of CTR-ORCH (spec/00_scope.md R7, R8, R9): a host data word of 32 bits, a byte,
and the two byte sequences of fixed length (the 16-byte block, the 32-byte key register). -/

namespace Sys2Proof

/-- A byte (R8). -/
abbrev Byte := BitVec 8

/-- A host data word, `DATA_W` = 32 bits (R7, R9). -/
abbrev Word := BitVec 32

/-- A block: 16 bytes, byte 0 first (R7, R8). -/
abbrev Block := Vector Byte 16

/-- The bytes of a key register, `KEY_REG_BYTES` = 32 (R7, R33, R36). -/
abbrev KeyBytes := Vector Byte 32

/-- The block of sixteen zero bytes (R8). -/
def Block.zero : Block := Vector.ofFn fun _ => 0

/-- Thirty-two zero bytes (R8). -/
def KeyBytes.zero : KeyBytes := Vector.ofFn fun _ => 0

end Sys2Proof
end

