-- ==== Sys2Proof/Syntax.lean ====
section
/-! DEFINITION. The syntax: the three commands of spec/opcode_table.json (`Instr`), the raw command word (R101),
the host bus accesses (R62, R110), and the host-program lines and pseudo-instructions of spec/30_encoding.md. -/

namespace Sys2Proof

/-- The commands, one constructor per row of spec/opcode_table.json; operands are implicit (R103). -/
inductive Instr where
  /-- construct the cipher from the staging registers (R130) -/
  | create
  /-- encrypt the IN buffer under a fresh IV (R180) -/
  | encrypt
  /-- decrypt the IN buffer (R200) -/
  | decrypt
  deriving DecidableEq, Repr

/-- The two fields of a command word (R101): any values, legal or not. -/
structure CmdFields where
  /-- bits [3:0] -/
  op : BitVec 4
  /-- bits [31:4], must be 0 -/
  rsv : BitVec 28
  deriving DecidableEq, Repr

/-- The size of a host bus access; only 32 bits is served (R62). -/
inductive Size where
  | w8 | w16 | w32 | w64
  deriving DecidableEq, Repr

/-- A host bus access at a byte offset from the block's base (R62, R64, R65, R112): a natural number, for nothing wraps
(R9). Which offsets name something, `targetOf` says. -/
inductive Access where
  | read (size : Size) (off : Nat)
  | write (size : Size) (off : Nat) (data : Word)
  deriving DecidableEq, Repr

/-- A line of a host program (R110). A line's offset, and the value a WR writes, are natural numbers, which holds every
32-bit number R110 allows and keeps each line of R111's expansions exact (R9). -/
inductive HostLine where
  /-- `WR off, val` -/
  | wr (off : Nat) (val : Nat)
  /-- `RD off`, and `RD off => val` with the value the test expects -/
  | rd (off : Nat) (expected : Option Word)
  /-- `POLL off, mask, val` -/
  | poll (off : Nat) (mask val : Word)
  deriving DecidableEq, Repr

/-- The pseudo-instructions of a host program (R111). -/
inductive Pseudo where
  | create
  | encrypt
  | decrypt
  | waitDone
  | waitIdle
  | ack
  | ldKey (b : List Byte) (len : Word)
  | setIv (s : Word)
  | ldIn (b : List Byte)
  deriving DecidableEq, Repr

end Sys2Proof
end

