-- ==== Sys2Proof/WellFormed.lean ====
section
/-! DEFINITION. What is checked before anything runs: a command word's fields (R101, R105), a host access (R62),
a host program's lines (R110, R111). -/

namespace Sys2Proof

/-- The OP values that name a command (R102). -/
def CmdFields.opLegal (f : CmdFields) : Bool := f.op == 1 || f.op == 2 || f.op == 3

/-- The reserved bits are 0 (R101). -/
def CmdFields.rsvZero (f : CmdFields) : Bool := f.rsv == 0

/-- A command word that is a command (R105: every other word is illegal). -/
def CmdFields.wf (f : CmdFields) : Bool := f.rsvZero && f.opLegal

/-- The fields of a command's word (R102). -/
def Instr.fields : Instr → CmdFields
  | .create => ⟨1, 0⟩
  | .encrypt => ⟨2, 0⟩
  | .decrypt => ⟨3, 0⟩

/-- A command is well formed when its fields are; all three are. -/
def Instr.wf (i : Instr) : Bool := i.fields.wf

/-- An access moves exactly 32 bits (R62). -/
def Access.sizeOk : Access → Bool
  | .read sz _ => sz == .w32
  | .write sz _ _ => sz == .w32

/-- An access lies at a multiple of 4 (R62). -/
def Access.aligned : Access → Bool
  | .read _ o => o % 4 == 0
  | .write _ o _ => o % 4 == 0

/-- An access the bus serves (R62); any other gets the bus error of R232. -/
def Access.wf (a : Access) : Bool := a.sizeOk && a.aligned

/-- A 32-bit number (R110). -/
def is32Bit (n : Nat) : Bool := decide (n < 2 ^ 32)

/-- A line's offset and value are 32-bit numbers (R110). No run consults the check: what any other line does, log 28
says. -/
def HostLine.wf : HostLine → Bool
  | .wr o v => is32Bit o && is32Bit v
  | .rd o _ => is32Bit o
  | .poll o _ _ => is32Bit o

/-- Every line of the expansion is one (R110, R111; `pseudo_wf_iff` proves it): `LDIN b` names IN+4w for each of its words.
The others name fixed offsets. -/
def Pseudo.wf : Pseudo → Bool
  | .create | .encrypt | .decrypt | .waitDone | .waitIdle | .ack | .ldKey _ _ | .setIv _ => true
  | .ldIn b => decide (0x10000 + b.length ≤ 2 ^ 32)

end Sys2Proof
end

