-- ==== Sys2Proof/Decode.lean ====
section
/-! DEFINITION. The byte lanes of a host word (R63), the decoder of a command word (R101, R102, R105), total and
rejecting by name, and the encoder (R102). -/

namespace Sys2Proof

/-- Byte lane `i` of a word: bits [8i+7:8i] (R63). -/
def byteLane (v : Word) (i : Nat) : Byte := v.extractLsb' (8 * i) 8

/-- The word whose lanes 0 to 3 are the four bytes (R63, R64). -/
def wordOfLanes (b0 b1 b2 b3 : Byte) : Word := b3 ++ b2 ++ b1 ++ b0

/-- The four bytes of a word as the little-endian bus carries them (R63). -/
def wordBytes (v : Word) : List Byte := [byteLane v 0, byteLane v 1, byteLane v 2, byteLane v 3]

/-- Why a word is not a command (R105). -/
inductive DecodeError where
  /-- fewer than four bytes -/
  | truncated
  /-- RSV ≠ 0 with any OP -/
  | reservedBitsSet
  /-- RSV = 0 and OP is none of 1, 2, 3 -/
  | reservedOp
  deriving DecidableEq, Repr

/-- The fields of a word (R101). -/
def fieldsOfWord (w : Word) : CmdFields := ⟨w.extractLsb' 0 4, w.extractLsb' 4 28⟩

/-- The word of two fields (R101). -/
def wordOfFields (f : CmdFields) : Word := f.rsv ++ f.op

/-- Decode the fields (R102, R105). -/
def decodeFields (f : CmdFields) : Except DecodeError Instr :=
  if f.rsv ≠ 0 then .error .reservedBitsSet
  else if f.op = 1 then .ok .create
  else if f.op = 2 then .ok .encrypt
  else if f.op = 3 then .ok .decrypt
  else .error .reservedOp

/-- Decode a command word, total over all 2^32 words (R102). -/
def decodeWord (w : Word) : Except DecodeError Instr := decodeFields (fieldsOfWord w)

/-- Decode from bytes as the bus carries them, answering the instruction and the bytes after it; every command is one
word of 32 bits (R100, R107). -/
def decode : List Byte → Except DecodeError (Instr × List Byte)
  | b0 :: b1 :: b2 :: b3 :: rest =>
    match decodeWord (wordOfLanes b0 b1 b2 b3) with
    | .ok i => .ok (i, rest)
    | .error e => .error e
  | _ => .error .truncated

/-- The word of a command (R102). -/
def encode (i : Instr) : Word := wordOfFields i.fields

/-- The bytes of a command's word (R63). -/
def encodeBytes (i : Instr) : List Byte := wordBytes (encode i)

/-- The match and mask of R102, a row a command. -/
structure CmdRow where
  mask : Word
  pattern : Word
  instr : Instr
  deriving DecidableEq, Repr

/-- R102's match and mask table (spec/opcode_table.json). -/
def cmdTable : List CmdRow :=
  [⟨0xFFFFFFFF, 0x00000001, .create⟩, ⟨0xFFFFFFFF, 0x00000002, .encrypt⟩, ⟨0xFFFFFFFF, 0x00000003, .decrypt⟩]

/-- The host's question: the instruction read from a word whose bits are numbered as spec/opcode_table.json numbers
them, laid out on the bus and given to `decode`. -/
def decodeTableWord (nbits w : Nat) : Option Instr :=
  let v := w % 2 ^ nbits
  if v < 2 ^ 32 then
    match decode (wordBytes (BitVec.ofNat 32 v)) with
    | .ok (i, _) => some i
    | .error _ => none
  else none

end Sys2Proof
end

