-- ==== Sys2Proof/Config.lean ====
section
/-! DEFINITION. What is fixed for the machine (spec/00_scope.md R7): the source's constants, the parameters a model
takes as arguments (`Params`), and the platform's open choices (opaque: nothing here gives them a value). -/

namespace Sys2Proof

/-- The cipher variant a key length selects (R3, R7, R39). -/
inductive Variant where
  /-- a 16-byte key -/
  | v128
  /-- a 32-byte key -/
  | v256
  deriving DecidableEq, Repr

/-- `BLOCK_SIZE` (R7). -/
def Config.blockSize : Nat := 16

/-- `MIN_IV_SIZE` (R7). -/
def Config.minIvSize : Nat := 12

/-- `ID_VALUE` (R7, R22). -/
def Config.idValue : Word := 0x43545201

/-- The default of the parameter `BUF_BYTES` (R7, D8). -/
def Config.defaultBufBytes : Nat := 4096

/-- The two parameters of R7 that are functions, taken as an argument by every operation that uses them: the engine's
block function `BC` and the counter successor `CTR_INC`. -/
structure Params where
  /-- `BC : Variant × Bytes × Block → Block` (R7, R78) -/
  bc : Variant → List Byte → Block → Block
  /-- `CTR_INC : Block → Block` (R7, R152) -/
  ctrInc : Block → Block

/-- The block function the external engine computes (R5, R7, R78, U1). OPAQUE: any total deterministic function. -/
opaque Config.blockCipher : Variant → List Byte → Block → Block

/-- Which multiple of 2^18 the platform places the block at (D3). OPAQUE. -/
opaque Config.ctrBaseIndex : Nat

/-- `CTR_BASE`, aligned to 2^18 (R61, 92_eei_decisions.md). -/
def Config.ctrBase : Nat := 2 ^ 18 * Config.ctrBaseIndex

/-- `CTR_IRQ_LINE`: the interrupt line `irq_o` is wired to (R229, D25). OPAQUE. -/
opaque Config.ctrIrqLine : Nat

end Sys2Proof
end

