-- ==== Sys2Proof/Machine/State.lean ====
section
/-! DEFINITION. The state of CTR-ORCH as plain data (spec/10_state.md R20 to R47), the inputs and port messages of
spec/20_memory.md, and the state right after reset (spec/70_reset_and_hazards.md R260). -/

namespace Sys2Proof.Machine

/-- The reasons a step could stop with a fault: NONE. Every error of the block is an error code reported at completion
and the block goes on (R220); a bus error is a response (R232); a port that never answers is a step that changes
nothing (R242). No one raises a fault, so none is safe or unsafe. -/
inductive Fault where
  deriving DecidableEq, Repr

/-- The reasons a step can be refused. -/
inductive Refusal where
  /-- raised by an arm of `exec` that has no meaning yet; no arm has this now. Safe: the machine stops. -/
  | notModelled (mnemonic : String)
  deriving DecidableEq, Repr

/-- The sequencer's phases (R41). -/
inductive Seq where
  | rstClr | idle | check | rngWait | initWait | blkWait | commit | abort
  deriving DecidableEq, Repr

/-- The accepted command, the context field OPC (R40, R102). -/
inductive Opc where
  | illegal | create | encrypt | decrypt
  deriving DecidableEq, Repr

/-- The error kinds (R221); their codes are `ErrorKind.code`. Codes 7 and 11 to 255 have no name here (V4). -/
inductive ErrorKind where
  | invalidKeySize | invalidIvSize | ciphertextTooShort | cipherInitFailure | encryptionFailure | decryptionFailure
  | noInstance | lengthOverflow | illegalCommand
  deriving DecidableEq, Repr

/-- A byte memory: (offset, byte) pairs in canonical form, an unlisted byte reading 0 (R34, R35, R260). -/
abbrev Memory := List Host.Cell

/-- The instance state (R36). -/
structure CipherInst where
  /-- INST_VALID -/
  valid : Bool
  /-- INST_KEY -/
  key : KeyBytes
  /-- INST_KEYLEN -/
  keyLen : BitVec 6
  /-- INST_IVSIZE -/
  ivSize : BitVec 5
  /-- INST_VARIANT -/
  variant : Variant
  deriving DecidableEq, Repr

/-- No instance: every element at its reset value (R36, R37). -/
def CipherInst.absent : CipherInst := ⟨false, KeyBytes.zero, 0, 0, .v128⟩

/-- The per-command context (R40). The counters are naturals (R9, R162); `Context.Fits` of Sys2Proof/Safety.lean says
that they fit the widths of R40. -/
structure Context where
  opc : Opc
  /-- N -/
  n : Nat
  /-- SRC -/
  src : Nat
  /-- DST -/
  dst : Nat
  /-- NBLK -/
  nblk : Nat
  /-- J -/
  j : Nat
  /-- CTR -/
  ctr : Block
  /-- IVREG -/
  ivReg : Block
  /-- KSBUF -/
  ksBuf : Block
  /-- KS_COUNT -/
  ksCount : Nat
  /-- INIT_ISSUED -/
  initIssued : Bool
  /-- CODE: the pending failure, none for 0 -/
  code : Option ErrorKind
  deriving DecidableEq, Repr

/-- The zeroized context (R40, R166). DESIGN CHOICE (log 8): the all-zero OPC is read as ILLEGAL; safe. -/
def Context.zero : Context := ⟨.illegal, 0, 0, 0, 0, 0, Block.zero, Block.zero, Block.zero, 0, false, none⟩

/-- The engine's answer to a request (R77, R79): a draw. The block of `ok(k)` is BC's (R78). -/
inductive EngAnswer where
  | ok | fail
  deriving DecidableEq, Repr

/-- What can happen next: a host access, a port's answer, the sequencer's own turn, a reset (R42, R70, R234, R262). -/
inductive Event where
  /-- the bus delivers an access (R70) -/
  | bus (a : Access)
  /-- the sequencer's turn: its internal step, if one is enabled (R42, R71) -/
  | internal
  /-- the TRNG answers the outstanding request; of these bytes the first INST_IVSIZE are its answer (R82, log 4) -/
  | rng (b : Block)
  /-- the engine answers the outstanding request (R77) -/
  | eng (a : EngAnswer)
  /-- an answer arrives to a request that a reset made the block forget (R262, V8) -/
  | stale
  /-- rst_i is asserted and deasserted (R260, R262) -/
  | reset
  deriving DecidableEq, Repr

/-- A message the block sends on a port (R77, R82). -/
inductive PortMsg where
  | rng (n : Nat)
  | engInit (v : Variant) (key : List Byte)
  | engBlock (c : Block)
  | engRelease
  deriving DecidableEq, Repr

/-- The bus response to an access (R62, R64, R232). -/
structure Response where
  /-- the error response of R232 -/
  error : Bool
  /-- the read data; 0 for a write and for an error -/
  data : Word
  deriving DecidableEq, Repr

/-- The state (R20): the host-visible registers, the buffers, the staging key, the instance, the context, the phase;
the capacity; and the model's own last three fields. -/
structure State where
  /-- SEQ (R41) -/
  seq : Seq
  /-- STATUS.DONE (R24) -/
  done : Bool
  /-- STATUS.ERROR (R24) -/
  error : Bool
  /-- STATUS.OVERRUN (R24, R233) -/
  overrun : Bool
  /-- ERR.CODE, none for 0 (R25) -/
  errCode : Option ErrorKind
  /-- KEY_LEN (R26) -/
  keyLen : Word
  /-- IV_SIZE (R27) -/
  ivSize : Word
  /-- IN_LEN (R28) -/
  inLen : Word
  /-- OUT_LEN (R29) -/
  outLen : Word
  /-- IRQ_EN.EN (R31) -/
  irqEn : Bool
  /-- KEY_STAGE (R33) -/
  keyStage : KeyBytes
  /-- IN (R34) -/
  inBuf : Memory
  /-- OUT (R35) -/
  outBuf : Memory
  /-- the instance (R36) -/
  inst : CipherInst
  /-- the per-command context (R40) -/
  ctx : Context
  /-- BUF_BYTES (R7, R32): a parameter, written by no step (log 6) -/
  bufBytes : Nat
  /-- the model's own: the inputs still to come, in order (log 1) -/
  events : List Event
  /-- the model's own: the response to the last access (log 14) -/
  resp : Option Response
  /-- the model's own: the port messages sent so far, in order (log 15) -/
  portLog : List PortMsg
  deriving DecidableEq, Repr

/-- The machine right after reset (R260, R21). DESIGN CHOICE (log 6): BUF_BYTES is the spec's default; unsafe. -/
def State.reset : State where
  seq := .rstClr
  done := false
  error := false
  overrun := false
  errCode := none
  keyLen := 0
  ivSize := 0
  inLen := 0
  outLen := 0
  irqEn := false
  keyStage := KeyBytes.zero
  inBuf := []
  outBuf := []
  inst := CipherInst.absent
  ctx := Context.zero
  bufBytes := Config.defaultBufBytes
  events := []
  resp := none
  portLog := []

end Sys2Proof.Machine
end

