-- ==== Sys2Proof/Machine/Operands.lean ====
section
/-! DEFINITION. The implicit operands of the commands, read from fixed state (spec/30_encoding.md R103, R104), the
variant a key length selects (R39), the OPC of a command word (R102), and the byte lanes of the staging key (R33). -/

namespace Sys2Proof.Machine

/-- CREATE's `key.length`: KEY_LEN whole, unsigned (R103, R104). -/
def State.keyLength (s : State) : Nat := s.keyLen.toNat

/-- CREATE's `ivSize`: IV_SIZE whole, unsigned (R103, R104). -/
def State.ivLength (s : State) : Nat := s.ivSize.toNat

/-- The length of the message in IN: IN_LEN whole, unsigned (R103, R104). -/
def State.msgLength (s : State) : Nat := s.inLen.toNat

/-- The instance's ivSize, INST_IVSIZE (R36, R103). -/
def CipherInst.ivBytes (c : CipherInst) : Nat := c.ivSize.toNat

/-- The instance's key bytes, INST_KEY[0..INST_KEYLEN) (R36, R77). -/
def CipherInst.keyBytes (c : CipherInst) : List Byte := c.key.toList.take c.keyLen.toNat

/-- The legal IV sizes, [MIN_IV_SIZE, BLOCK_SIZE] (R7, R132). -/
def ivSizeLegal (n : Nat) : Bool := decide (Config.minIvSize ≤ n) && decide (n ≤ Config.blockSize)

/-- variant(16) = V128, variant(32) = V256, undefined elsewhere (R39, V7). -/
def variantOf (l : Nat) : Option Variant :=
  if l = 16 then some .v128 else if l = 32 then some .v256 else none

/-- The OPC of an instruction (R40, R102). -/
def Opc.ofInstr : Instr → Opc
  | .create => .create
  | .encrypt => .encrypt
  | .decrypt => .decrypt

/-- The OPC of any command word, ILLEGAL for one that is no command (R102, R105). -/
def Opc.ofWord (w : Word) : Opc :=
  match decodeWord w with
  | .ok i => .ofInstr i
  | .error _ => .illegal

/-- The staging key with word `k` written through KEYk: bytes 4k to 4k+3 take the lanes of `v` (R33, R63). -/
def writeKeyWord (key : KeyBytes) (k : Nat) (v : Word) : KeyBytes :=
  Vector.ofFn fun i : Fin 32 => if i.val / 4 = k then byteLane v (i.val % 4) else key[i]

/-- The first `l` bytes of a key register, zero beyond (R130, R133). -/
def takeKey (key : KeyBytes) (l : Nat) : KeyBytes :=
  Vector.ofFn fun i : Fin 32 => if i.val < l then key[i] else 0

end Sys2Proof.Machine
end

