-- ==== Sys2Proof/Machine/Flags.lean ====
section
/-! DEFINITION. The flags and the words software reads them in: BUSY, STATUS, ERR, INST, irq_o (spec/10_state.md R24,
R25, R30, R44, R47; spec/60_exceptions.md R221, R229, R233). -/

namespace Sys2Proof.Machine

/-- The numeric error codes (R221). -/
def ErrorKind.code : ErrorKind → Byte
  | .invalidKeySize => 1
  | .invalidIvSize => 2
  | .ciphertextTooShort => 3
  | .cipherInitFailure => 4
  | .encryptionFailure => 5
  | .decryptionFailure => 6
  | .noInstance => 8
  | .lengthOverflow => 9
  | .illegalCommand => 10

/-- A code as the eight bits of ERR.CODE, 0 for success (R25, R221). -/
def codeByte : Option ErrorKind → Byte
  | none => 0
  | some k => k.code

/-- BUSY = (SEQ ≠ IDLE) (R24, R41). -/
def State.busy (s : State) : Bool := s.seq != .idle

/-- One bit at place 0 of a word. -/
def bitWord (b : Bool) : Word := (BitVec.ofBool b).setWidth 32

/-- STATUS as read: OVERRUN<<3 | ERROR<<2 | DONE<<1 | BUSY (R24, R64). -/
def State.statusWord (s : State) : Word :=
  bitWord s.overrun <<< 3 ||| bitWord s.error <<< 2 ||| bitWord s.done <<< 1 ||| bitWord s.busy

/-- A write to STATUS: bits 1 and 3 clear DONE and OVERRUN when written 1 (R24, R65). -/
def State.writeStatus (v : Word) (s : State) : State :=
  { s with done := s.done && !v.getLsbD 1, overrun := s.overrun && !v.getLsbD 3 }

/-- A write to IRQ_EN: bit 0 (R31, R65). -/
def State.writeIrqEn (v : Word) (s : State) : State := { s with irqEn := v.getLsbD 0 }

/-- A host write dropped because the block is busy sets OVERRUN and does nothing else (R65, R233). -/
def State.dropWrite (s : State) : State := { s with overrun := true }

/-- ERR as read (R25, R64). -/
def State.errWord (s : State) : Word := (codeByte s.errCode).setWidth 32

/-- The bit of INST.VARIANT: 0 for V128, 1 for V256 (R30, R36). -/
def variantBit : Variant → BitVec 1
  | .v128 => 0
  | .v256 => 1

/-- INST as read (R30). -/
def CipherInst.view (c : CipherInst) : Word :=
  if c.valid then
    (0 : BitVec 8) ++ c.ivSize.setWidth 8 ++ c.keyLen.setWidth 8 ++ (0 : BitVec 6) ++ variantBit c.variant ++ (1 : BitVec 1)
  else 0

/-- The interrupt output irq_o = STATUS.DONE ∧ IRQ_EN.EN (R47, R229). -/
def State.irqO (s : State) : Bool := s.done && s.irqEn

/-- What the platform's interrupt line `line` carries from this block (R229). -/
def State.irqLine (s : State) (line : Nat) : Bool := line == Config.ctrIrqLine && s.irqO

end Sys2Proof.Machine
end

