-- ==== Sys2Proof/Machine/Ops.lean ====
section
/-! DEFINITION. The shared operations: byte memory (MemRead, MemWrite of spec/00_scope.md R10), port messages, and the
entry and the two ends of a command: acceptance (R225), raising an error and the failure completion (R226), the success
completion (R227). -/

namespace Sys2Proof.Machine

/-! ## Byte memory -/

/-- The canonical form: offsets strictly rising, no entry equal to what an unlisted byte reads as. -/
abbrev Memory.wf (m : Memory) : Prop := m.Pairwise (fun x y => x.1 < y.1) ∧ ∀ c ∈ m, c.2 ≠ 0

/-- Read one byte; an unlisted byte is 0, the reset contents (R34, R35). -/
def Memory.readByte : Memory → Nat → Byte
  | [], _ => 0
  | (k, v) :: m, a => if k = a then v else Memory.readByte m a

/-- Write one byte, keeping the canonical form. -/
def Memory.writeByte : Memory → Nat → Byte → Memory
  | [], a, b => if b = 0 then [] else [(a, b)]
  | (k, v) :: m, a, b =>
    if a < k then (if b = 0 then (k, v) :: m else (a, b) :: (k, v) :: m)
    else if a = k then (if b = 0 then m else (a, b) :: m)
    else (k, v) :: Memory.writeByte m a b

/-- MemWrite of a byte sequence at an offset (R10). -/
def Memory.writeBytes : Memory → Nat → List Byte → Memory
  | m, _, [] => m
  | m, a, b :: bs => Memory.writeBytes (Memory.writeByte m a b) (a + 1) bs

/-- MemRead of n bytes at an offset (R10). -/
def Memory.readBytes (m : Memory) (a n : Nat) : List Byte := (List.range n).map fun i => Memory.readByte m (a + i)

/-- The word at an offset, little-endian lanes (R63, R64). -/
def Memory.readWord (m : Memory) (a : Nat) : Word :=
  wordOfLanes (Memory.readByte m a) (Memory.readByte m (a + 1)) (Memory.readByte m (a + 2)) (Memory.readByte m (a + 3))

/-- Store a word at an offset, little-endian lanes (R63, R65). -/
def Memory.writeWord (m : Memory) (a : Nat) (v : Word) : Memory := Memory.writeBytes m a (wordBytes v)

/-! ## Port messages -/

/-- Send a message on its port (R77, R82). -/
def State.send (m : PortMsg) (s : State) : State := { s with portLog := s.portLog ++ [m] }

/-- `eng_release`, sent iff `eng_init` was issued in this command (R80, R166). -/
def State.releaseEngine (s : State) : State := if s.ctx.initIssued then s.send .engRelease else s

/-! ## Entering and ending a command -/

/-- OUT all zero and OUT_LEN 0 (R225, R226). -/
def State.zeroizeOut (s : State) : State := { s with outBuf := [], outLen := 0 }

/-- No instance exists (R134). -/
def State.invalidate (s : State) : State := { s with inst := CipherInst.absent }

/-- Acceptance of a command (R225). -/
def State.accept (opc : Opc) (s : State) : State :=
  { s.zeroizeOut with
    seq := .check, done := false, error := false, errCode := none, ctx := { Context.zero with opc := opc } }

/-- `raise`: the command goes to ABORT with its error pending in CODE (R10, R226). -/
def State.raise (k : ErrorKind) (s : State) : State :=
  { s with ctx := { s.ctx with code := some k }, seq := .abort }

/-- The failure completion, SEQ = ABORT (R226): a failed CREATE leaves no instance, OUT and OUT_LEN are zeroized, the
engine is released, CODE goes to ERR and the context is zeroized. -/
def State.abortStep (s : State) : State :=
  let s₁ := if s.ctx.opc = .create then s.invalidate else s
  { s₁.zeroizeOut.releaseEngine with
    errCode := s.ctx.code, error := true, ctx := Context.zero, seq := .idle, done := true }

/-- The success completion, after the command's own commit actions (R227). -/
def State.completeStep (s : State) : State :=
  { s.releaseEngine with errCode := none, error := false, ctx := Context.zero, seq := .idle, done := true }

/-- Every state element at its reset value (R260, R262); what is not an element of the block stays: the parameter
BUF_BYTES, the inputs still to come and the messages already sent. -/
def State.applyReset (s : State) : State :=
  { State.reset with bufBytes := s.bufBytes, events := s.events, portLog := s.portLog }

end Sys2Proof.Machine
end

