-- ==== Sys2Proof/Machine/Create.lean ====
section
/-! DEFINITION. CREATE (spec/40_create.md): its CHECK and its COMMIT. -/

namespace Sys2Proof.Machine

/-- The instance of the staging registers for a legal key length (R130, R133). -/
def State.stagedInst (s : State) (v : Variant) : CipherInst where
  valid := true
  key := takeKey s.keyStage s.keyLength
  keyLen := BitVec.ofNat 6 s.keyLength
  ivSize := BitVec.ofNat 5 s.ivLength
  variant := v

/-- The CHECK step of CREATE (R130): the key length first (R131), then the IV size (R132); when both pass, the instance
of the staging registers is written (R133) and the command goes to COMMIT. -/
def checkCreate (s : State) : State :=
  match variantOf s.keyLength with
  | none => s.raise .invalidKeySize
  | some v =>
    if ivSizeLegal s.ivLength then { s with inst := s.stagedInst v, seq := .commit } else s.raise .invalidIvSize

/-- The COMMIT step of CREATE: the success completion, OUT_LEN staying 0 (R130, R227). -/
def commitCreate (s : State) : State := s.completeStep

end Sys2Proof.Machine
end

