-- ==== Sys2Proof/Machine/Datapath.lean ====
section
/-! DEFINITION. The counter-mode datapath of spec/41_datapath.md: IV padding (R150), counter blocks (R152, R153),
keystream (R154), the 16-lane XOR (R156) and the streaming procedure shared by ENCRYPT and DECRYPT (R157). -/

namespace Sys2Proof.Machine

/-- `pad(iv) = iv ∥ zeros(16 − s)` (R150). -/
def pad (iv : List Byte) : Block := Vector.ofFn fun i : Fin 16 => iv.getD i.val 0

/-- `be128`: the block as a number, byte 0 most significant (R9). -/
def be128 (c : Block) : Nat := c.toList.foldl (fun n b => n * 256 + b.toNat) 0

/-- `blk128`, the inverse of `be128` (R9). -/
def blk128 (n : Nat) : Block := Vector.ofFn fun i : Fin 16 => BitVec.ofNat 8 (n / 256 ^ (15 - i.val))

/-- The hardware's `CTR_INC`: the whole block big-endian, plus 1 modulo 2^128 (R152, D20). -/
def ctrIncBE (c : Block) : Block := blk128 ((be128 c + 1) % 2 ^ 128)

/-- The parameters of the machine: the external engine's function, and R152's increment (log 5, log 7). -/
def Config.machine : Params := ⟨Config.blockCipher, ctrIncBE⟩

/-- `NBLK = ceil(n / 16)` (R154, R155). -/
def blocks (n : Nat) : Nat := (n + 15) / 16

/-- The counter block C_j after the first (R153). -/
def counterBlock (P : Params) (c0 : Block) : Nat → Block
  | 0 => c0
  | j + 1 => P.ctrInc (counterBlock P c0 j)

/-- The keystream block K_j = BC(v, k, C_j) (R154, R156). -/
def keyBlock (P : Params) (v : Variant) (k : List Byte) (iv : List Byte) (j : Nat) : Block :=
  P.bc v k (counterBlock P (pad iv) j)

/-- Byte i of the keystream (R154). -/
def keystreamByte (P : Params) (v : Variant) (k : List Byte) (iv : List Byte) (i : Nat) : Byte :=
  (keyBlock P v k iv (i / 16)).toList.getD (i % 16) 0

/-- `keystream(v, k, iv, n)`: the blocks of C_0 to C_{NBLK−1} joined, cut to n bytes (R154). -/
def keystream (P : Params) (v : Variant) (k : List Byte) (iv : List Byte) (n : Nat) : List Byte :=
  ((List.range (blocks n)).flatMap fun j => (keyBlock P v k iv j).toList).take n

/-- The live lanes of block j: r_j = min(16, N − 16 j) (R156). -/
def liveLanes (n j : Nat) : Nat := min 16 (n - 16 * j)

/-- The bytes the live lanes put into OUT: IN ⊕ K_j (R156, R157). -/
def xorLanes (inBuf : Memory) (src r : Nat) (k : Block) : List Byte :=
  (List.range r).map fun i => Memory.readByte inBuf (src + i) ^^^ k.toList.getD i 0

/-- `begin_stream`: issue `eng_init` with the variant and the key, and wait (R157). -/
def State.beginStream (s : State) : State :=
  { s.send (.engInit s.inst.variant s.inst.keyBytes) with ctx := { s.ctx with initIssued := true }, seq := .initWait }

/-- The engine's answer to `eng_init` (R157). -/
def State.answerInit (a : EngAnswer) (s : State) : State :=
  match a with
  | .fail => s.raise .cipherInitFailure
  | .ok =>
    if s.ctx.n = 0 then { s with seq := .commit }
    else { s.send (.engBlock s.ctx.ctr) with seq := .blkWait }

/-- The failure of the keystream: EncryptionFailure in an ENCRYPT, else DecryptionFailure (R157, R158). -/
def streamFailure (opc : Opc) : ErrorKind := if opc = .encrypt then .encryptionFailure else .decryptionFailure

/-- One keystream block taken: KSBUF, the live lanes into OUT, KS_COUNT, CTR and J (R157). -/
def State.takeBlock (P : Params) (k : Block) (s : State) : State :=
  let r := liveLanes s.ctx.n s.ctx.j
  { s with
    outBuf := Memory.writeBytes s.outBuf (s.ctx.dst + 16 * s.ctx.j) (xorLanes s.inBuf (s.ctx.src + 16 * s.ctx.j) r k)
    ctx := { s.ctx with
      ksBuf := k, ksCount := s.ctx.ksCount + r, ctr := P.ctrInc s.ctx.ctr, j := s.ctx.j + 1 } }

/-- After a block: the next request, or COMMIT (R157). -/
def State.nextBlock (s : State) : State :=
  if s.ctx.j < s.ctx.nblk then s.send (.engBlock s.ctx.ctr) else { s with seq := .commit }

/-- The engine's answer to `eng_block`: `ok` brings BC(variant, key, CTR) (R78, R157). -/
def State.answerBlock (P : Params) (a : EngAnswer) (s : State) : State :=
  match a with
  | .fail => s.raise (streamFailure s.ctx.opc)
  | .ok => (s.takeBlock P (P.bc s.inst.variant s.inst.keyBytes s.ctx.ctr)).nextBlock

end Sys2Proof.Machine
end

