-- ==== Sys2Proof/Machine/Decrypt.lean ====
section
/-! DEFINITION. DECRYPT (spec/43_decrypt.md): its CHECK and its COMMIT. -/

namespace Sys2Proof.Machine

/-- The CHECK step of DECRYPT (R200, R201, R202, R203). -/
def checkDecrypt (s : State) : State :=
  if s.inst.valid = false then s.raise .noInstance
  else if s.bufBytes < s.msgLength then s.raise .lengthOverflow
  else if s.msgLength < s.inst.ivBytes then s.raise .ciphertextTooShort
  else
    let iv := Memory.readBytes s.inBuf 0 s.inst.ivBytes
    let n := s.msgLength - s.inst.ivBytes
    { s with ctx := { s.ctx with
        ivReg := pad iv, ctr := pad iv,
        n := n, src := s.inst.ivBytes, dst := 0, nblk := blocks n, j := 0, ksCount := 0 } }.beginStream

/-- The COMMIT of DECRYPT: the length check (R158), OUT_LEN (R204). -/
def commitDecrypt (s : State) : State :=
  if s.ctx.ksCount ≠ s.ctx.n then s.raise .decryptionFailure
  else { s with outLen := BitVec.ofNat 32 s.ctx.n }.completeStep

end Sys2Proof.Machine
end

