-- ==== Sys2Proof/Machine/Encrypt.lean ====
section
/-! DEFINITION. ENCRYPT (spec/42_encrypt.md): its CHECK, the TRNG's answer, its COMMIT. -/

namespace Sys2Proof.Machine

/-- The CHECK step of ENCRYPT (R180, R181, R182). -/
def checkEncrypt (s : State) : State :=
  if s.inst.valid = false then s.raise .noInstance
  else if s.bufBytes < s.msgLength + s.inst.ivBytes then s.raise .lengthOverflow
  else
    { s.send (.rng s.inst.ivBytes) with
      ctx := { s.ctx with
        n := s.msgLength, src := 0, dst := s.inst.ivBytes, nblk := blocks s.msgLength, j := 0, ksCount := 0 }
      seq := .rngWait }

/-- The TRNG's answer: its first INST_IVSIZE bytes are the IV (R183, log 4). -/
def answerRng (b : Block) (s : State) : State :=
  let iv := b.toList.take s.inst.ivBytes
  { s with ctx := { s.ctx with ivReg := pad iv, ctr := pad iv } }.beginStream

/-- The COMMIT of ENCRYPT: the length check (R158), the unpadded IV, OUT_LEN (R184). -/
def commitEncrypt (s : State) : State :=
  if s.ctx.ksCount ≠ s.ctx.n then s.raise .encryptionFailure
  else
    { s with
      outBuf := Memory.writeBytes s.outBuf 0 (s.ctx.ivReg.toList.take s.inst.ivBytes)
      outLen := BitVec.ofNat 32 (s.inst.ivBytes + s.ctx.n) }.completeStep

end Sys2Proof.Machine
end

