-- ==== Sys2Proof/Machine/HostPort.lean ====
section
/-! DEFINITION. The host port (spec/20_memory.md R60 to R68; spec/60_exceptions.md R232): the address map, a read, a
write, and the bus response; and where the platform puts the block (R61). -/

namespace Sys2Proof.Machine

/-- The offset of CMD (R21, R23). -/
def cmdOffset : Nat := 0x00004

/-- What an offset names (R21, R61). -/
inductive Target where
  | id | cmd | status | err | keyLen | ivSize | inLen | outLen | inst | irqEn | cap
  /-- KEYk -/
  | key (k : Nat)
  /-- IN, at this byte offset of the buffer -/
  | inBuf (o : Nat)
  /-- OUT, at this byte offset of the buffer -/
  | outBuf (o : Nat)
  | reserved
  deriving DecidableEq, Repr

/-- The address map, for a multiple of 4 (R21, R61, R66, R67). DEDUCED (log 27): an offset from 2^18 on, which R61 does not
list, falls in the last lines of R64 and R65, a read of 0 and no effect; unsafe. -/
def targetOf (bufBytes : Nat) (a : Nat) : Target :=
  if a = 0x00000 then .id
  else if a = 0x00004 then .cmd
  else if a = 0x00008 then .status
  else if a = 0x0000C then .err
  else if a = 0x00010 then .keyLen
  else if a = 0x00014 then .ivSize
  else if a = 0x00018 then .inLen
  else if a = 0x0001C then .outLen
  else if a = 0x00020 then .inst
  else if a = 0x00024 then .irqEn
  else if a = 0x00028 then .cap
  else if 0x00040 ≤ a ∧ a ≤ 0x0005C then .key ((a - 0x40) / 4)
  else if 0x10000 ≤ a ∧ a < 0x10000 + bufBytes then .inBuf (a - 0x10000)
  else if 0x20000 ≤ a ∧ a < 0x20000 + bufBytes then .outBuf (a - 0x20000)
  else .reserved

/-- `HostRead(a)`: the value an aligned 32-bit read returns (R64). -/
def State.hostRead (s : State) (off : Nat) : Word :=
  match targetOf s.bufBytes off with
  | .id => Config.idValue
  | .cmd => 0
  | .status => s.statusWord
  | .err => s.errWord
  | .keyLen => s.keyLen
  | .ivSize => s.ivSize
  | .inLen => s.inLen
  | .outLen => s.outLen
  | .inst => s.inst.view
  | .irqEn => bitWord s.irqEn
  | .cap => BitVec.ofNat 32 s.bufBytes
  | .key _ => 0
  | .inBuf o => Memory.readWord s.inBuf o
  | .outBuf o => if s.busy then 0 else Memory.readWord s.outBuf o
  | .reserved => 0

/-- A write that is dropped while the block is busy (R65, R233, R267). -/
def State.staged (s : State) (write : State) : State := if s.busy then s.dropWrite else write

/-- `HostWrite(a, v)`: what an aligned 32-bit write does (R65). -/
def State.hostWrite (off : Nat) (v : Word) (s : State) : State :=
  match targetOf s.bufBytes off with
  | .cmd => s.staged (s.accept (Opc.ofWord v))
  | .status => s.writeStatus v
  | .irqEn => s.writeIrqEn v
  | .keyLen => s.staged { s with keyLen := v }
  | .ivSize => s.staged { s with ivSize := v }
  | .inLen => s.staged { s with inLen := v }
  | .key k => s.staged { s with keyStage := writeKeyWord s.keyStage k v }
  | .inBuf o => s.staged { s with inBuf := Memory.writeWord s.inBuf o v }
  | .id | .err | .outLen | .inst | .cap | .outBuf _ | .reserved => s

/-- The ordinary response to a write (R66). DESIGN CHOICE (log 14): a write's response carries data 0; safe. -/
def Response.ordinary : Response := ⟨false, 0⟩

/-- The error response: read data 0 (R62, R232). -/
def Response.busError : Response := ⟨true, 0⟩

/-- A host access and its response (R62, R64, R65, R232). -/
def State.hostAccess (a : Access) (s : State) : State :=
  if a.wf then
    match a with
    | .read _ off => { s with resp := some ⟨false, s.hostRead off⟩ }
    | .write _ off v => { s.hostWrite off v with resp := some .ordinary }
  else { s with resp := some .busError }

/-- The block's offset of a system bus address, if the block is selected (R61, R75). -/
def systemOffset (addr : Nat) : Option Nat :=
  if Config.ctrBase ≤ addr ∧ addr < Config.ctrBase + 2 ^ 18 then some (addr - Config.ctrBase) else none

end Sys2Proof.Machine
end

