-- ==== Sys2Proof/Machine/Sequencer.lean ====
section
/-! DEFINITION. The sequencer of spec/10_state.md R41 and R42: the internal step of each phase, the turns it takes, the
answers it takes, one single step of the block on one event (`tick`), and a command run as far as the next events carry
it (`drive`, `issue`; spec/20_memory.md R71). -/

namespace Sys2Proof.Machine

/-- The CHECK step (R42): each command's own checks; an illegal word fails (R105). -/
def checkStep (s : State) : State :=
  match s.ctx.opc with
  | .illegal => s.raise .illegalCommand
  | .create => checkCreate s
  | .encrypt => checkEncrypt s
  | .decrypt => checkDecrypt s

/-- The COMMIT step (R42): each command's own commit. ILLEGAL never gets here (log 16). -/
def commitStep (s : State) : State :=
  match s.ctx.opc with
  | .illegal => s.completeStep
  | .create => commitCreate s
  | .encrypt => commitEncrypt s
  | .decrypt => commitDecrypt s

/-- The internal step of the phase, if it has one (R42); IDLE and the three waits have none (R242). -/
def seqInternal (s : State) : State :=
  match s.seq with
  | .rstClr => { s with seq := .idle }
  | .idle => s
  | .check => checkStep s
  | .rngWait => s
  | .initWait => s
  | .blkWait => s
  | .commit => commitStep s
  | .abort => s.abortStep

/-- The sequencer's turn: one internal step, but a CREATE that passes its CHECK, the one command CHECK sends to COMMIT
(R42), completes in the same turn. DEDUCED (log 16): R71 lets a host read nothing of the new instance before the
completion, and lets a command be one transition; unsafe. -/
def seqTurn (s : State) : State :=
  let t := seqInternal s
  if s.seq = .check ∧ t.seq = .commit then seqInternal t else t

/-- The sequencer's move on an event: its turn, or an answer. An answer that the phase does not wait for is ignored
(R262, V8, log 12). -/
def seqMove (P : Params) (e : Event) (s : State) : State :=
  match e, s.seq with
  | .internal, _ => seqTurn s
  | .rng b, .rngWait => answerRng b s
  | .eng a, .initWait => s.answerInit a
  | .eng a, .blkWait => s.answerBlock P a
  | _, _ => s

/-- The request outstanding on a port: at most one, told by the phase (R43, R81). -/
def State.outstanding (s : State) : Option PortMsg :=
  match s.seq with
  | .rngWait => some (.rng s.inst.ivBytes)
  | .initWait => some (.engInit s.inst.variant s.inst.keyBytes)
  | .blkWait => some (.engBlock s.ctx.ctr)
  | _ => none

/-- One event reaches the block (R42, R70, R262). -/
def deliver (P : Params) (e : Event) (s : State) : State :=
  match e with
  | .bus a => s.hostAccess a
  | .reset => s.applyReset
  | .internal => seqMove P .internal s
  | .rng b => seqMove P (.rng b) s
  | .eng a => seqMove P (.eng a) s
  | .stale => s

/-- ONE SINGLE STEP of one agent (R42, R69, R70): the next event takes effect; when no input is to come the sequencer
takes its turn, and in IDLE or a wait nothing happens (R242). -/
def tick (P : Params) (s : State) : State :=
  match s.events with
  | [] => seqTurn s
  | e :: rest => deliver P e { s with events := rest }

/-- The event moves the sequencer from this phase (R42). -/
def enabled (q : Seq) (e : Event) : Bool :=
  match q, e with
  | .rstClr, .internal => true
  | .check, .internal => true
  | .commit, .internal => true
  | .abort, .internal => true
  | .rngWait, .rng _ => true
  | .initWait, .eng _ => true
  | .blkWait, .eng _ => true
  | _, _ => false

/-- Run the accepted command while the next event moves the sequencer; with no input to come, the turns that are
left (at most CHECK or COMMIT, then ABORT; a third changes nothing). It stops at an event of another agent, which the next step
delivers (R70, R71, log 2). -/
def drive (P : Params) : List Event → State → State
  | [], s => { seqTurn (seqTurn (seqTurn s)) with events := [] }
  | e :: es, s => if enabled s.seq e then drive P es (seqMove P e s) else { s with events := e :: es }

/-- A command issued by a CMD write: dropped while busy (R65, R233), else accepted (R225) and run (R71). -/
def issue (P : Params) (opc : Opc) (s : State) : State :=
  if s.busy then s.dropWrite else drive P s.events (s.accept opc)

end Sys2Proof.Machine
end

