-- ==== Sys2Proof/Machine/Commands.lean ====
section
/-! DEFINITION. The meanings of the three commands (spec/30_encoding.md R102): each is issued as its own operation, whose
checks, answers and commit are in Create.lean, Encrypt.lean and Decrypt.lean. -/

namespace Sys2Proof.Machine

/-- CREATE (R130). -/
def execCreate (s : State) : Host.Outcome State Fault Refusal := .next (issue Config.machine .create s)

/-- ENCRYPT (R180). -/
def execEncrypt (s : State) : Host.Outcome State Fault Refusal := .next (issue Config.machine .encrypt s)

/-- DECRYPT (R200). -/
def execDecrypt (s : State) : Host.Outcome State Fault Refusal := .next (issue Config.machine .decrypt s)

end Sys2Proof.Machine
end

