-- ==== Sys2Proof/Machine/Fetch.lean ====
section
/-! DEFINITION. Where a step takes a command from: the block fetches nothing (spec/20_memory.md R74), its instructions are
the words the host writes to CMD (spec/30_encoding.md R100). -/

namespace Sys2Proof.Machine

/-- The command word the next event writes to CMD, and the state the command is issued at: the event is taken and the
write has its ordinary response. -/
def fetch (s : State) : Option (Word × State) :=
  match s.events with
  | .bus (.write .w32 off w) :: rest =>
    if off = cmdOffset then some (w, { s with events := rest, resp := some .ordinary }) else none
  | _ => none

/-- The word of a CMD write, decoded from the bytes the bus carries (R63, R102). -/
def decodeCommand (w : Word) : Option Instr :=
  match decode (wordBytes w) with
  | .ok (i, _) => some i
  | .error _ => none

/-- An accepted word that is no command: it fails with IllegalCommand (R105). -/
def illegalCommand (s : State) : State := issue Config.machine .illegal s

/-- Any other event: a single step (R42, R70). -/
def otherStep (s : State) : State := tick Config.machine s

/-- A state whose next event is the write of `w` to CMD, and which is ready to accept it (log 17). -/
def placeCommand (s : State) (w : Word) : State :=
  { s with seq := .idle, events := .bus (.write .w32 cmdOffset w) :: s.events }

end Sys2Proof.Machine
end

