-- ==== Sys2Proof/Machine/Step.lean ====
section
/-! DEFINITION. One step of the machine: the next CMD write issues its command; any other event is a single step. -/

namespace Sys2Proof.Machine

/-- One step. A command word that decodes runs as `exec` says; one that does not fails with IllegalCommand (R105). A word
written while the block is busy is dropped whatever it decodes to (R107). -/
def step (s : State) : Host.Outcome State Fault Refusal :=
  match fetch s with
  | none => .next (otherStep s)
  | some (w, s') =>
    match decodeCommand w with
    | some i => exec i s'
    | none => .next (illegalCommand s')

/-- `s` with the command word `w` (of `nbits` table bits) as the very next thing the machine runs (log 17). -/
def State.withFetchWord (s : State) (nbits w : Nat) : State := placeCommand s (BitVec.ofNat 32 (w % 2 ^ nbits))

end Sys2Proof.Machine
end

