-- ==== Sys2Proof/Machine/HostProgram.lean ====
section
/-! DEFINITION. The host-program notation of spec/30_encoding.md R110 to R112: the expansions of the pseudo-instructions,
the bus transactions of a program, and a program run on the block. -/

namespace Sys2Proof.Machine

/-- The offset of KEYk (R21). -/
def keyOffset (k : Nat) : Nat := 0x40 + 4 * k

/-- The offset of IN word w, `IN + 4w` (R21, R111). -/
def inOffset (w : Nat) : Nat := 0x10000 + 4 * w

/-- Word w of a byte sequence, bytes past its end taken as 0 (R111). -/
def seqWord (b : List Byte) (w : Nat) : Word :=
  wordOfLanes (b.getD (4 * w) 0) (b.getD (4 * w + 1) 0) (b.getD (4 * w + 2) 0) (b.getD (4 * w + 3) 0)

/-- `ceil(n / 4)` (R9, R111). -/
def words (n : Nat) : Nat := (n + 3) / 4

/-- The expansion of a pseudo-instruction (R111). -/
def expandPseudo : Pseudo → List HostLine
  | .create => [.wr 0x00004 0x00000001]
  | .encrypt => [.wr 0x00004 0x00000002]
  | .decrypt => [.wr 0x00004 0x00000003]
  | .waitDone => [.poll 0x00008 0x00000002 0x00000002]
  | .waitIdle => [.poll 0x00008 0x00000001 0x00000000]
  | .ack => [.wr 0x00008 0x0000000A]
  | .ldKey b len => ((List.range (min (words len.toNat) 8)).map fun k => .wr (keyOffset k) (seqWord b k).toNat) ++
    [.wr 0x00010 len.toNat]
  | .setIv s => [.wr 0x00014 s.toNat]
  | .ldIn b => ((List.range (words b.length)).map fun w => .wr (inOffset w) (seqWord b w).toNat) ++
    [.wr 0x00018 b.length]

/-! ## A program runs one access at a time (R110) -/

/-- A POLL stops at the first value v with (v & mask) = val (R110). -/
def pollStops (mask val v : Word) : Bool := v &&& mask == val

/-- A WR's access: its value in 32 bits (R110). DESIGN CHOICE (log 28): a value that needs more, which R110 does not allow
and R111 writes for an LDIN of 2^32 bytes or more, is not cut down (R9): its access is wider than 32 bits, and the block
answers it with R62's bus error; safe. -/
def writeAccess (off : Nat) (val : Nat) : Access :=
  .write (if is32Bit val then .w32 else .w64) off (BitVec.ofNat 32 val)

/-- The bus access of a line; a POLL's is its `RD` (R110, R112). -/
def lineAccess : HostLine → Access
  | .wr off val => writeAccess off val
  | .rd off _ => .read .w32 off
  | .poll off _ _ => .read .w32 off

/-- The line is done when its access has been answered with `v`: a POLL repeats its RD until the value matches (R110). -/
def lineDone (v : Word) : HostLine → Bool
  | .wr _ _ => true
  | .rd _ _ => true
  | .poll _ mask val => pollStops mask val v

/-- The answer is the one the line expects: `RD off => val` asserts `val` (R110: an assertion, not an effect). -/
def lineExpects (v : Word) : HostLine → Bool
  | .wr _ _ => true
  | .rd _ expected => expected.all (· == v)
  | .poll _ _ _ => true

/-- The lines left of a program whose first access has been answered with `v`. -/
def linesAfter (v : Word) : List HostLine → List HostLine
  | [] => []
  | l :: p => if lineDone v l then p else l :: p

/-- The encoding of a host program (R112): its bus transactions in order, when its accesses are answered with these values
in order (a write with any value). Each POLL makes as many reads as its answers ask for (log 22). -/
def transactions : List Word → List HostLine → List Access
  | [], _ => []
  | _ :: _, [] => []
  | v :: vs, l :: p => lineAccess l :: transactions vs (linesAfter v (l :: p))

/-! ## A program beside the other agents (R70, R110) -/

/-- Whose move comes next: the program's host, or another agent with this event. -/
inductive Slot where
  | host
  | other (e : Event)
  deriving DecidableEq, Repr

/-- A host program under way. -/
structure HostRun where
  /-- the lines left -/
  left : List HostLine
  /-- the inputs the block has taken so far, in order: the program's accesses among the other agents' events -/
  taken : List Event
  /-- the data of the responses to the program's accesses so far, in order (R64, R232) -/
  answered : List Word
  /-- the block -/
  block : State
  deriving DecidableEq, Repr

/-- The data of the response to the last access (R64, R232). -/
def State.answer (s : State) : Word :=
  match s.resp with
  | none => 0
  | some r => r.data

/-- One move: the host makes the access of its first line and goes on by its answer, or another agent moves. -/
def HostRun.move (P : Params) (r : HostRun) : Slot → HostRun
  | .other e => { r with taken := r.taken ++ [e], block := deliver P e r.block }
  | .host =>
    match r.left with
    | [] => r
    | l :: p =>
      let t := r.block.hostAccess (lineAccess l)
      ⟨linesAfter t.answer (l :: p), r.taken ++ [.bus (lineAccess l)], r.answered ++ [t.answer], t⟩

/-- Run a host program on the block at `s`, the moves in this order. -/
def hostRun (P : Params) (order : List Slot) (p : List HostLine) (s : State) : HostRun :=
  order.foldl (HostRun.move P) ⟨p, [], [], s⟩

end Sys2Proof.Machine
end

