-- ==== Sys2Proof/Safety.lean ====
section
/-! DEFINITION. What the claims speak of: the machine's invariant (R24, R35, R37, R40, R42, R158, R162), what the host can
observe of a state (R64), the shape of a command's port traffic (R80, R81), and the inputs that carry a command through. -/

namespace Sys2Proof.Machine

/-! ## The invariant -/

/-- A legal `BUF_BYTES` (R7). -/
abbrev CapOk (n : Nat) : Prop := 16 ≤ n ∧ n ≤ 65536 ∧ n % 4 = 0

/-- The instance invariants (R37, R39). -/
abbrev CipherInst.Ok (c : CipherInst) : Prop :=
  if c.valid then
    (c.keyLen = 16 ∨ c.keyLen = 32) ∧ 12 ≤ c.ivBytes ∧ c.ivBytes ≤ 16 ∧ variantOf c.keyLen.toNat = some c.variant ∧
      ∀ i : Fin 32, c.keyLen.toNat ≤ i.val → c.key[i] = 0
  else c = CipherInst.absent

/-- A buffer: canonical, and nothing beyond its capacity (R34, R35). -/
abbrev Memory.Fits (m : Memory) (n : Nat) : Prop := Memory.wf m ∧ ∀ c ∈ m, c.1 < n

/-- The context's counters fit the widths of R40. -/
abbrev Context.Fits (c : Context) : Prop :=
  c.n < 2 ^ 17 ∧ c.src < 2 ^ 5 ∧ c.dst < 2 ^ 5 ∧ c.nblk < 2 ^ 13 ∧ c.j < 2 ^ 13 ∧ c.ksCount < 2 ^ 17

/-- The registers as acceptance leaves them (R225, R268). -/
abbrev State.Quiet (s : State) : Prop := s.done = false ∧ s.error = false ∧ s.errCode = none ∧ s.outLen = 0

/-- The IV of the running command (R183, R203). -/
def State.iv (s : State) : List Byte := s.ctx.ivReg.toList.take s.inst.ivBytes

/-- What an ENCRYPT has set up after its CHECK (R180), a DECRYPT after its (R200, R203). -/
abbrev State.Planned (s : State) : Prop :=
  s.inst.valid = true ∧ s.ctx.code = none ∧ s.ctx.nblk = blocks s.ctx.n ∧
  match s.ctx.opc with
  | .encrypt =>
    s.ctx.n = s.msgLength ∧ s.ctx.src = 0 ∧ s.ctx.dst = s.inst.ivBytes ∧ s.msgLength + s.inst.ivBytes ≤ s.bufBytes
  | .decrypt =>
    s.ctx.n = s.msgLength - s.inst.ivBytes ∧ s.ctx.src = s.inst.ivBytes ∧ s.ctx.dst = 0 ∧
      s.inst.ivBytes ≤ s.msgLength ∧ s.msgLength ≤ s.bufBytes ∧ s.iv = Memory.readBytes s.inBuf 0 s.inst.ivBytes
  | .create => False
  | .illegal => False

/-- The stream has taken J blocks (R157): the counter, the count, and OUT's bytes so far (R153, R156). -/
def State.Streamed (P : Params) (s : State) : Prop :=
  s.Planned ∧ s.ctx.initIssued = true ∧ s.ctx.j ≤ s.ctx.nblk ∧ s.ctx.ksCount = min (16 * s.ctx.j) s.ctx.n ∧
  s.ctx.ivReg = pad s.iv ∧ s.ctx.ctr = counterBlock P (pad s.iv) s.ctx.j ∧
  ∀ a, Memory.readByte s.outBuf a =
    if s.ctx.dst ≤ a ∧ a < s.ctx.dst + s.ctx.ksCount then
      Memory.readByte s.inBuf (s.ctx.src + (a - s.ctx.dst)) ^^^
        keystreamByte P s.inst.variant s.inst.keyBytes s.iv (a - s.ctx.dst)
    else 0

/-- What each phase says of the rest of the state (R40, R42), after any single step: a CREATE passes through its COMMIT in
one turn (log 16), so a COMMIT that stands is a stream's. -/
def State.PhaseOk (P : Params) (s : State) : Prop :=
  match s.seq with
  | .rstClr => s.Quiet ∧ s.ctx = Context.zero ∧ s.inBuf = [] ∧ s.outBuf = [] ∧ s.inst = CipherInst.absent
  | .idle =>
    s.ctx = Context.zero ∧ s.outLen.toNat ≤ s.bufBytes ∧ (∀ a, s.outLen.toNat ≤ a → Memory.readByte s.outBuf a = 0) ∧
      (s.error = true → s.outLen = 0)
  | .check => s.Quiet ∧ s.outBuf = [] ∧ ∃ o, s.ctx = { Context.zero with opc := o }
  | .rngWait =>
    s.Quiet ∧ s.outBuf = [] ∧ s.Planned ∧ s.ctx.opc = .encrypt ∧ s.ctx.j = 0 ∧ s.ctx.ksCount = 0 ∧ s.ctx.initIssued = false
  | .initWait => s.Quiet ∧ s.Streamed P ∧ s.ctx.j = 0
  | .blkWait => s.Quiet ∧ s.Streamed P ∧ s.ctx.j < s.ctx.nblk
  | .commit => s.Quiet ∧ s.Streamed P ∧ s.ctx.j = s.ctx.nblk
  | .abort => s.Quiet ∧ s.ctx.code ≠ none

/-- The machine's invariant, for the parameters `P`. -/
structure State.Inv (P : Params) (s : State) : Prop where
  /-- R7 -/
  cap : CapOk s.bufBytes
  /-- R37 -/
  inst : s.inst.Ok
  /-- R34 -/
  inFits : Memory.Fits s.inBuf s.bufBytes
  /-- R35 -/
  outFits : Memory.Fits s.outBuf s.bufBytes
  /-- R40 -/
  fits : s.ctx.Fits
  /-- R24: ERROR is always equal to (ERR.CODE ≠ 0) -/
  errorBit : s.error = s.errCode.isSome
  /-- R24: DONE and BUSY are never both 1 -/
  doneIdle : s.done = true → s.seq = .idle
  /-- R42 -/
  phase : s.PhaseOk P

/-! ## What the host observes -/

/-- Everything a host can learn of a state: every aligned read (R64) and the interrupt output (R229). -/
def State.looksLike (s t : State) : Prop :=
  (∀ off : Nat, off % 4 = 0 → s.hostRead off = t.hostRead off) ∧ s.irqO = t.irqO

/-! ## Inputs that carry a command through -/

/-- The inputs to come are `head`, then `k` turns of the sequencer, then `rest`; where nothing comes after them, turns at
the end may be missing, since a sequencer that no input keeps waiting moves by itself. -/
def State.Comes (s : State) (head : List Event) (k : Nat) (rest : List Event) : Prop :=
  s.events = head ++ List.replicate k .internal ++ rest ∨
    (rest = [] ∧ ∃ k', k' ≤ k ∧ s.events = head ++ List.replicate k' .internal)

/-- The sequencer has the next move: its turn comes, or no input comes at all; `rest` comes after it. -/
def State.Turn (s : State) (rest : List Event) : Prop := s.events = .internal :: rest ∨ (s.events = [] ∧ rest = [])

/-- The inputs of an ENCRYPT up to the engine's answer to `eng_init` and `m` answers to `eng_block`, all ok. -/
def encryptOks (b : Block) (m : Nat) : List Event := [.internal, .rng b, .eng .ok] ++ List.replicate m (.eng .ok)

/-- The inputs of a DECRYPT up to the engine's answer to `eng_init` and `m` answers to `eng_block`, all ok. -/
def decryptOks (m : Nat) : List Event := [.internal, .eng .ok] ++ List.replicate m (.eng .ok)

/-- The messages of an ENCRYPT that issued `eng_init` and `m` block requests (R81, R82). -/
def encryptMsgs (P : Params) (c : CipherInst) (iv : List Byte) (m : Nat) : List PortMsg :=
  [.rng c.ivBytes, .engInit c.variant c.keyBytes] ++ ((List.range m).map fun j => .engBlock (counterBlock P (pad iv) j)) ++
    [.engRelease]

/-- The messages of a DECRYPT that issued `eng_init` and `m` block requests (R81). -/
def decryptMsgs (P : Params) (c : CipherInst) (iv : List Byte) (m : Nat) : List PortMsg :=
  [.engInit c.variant c.keyBytes] ++ ((List.range m).map fun j => .engBlock (counterBlock P (pad iv) j)) ++ [.engRelease]

/-- The states differ at most in their key bytes, staged and installed (R33, R36). -/
def State.keyBlind (s t : State) : Prop :=
  t = { s with keyStage := t.keyStage, inst := { s.inst with key := t.inst.key } }

/-- The state a completed command leaves (R226, R227): only what a completion writes differs from `s`. -/
def State.completed (s : State) (err : Option ErrorKind) (inst : CipherInst) (outBuf : Memory) (outLen : Word)
    (msgs : List PortMsg) (rest : List Event) : State :=
  { s with
    seq := .idle, done := true, error := err.isSome, errCode := err, outLen := outLen, outBuf := outBuf, inst := inst,
    ctx := Context.zero, events := rest, portLog := s.portLog ++ msgs }

/-! ## Port traffic -/

/-- The messages of one command (R80, R81, R82): none, or those of an ENCRYPT or a DECRYPT that issued `eng_init` and at
most NBLK block requests C_0, C_1, … in order. -/
def CommandTraffic (P : Params) (i : Instr) (c : CipherInst) (nblk : Nat) (msgs : List PortMsg) : Prop :=
  msgs = [] ∨
  ∃ (iv : List Byte) (k : Nat), iv.length = c.ivBytes ∧ k ≤ nblk ∧
    ((i = .encrypt ∧ msgs = encryptMsgs P c iv k) ∨ (i = .decrypt ∧ msgs = decryptMsgs P c iv k))

end Sys2Proof.Machine
end

