-- ==== Sys2Proof/Certificates/Slice0/Obligations.lean ====
section
/-! DEFINITION. The statements for the provers. Where a statement cites the model's own choice, its title or docstring says
so and names the log entry. -/

open Sys2Proof Sys2Proof.Machine

/-- The words of the spec's decode table decode as it says. (30_encoding.md section 1, 30_encoding.md section 3,
95_test_vectors.md section 2.1) -/
def Obligations.SpecWordsDecode : Prop :=
  decodeCommand 0x00000001 = some .create ∧ decodeCommand 0x00000002 = some .encrypt ∧
  decodeCommand 0x00000003 = some .decrypt ∧
  decodeWord 0x00000000 = .error .reservedOp ∧ decodeWord 0x00000004 = .error .reservedOp ∧
  decodeWord 0x0000000F = .error .reservedOp ∧ decodeWord 0x00000012 = .error .reservedBitsSet ∧
  decodeWord 0x80000001 = .error .reservedBitsSet ∧ decodeWord 0xFFFFFFFF = .error .reservedBitsSet

/-- Every word is one of the three commands or illegal, and the encoder is the decoder's inverse. (R106) -/
def Obligations.EveryWordIsOneCommandOrIllegal : Prop :=
  (∀ (w : Word) (i : Instr), decodeCommand w = some i ↔ w = encode i) ∧
  (encode .create = 0x00000001 ∧ encode .encrypt = 0x00000002 ∧ encode .decrypt = 0x00000003) ∧
  (∀ w : Word, Opc.ofWord w = .illegal ↔ w ≠ 0x00000001 ∧ w ≠ 0x00000002 ∧ w ≠ 0x00000003) ∧
  (∀ w : Word, decodeCommand w = (cmdTable.find? fun r => w &&& r.mask == r.pattern).map CmdRow.instr) ∧
  ∀ (i : Instr) (rest : List Byte), decode (encodeBytes i ++ rest) = .ok (i, rest)

/-- A step at a CMD write runs the command the word decodes to; any other step is a single step. (30_encoding.md
section 1, notes/assumptions/17.md) -/
def Obligations.StepRunsTheDecodedCommand : Prop :=
  (∀ (s : State) (w : Word) (more : List Event) (i : Instr), s.events = .bus (.write .w32 0x00004 w) :: more →
    decodeCommand w = some i → step s = exec i { s with events := more, resp := some ⟨false, 0⟩ }) ∧
  ∀ s : State, (∀ (w : Word) (more : List Event), s.events ≠ .bus (.write .w32 0x00004 w) :: more) →
    step s = .next (tick Config.machine s)

/-- An accepted word that is no command completes with IllegalCommand and changes nothing else. (R105) -/
def Obligations.IllegalWordFails : Prop :=
  ErrorKind.code .illegalCommand = 10 ∧
  ∀ (s : State) (w : Word) (more rest : List Event), s.seq = .idle →
    s.events = .bus (.write .w32 0x00004 w) :: more →
    ({ s with events := more } : State).Comes [] 2 rest →
    w ≠ 0x00000001 → w ≠ 0x00000002 → w ≠ 0x00000003 →
    step s = .next { s.completed (some .illegalCommand) s.inst [] 0 [] rest with resp := some ⟨false, 0⟩ }

/-- A CMD write while busy is dropped, whatever the word: OVERRUN is set and nothing else changes. (R107) -/
def Obligations.CommandWhileBusyIsDropped : Prop :=
  (∀ (i : Instr) (s : State), s.seq ≠ .idle → exec i s = .next { s with overrun := true }) ∧
  ∀ (s : State) (w : Word) (more : List Event), s.seq ≠ .idle → s.events = .bus (.write .w32 0x00004 w) :: more →
    step s = .next { s with overrun := true, events := more, resp := some ⟨false, 0⟩ }

/-- CREATE with a legal key length and IV size installs the instance and completes, in one turn (log 16); all else is
unchanged. (40_create.md, 60_exceptions.md section 2, notes/assumptions/16.md) -/
def Obligations.CreateInstallsTheStagedInstance : Prop :=
  ∀ (s : State) (rest : List Event), s.seq = .idle → (s.keyLen = 16 ∨ s.keyLen = 32) →
    12 ≤ s.ivSize.toNat → s.ivSize.toNat ≤ 16 → s.Comes [] 1 rest →
    ∃ c : CipherInst, exec .create s = .next (s.completed none c [] 0 [] rest) ∧
      c.valid = true ∧ c.keyLen.toNat = s.keyLen.toNat ∧ c.ivSize.toNat = s.ivSize.toNat ∧
      c.variant = (if s.keyLen = 16 then .v128 else .v256) ∧
      ∀ i : Fin 32, c.key[i] = if i.val < s.keyLen.toNat then s.keyStage[i] else 0

/-- CREATE fails with InvalidKeySize iff KEY_LEN is neither 16 nor 32, before it looks at IV_SIZE. (R131) -/
def Obligations.CreateRejectsKeyLength : Prop :=
  ErrorKind.code .invalidKeySize = 1 ∧
  ∀ (s : State) (rest : List Event), s.seq = .idle → s.Comes [] 2 rest →
    ((∃ t, exec .create s = .next t ∧ t.errCode = some .invalidKeySize) ↔ s.keyLen ≠ 16 ∧ s.keyLen ≠ 32) ∧
    (s.keyLen ≠ 16 → s.keyLen ≠ 32 →
      exec .create s = .next (s.completed (some .invalidKeySize) CipherInst.absent [] 0 [] rest))

/-- With a legal KEY_LEN, CREATE fails with InvalidIvSize iff IV_SIZE is outside [12, 16]. (R132) -/
def Obligations.CreateRejectsIvSize : Prop :=
  ErrorKind.code .invalidIvSize = 2 ∧
  ∀ (s : State) (rest : List Event), s.seq = .idle → s.Comes [] 2 rest → (s.keyLen = 16 ∨ s.keyLen = 32) →
    ((∃ t, exec .create s = .next t ∧ t.errCode = some .invalidIvSize) ↔
      s.ivSize.toNat < 12 ∨ 16 < s.ivSize.toNat) ∧
    (s.ivSize.toNat < 12 ∨ 16 < s.ivSize.toNat →
      exec .create s = .next (s.completed (some .invalidIvSize) CipherInst.absent [] 0 [] rest))

/-- A failed CREATE leaves no instance, and a later ENCRYPT or DECRYPT fails with NoInstance. (R134) -/
def Obligations.FailedCreateInvalidates : Prop :=
  ∀ s t : State, s.seq = .idle → exec .create s = .next t → t.seq = .idle → t.error = true →
    (t.inst.valid = false ∧ t.inst.key = KeyBytes.zero ∧ t.inst.keyLen = 0 ∧ t.inst.ivSize = 0 ∧
      t.inst.variant = .v128) ∧
    ∀ (u : State) (rest : List Event), u.inst = t.inst → u.seq = .idle → u.Comes [] 2 rest →
      exec .encrypt u = .next (u.completed (some .noInstance) u.inst [] 0 [] rest) ∧
      exec .decrypt u = .next (u.completed (some .noInstance) u.inst [] 0 [] rest)

/-- Only CREATE writes the instance and only a reset clears it otherwise. (R38) -/
def Obligations.OnlyCreateAndResetChangeTheInstance : Prop :=
  (∀ (P : Params) (s : State), (tick P s).inst ≠ s.inst →
    (∃ rest, s.events = .reset :: rest) ∨
    (s.ctx.opc = .create ∧ (s.seq = .check ∨ s.seq = .abort) ∧ ∃ rest, s.Turn rest)) ∧
  ∀ (i : Instr) (s t : State), i ≠ .create → exec i s = .next t → t.inst = s.inst

/-- ENCRYPT completes: OUT is IV ∥ (plaintext ⊕ keystream), zero beyond, OUT_LEN = s + n; all else is unchanged.
(R159) -/
def Obligations.EncryptCompletesWithIvAndBody : Prop :=
  ∀ (s : State) (b : Block) (rest : List Event), s.seq = .idle → s.inst.Ok → s.inst.valid = true → CapOk s.bufBytes →
    s.inLen.toNat + s.inst.ivSize.toNat ≤ s.bufBytes →
    s.Comes (encryptOks b (blocks s.inLen.toNat)) 1 rest →
    ∃ (out : Memory) (len : Word),
      exec .encrypt s = .next (s.completed none s.inst out len
        (encryptMsgs Config.machine s.inst (b.toList.take s.inst.ivSize.toNat) (blocks s.inLen.toNat)) rest) ∧
      len.toNat = s.inst.ivSize.toNat + s.inLen.toNat ∧ Memory.Fits out s.bufBytes ∧
      ∀ a, Memory.readByte out a =
        if a < s.inst.ivSize.toNat then b.toList.getD a 0
        else if a < s.inst.ivSize.toNat + s.inLen.toNat then
          Memory.readByte s.inBuf (a - s.inst.ivSize.toNat) ^^^
            (keystream Config.machine s.inst.variant s.inst.keyBytes (b.toList.take s.inst.ivSize.toNat)
              s.inLen.toNat).getD (a - s.inst.ivSize.toNat) 0
        else 0

/-- ENCRYPT with no instance fails with NoInstance, then with too long a message with LengthOverflow, before any port
message. (R181) -/
def Obligations.EncryptPreconditions : Prop :=
  ErrorKind.code .noInstance = 8 ∧ ErrorKind.code .lengthOverflow = 9 ∧
  ∀ (s : State) (rest : List Event), s.seq = .idle → s.Comes [] 2 rest →
    (s.inst.valid = false → exec .encrypt s = .next (s.completed (some .noInstance) s.inst [] 0 [] rest)) ∧
    (s.inst.valid = true → s.bufBytes < s.inLen.toNat + s.inst.ivSize.toNat →
      exec .encrypt s = .next (s.completed (some .lengthOverflow) s.inst [] 0 [] rest))

/-- ENCRYPT with a failing eng_init ends with CipherInitFailure, with a failing eng_block with EncryptionFailure.
(42_encrypt.md, 41_datapath.md section 3, 20_memory.md section 5) -/
def Obligations.EncryptEngineFailures : Prop :=
  ErrorKind.code .cipherInitFailure = 4 ∧ ErrorKind.code .encryptionFailure = 5 ∧
  ∀ (s : State) (b : Block) (rest : List Event), s.seq = .idle → s.inst.Ok → s.inst.valid = true →
    s.inLen.toNat + s.inst.ivSize.toNat ≤ s.bufBytes →
    (s.Comes [.internal, .rng b, .eng .fail] 1 rest →
      exec .encrypt s = .next (s.completed (some .cipherInitFailure) s.inst [] 0
        (encryptMsgs Config.machine s.inst (b.toList.take s.inst.ivSize.toNat) 0) rest)) ∧
    ∀ m, m < blocks s.inLen.toNat → s.Comes (encryptOks b m ++ [.eng .fail]) 1 rest →
      exec .encrypt s = .next (s.completed (some .encryptionFailure) s.inst [] 0
        (encryptMsgs Config.machine s.inst (b.toList.take s.inst.ivSize.toNat) (m + 1)) rest)

/-- ENCRYPT sends one rng request before anything to the engine and waits for its answer. (R182) -/
def Obligations.EncryptRequestsOneIvAndWaits : Prop :=
  ∀ (s : State) (rest : List Event), s.seq = .idle → s.inst.valid = true →
    s.inLen.toNat + s.inst.ivSize.toNat ≤ s.bufBytes → s.Turn rest → (∀ b more, rest ≠ .rng b :: more) →
    ∃ t, exec .encrypt s = .next t ∧
      t = { s with
        seq := .rngWait, done := false, error := false, errCode := none, outBuf := [], outLen := 0,
        ctx := { Context.zero with
          opc := .encrypt, n := s.inLen.toNat, src := 0, dst := s.inst.ivSize.toNat, nblk := (s.inLen.toNat + 15) / 16 },
        events := rest, portLog := s.portLog ++ [.rng s.inst.ivSize.toNat] } ∧
      t.busy = true ∧ t.outstanding = some (.rng s.inst.ivSize.toNat) ∧ (rest = [] → step t = .next t)

/-- The TRNG's answer becomes IVREG and the first counter block, unchecked, and eng_init is sent. (R183) -/
def Obligations.TrngAnswerStartsTheStream : Prop :=
  ∀ (P : Params) (s : State) (b : Block) (more : List Event), s.Inv P → s.seq = .rngWait → s.events = .rng b :: more →
    ∃ iv : Block, tick P s = { s with
        seq := .initWait, events := more, portLog := s.portLog ++ [.engInit s.inst.variant s.inst.keyBytes],
        ctx := { s.ctx with ivReg := iv, ctr := iv, initIssued := true } } ∧
      (∀ i : Fin 16, iv[i] = if i.val < s.inst.ivSize.toNat then b[i] else 0) ∧
      s.ctx.src = 0 ∧ s.ctx.dst = s.inst.ivSize.toNat ∧ s.ctx.n = s.inLen.toNat

/-- DECRYPT completes: OUT is body ⊕ keystream, zero beyond, OUT_LEN = m − s; all else is unchanged. (R160) -/
def Obligations.DecryptCompletesWithPlaintext : Prop :=
  ∀ (s : State) (rest : List Event), s.seq = .idle → s.inst.Ok → s.inst.valid = true → CapOk s.bufBytes →
    s.inst.ivSize.toNat ≤ s.inLen.toNat → s.inLen.toNat ≤ s.bufBytes →
    s.Comes (decryptOks (blocks (s.inLen.toNat - s.inst.ivSize.toNat))) 1 rest →
    ∃ (out : Memory) (len : Word),
      exec .decrypt s = .next (s.completed none s.inst out len
        (decryptMsgs Config.machine s.inst (Memory.readBytes s.inBuf 0 s.inst.ivSize.toNat)
          (blocks (s.inLen.toNat - s.inst.ivSize.toNat))) rest) ∧
      len.toNat = s.inLen.toNat - s.inst.ivSize.toNat ∧ Memory.Fits out s.bufBytes ∧
      ∀ a, Memory.readByte out a =
        if a < s.inLen.toNat - s.inst.ivSize.toNat then
          Memory.readByte s.inBuf (s.inst.ivSize.toNat + a) ^^^
            (keystream Config.machine s.inst.variant s.inst.keyBytes (Memory.readBytes s.inBuf 0 s.inst.ivSize.toNat)
              (s.inLen.toNat - s.inst.ivSize.toNat)).getD a 0
        else 0

/-- DECRYPT with no instance fails with NoInstance, then with IN_LEN > BUF_BYTES with LengthOverflow. (R201) -/
def Obligations.DecryptPreconditions : Prop :=
  ErrorKind.code .noInstance = 8 ∧ ErrorKind.code .lengthOverflow = 9 ∧
  ∀ (s : State) (rest : List Event), s.seq = .idle → s.Comes [] 2 rest →
    (s.inst.valid = false → exec .decrypt s = .next (s.completed (some .noInstance) s.inst [] 0 [] rest)) ∧
    (s.inst.valid = true → s.bufBytes < s.inLen.toNat →
      exec .decrypt s = .next (s.completed (some .lengthOverflow) s.inst [] 0 [] rest) ∧
      (s.inst.Ok → CapOk s.bufBytes → ¬ s.inLen.toNat < s.inst.ivSize.toNat))

/-- DECRYPT fails with CiphertextTooShort iff IN_LEN < INST_IVSIZE, before any engine message. (R202) -/
def Obligations.DecryptRejectsShortCiphertext : Prop :=
  ErrorKind.code .ciphertextTooShort = 3 ∧
  ∀ (s : State) (rest : List Event), s.seq = .idle → s.inst.Ok → s.inst.valid = true → CapOk s.bufBytes →
    (s.Comes [] 2 rest →
      ((∃ t, exec .decrypt s = .next t ∧ t.errCode = some .ciphertextTooShort) ↔
        s.inLen.toNat < s.inst.ivSize.toNat)) ∧
    (s.Comes [] 2 rest → s.inLen.toNat < s.inst.ivSize.toNat →
      exec .decrypt s = .next (s.completed (some .ciphertextTooShort) s.inst [] 0 [] rest)) ∧
    (s.Comes [.internal, .eng .ok] 1 rest → s.inLen.toNat = s.inst.ivSize.toNat →
      exec .decrypt s = .next (s.completed none s.inst [] 0
        (decryptMsgs Config.machine s.inst (Memory.readBytes s.inBuf 0 s.inst.ivSize.toNat) 0) rest))

/-- DECRYPT with a failing eng_init ends with CipherInitFailure, with a failing eng_block with DecryptionFailure.
(43_decrypt.md, 41_datapath.md section 3, 20_memory.md section 5) -/
def Obligations.DecryptEngineFailures : Prop :=
  ErrorKind.code .cipherInitFailure = 4 ∧ ErrorKind.code .decryptionFailure = 6 ∧
  ∀ (s : State) (rest : List Event), s.seq = .idle → s.inst.Ok → s.inst.valid = true →
    s.inst.ivSize.toNat ≤ s.inLen.toNat → s.inLen.toNat ≤ s.bufBytes →
    (s.Comes [.internal, .eng .fail] 1 rest →
      exec .decrypt s = .next (s.completed (some .cipherInitFailure) s.inst [] 0
        (decryptMsgs Config.machine s.inst (Memory.readBytes s.inBuf 0 s.inst.ivSize.toNat) 0) rest)) ∧
    ∀ m, m < blocks (s.inLen.toNat - s.inst.ivSize.toNat) → s.Comes (decryptOks m ++ [.eng .fail]) 1 rest →
      exec .decrypt s = .next (s.completed (some .decryptionFailure) s.inst [] 0
        (decryptMsgs Config.machine s.inst (Memory.readBytes s.inBuf 0 s.inst.ivSize.toNat) (m + 1)) rest)

/-- Round trip: DECRYPT of a successful ENCRYPT's output on the same instance gives the plaintext back. (R164) -/
def Obligations.DecryptUndoesEncrypt : Prop :=
  ∀ (P : Params) (s u : State), s.Inv P → s.seq = .idle →
    (issue P .encrypt s).seq = .idle → (issue P .encrypt s).errCode = none →
    u.Inv P → u.seq = .idle → u.inst = s.inst → u.inLen = (issue P .encrypt s).outLen →
    (∀ a, a < u.inLen.toNat → Memory.readByte u.inBuf a = Memory.readByte (issue P .encrypt s).outBuf a) →
    (issue P .decrypt u).seq = .idle → (issue P .decrypt u).errCode = none →
    (issue P .decrypt u).outLen = s.inLen ∧
    ∀ a, a < s.inLen.toNat → Memory.readByte (issue P .decrypt u).outBuf a = Memory.readByte s.inBuf a

/-- The machine's counter increment (the default CTR_INC: D20, log 7) is plus one modulo 2^128 on the big-endian
block. (41_datapath.md section 2, 92_eei_decisions.md D20, notes/assumptions/7.md) -/
def Obligations.CounterIncrementIsPlusOne : Prop :=
  (∀ n, n < 2 ^ 128 → be128 (blk128 n) = n) ∧ (∀ c : Block, blk128 (be128 c) = c) ∧
  (∀ c : Block, be128 (Config.machine.ctrInc c) = (be128 c + 1) % 2 ^ 128) ∧
  ∀ (c : Block) (j : Nat), be128 (counterBlock Config.machine c j) = (be128 c + j) % 2 ^ 128

/-- With the default CTR_INC (D20, log 7) the counter never carries into an IV of 14 bytes or fewer; with 15 bytes
first at C_256; with 16 it wraps. (41_datapath.md section 4, 92_eei_decisions.md D20, notes/assumptions/7.md) -/
def Obligations.CounterCarriesIntoTheIv : Prop :=
  (∀ (iv : List Byte) (j : Nat), iv.length ≤ 14 → j < 65536 →
    ∀ i, i < iv.length → (counterBlock Config.machine (pad iv) j).toList.getD i 0 = iv.getD i 0) ∧
  (∀ (iv : List Byte) (j : Nat), iv.length = 15 → j < 256 →
    ∀ i, i < 15 → (counterBlock Config.machine (pad iv) j).toList.getD i 0 = iv.getD i 0) ∧
  (∀ iv : List Byte, iv.length = 15 → iv.getD 14 0 ≠ 0xff →
    (counterBlock Config.machine (pad iv) 256).toList.getD 14 0 = iv.getD 14 0 + 1) ∧
  Config.machine.ctrInc (pad (List.replicate 16 0xff)) = Block.zero

/-- pad(iv) is the IV followed by zero bytes up to 16. (R150) -/
def Obligations.PaddingIsZeroOnTheRight : Prop :=
  (∀ iv : List Byte, 12 ≤ iv.length → iv.length ≤ 16 →
    ∀ i : Fin 16, (pad iv)[i] = if h : i.val < iv.length then iv[i.val] else 0) ∧
  (∀ iv : List Byte, iv.length = 16 → (pad iv).toList = iv) ∧
  pad [0x00, 0x01, 0x02, 0x03, 0x04, 0x05, 0x06, 0x07, 0x08, 0x09, 0x0a, 0x0b] =
    #v[0x00, 0x01, 0x02, 0x03, 0x04, 0x05, 0x06, 0x07, 0x08, 0x09, 0x0a, 0x0b, 0x00, 0x00, 0x00, 0x00]

/-- Each engine answer does what the streaming procedure says, lane by lane, and nothing else. (41_datapath.md section
3, 20_memory.md section 5) -/
def Obligations.EngineAnswersDriveTheStream : Prop :=
  ∀ (P : Params) (s : State) (a : EngAnswer) (more : List Event), s.events = .eng a :: more →
    (s.seq = .initWait →
      tick P s =
        if a = .fail then { s with seq := .abort, events := more, ctx := { s.ctx with code := some .cipherInitFailure } }
        else if s.ctx.n = 0 then { s with seq := .commit, events := more }
        else { s with seq := .blkWait, events := more, portLog := s.portLog ++ [.engBlock s.ctx.ctr] }) ∧
    (s.seq = .blkWait → a = .fail →
      tick P s = { s with seq := .abort, events := more, ctx := { s.ctx with
        code := some (if s.ctx.opc = .encrypt then .encryptionFailure else .decryptionFailure) } }) ∧
    (s.seq = .blkWait → a = .ok → Memory.wf s.outBuf →
      ∃ out : Memory,
        tick P s = { s with
          events := more, outBuf := out,
          seq := if s.ctx.j + 1 < s.ctx.nblk then .blkWait else .commit,
          portLog := s.portLog ++ (if s.ctx.j + 1 < s.ctx.nblk then [.engBlock (P.ctrInc s.ctx.ctr)] else []),
          ctx := { s.ctx with
            ksBuf := P.bc s.inst.variant s.inst.keyBytes s.ctx.ctr,
            ksCount := s.ctx.ksCount + min 16 (s.ctx.n - 16 * s.ctx.j),
            ctr := P.ctrInc s.ctx.ctr, j := s.ctx.j + 1 } } ∧
        ∀ i, Memory.readByte out i =
          if s.ctx.dst + 16 * s.ctx.j ≤ i ∧ i < s.ctx.dst + 16 * s.ctx.j + min 16 (s.ctx.n - 16 * s.ctx.j) then
            Memory.readByte s.inBuf (s.ctx.src + (i - s.ctx.dst)) ^^^
              (P.bc s.inst.variant s.inst.keyBytes s.ctx.ctr).toList.getD (i - s.ctx.dst - 16 * s.ctx.j) 0
          else Memory.readByte s.outBuf i)

/-- At COMMIT of ENCRYPT or DECRYPT a wrong KS_COUNT goes to ABORT with code 5 or 6; the check never fires in a run.
(R158) -/
def Obligations.LengthCheckAtCommit : Prop :=
  ErrorKind.code .encryptionFailure = 5 ∧ ErrorKind.code .decryptionFailure = 6 ∧
  (∀ (P : Params) (s : State) (rest : List Event), s.seq = .commit → s.Turn rest → s.ctx.ksCount ≠ s.ctx.n →
    (s.ctx.opc = .encrypt → tick P s =
      { s with seq := .abort, events := rest, ctx := { s.ctx with code := some .encryptionFailure } }) ∧
    (s.ctx.opc = .decrypt → tick P s =
      { s with seq := .abort, events := rest, ctx := { s.ctx with code := some .decryptionFailure } })) ∧
  ∀ (P : Params) (s : State), s.Inv P → s.seq = .commit → (s.ctx.opc = .encrypt ∨ s.ctx.opc = .decrypt) →
    s.ctx.ksCount = s.ctx.n

/-- A CMD write in IDLE is accepted: CHECK, flags and results cleared, a fresh context with the word's OPC. (R225) -/
def Obligations.AcceptanceOfACommand : Prop :=
  ∀ (P : Params) (s : State) (w : Word) (more : List Event), s.seq = .idle →
    s.events = .bus (.write .w32 0x00004 w) :: more →
    tick P s = { s with
      seq := .check, done := false, error := false, errCode := none, outBuf := [], outLen := 0, events := more,
      resp := some ⟨false, 0⟩,
      ctx := { Context.zero with
        opc := if w = 1 then .create else if w = 2 then .encrypt else if w = 3 then .decrypt else .illegal } }

/-- The ABORT step: OUT and OUT_LEN zero, engine released if issued, CODE to ERR, context zero, IDLE, DONE. (R226) -/
def Obligations.FailureCompletion : Prop :=
  ∀ (P : Params) (s : State) (rest : List Event), s.seq = .abort → s.Turn rest →
    s.outstanding = none ∧
    tick P s = { s with
      inst := if s.ctx.opc = .create then CipherInst.absent else s.inst,
      outBuf := [], outLen := 0,
      portLog := s.portLog ++ (if s.ctx.initIssued then [.engRelease] else []),
      errCode := s.ctx.code, error := true, ctx := Context.zero, seq := .idle, done := true, events := rest }

/-- The COMMIT step of each command: its own commit actions, engine released if issued, ERR 0, context zero, IDLE,
DONE. (R227) -/
def Obligations.SuccessCompletion : Prop :=
  ∀ (P : Params) (s : State) (rest : List Event), s.seq = .commit → s.Turn rest →
    (s.ctx.opc = .create → tick P s = { s with
      portLog := s.portLog ++ (if s.ctx.initIssued then [.engRelease] else []),
      errCode := none, error := false, ctx := Context.zero, seq := .idle, done := true, events := rest }) ∧
    (s.ctx.opc = .encrypt → s.ctx.ksCount = s.ctx.n → Memory.wf s.outBuf → ∃ out : Memory,
      tick P s = { s with
        outBuf := out, outLen := BitVec.ofNat 32 (s.inst.ivSize.toNat + s.ctx.n),
        portLog := s.portLog ++ (if s.ctx.initIssued then [.engRelease] else []),
        errCode := none, error := false, ctx := Context.zero, seq := .idle, done := true, events := rest } ∧
      ∀ a, Memory.readByte out a =
        if a < min 16 s.inst.ivSize.toNat then s.ctx.ivReg.toList.getD a 0 else Memory.readByte s.outBuf a) ∧
    (s.ctx.opc = .decrypt → s.ctx.ksCount = s.ctx.n → tick P s = { s with
      outLen := BitVec.ofNat 32 s.ctx.n,
      portLog := s.portLog ++ (if s.ctx.initIssued then [.engRelease] else []),
      errCode := none, error := false, ctx := Context.zero, seq := .idle, done := true, events := rest })

/-- Every single step that ends a command zeroizes the context and sends eng_release iff eng_init was issued. (R166)
-/
def Obligations.ContextIsReleasedAtEveryEnd : Prop :=
  ∀ (P : Params) (s : State), s.seq ≠ .idle → s.seq ≠ .rstClr → (∀ rest, s.events ≠ .reset :: rest) →
    (tick P s).seq = .idle →
    (tick P s).ctx = Context.zero ∧ (tick P s).done = true ∧
    (tick P s).portLog = s.portLog ++ (if s.ctx.initIssued then [.engRelease] else [])

/-- A command that ended has DONE = 1, ERROR = (ERR.CODE ≠ 0), and on failure OUT all zero and OUT_LEN 0.
(60_exceptions.md section 1, 60_exceptions.md section 2) -/
def Obligations.EveryCompletionReports : Prop :=
  ∀ (i : Instr) (s t : State), s.seq = .idle → exec i s = .next t →
    (t.seq = .idle → t.done = true ∧ t.error = t.errCode.isSome ∧ (t.error = true → t.outBuf = [] ∧ t.outLen = 0)) ∧
    (t.seq ≠ .idle → t.done = false ∧ t.error = false ∧ t.errCode = none ∧ t.outLen = 0)

/-- The error codes are 1 to 6 and 8 to 10, all different; 7 and 11 to 255 are never reported. (60_exceptions.md
section 1) -/
def Obligations.ErrorCodeValues : Prop :=
  codeByte none = 0 ∧
  [ErrorKind.invalidKeySize, .invalidIvSize, .ciphertextTooShort, .cipherInitFailure, .encryptionFailure,
    .decryptionFailure, .noInstance, .lengthOverflow, .illegalCommand].map ErrorKind.code = [1, 2, 3, 4, 5, 6, 8, 9, 10] ∧
  (∀ a b : ErrorKind, a.code = b.code → a = b) ∧
  ∀ s : State, (s.hostRead 0x0000C).toNat ∈ [0, 1, 2, 3, 4, 5, 6, 8, 9, 10]

/-- An aligned 32-bit read returns what the read map says, in every phase, and changes no state. (R64) -/
def Obligations.HostReadMap : Prop :=
  (∀ (s : State) (off : Nat), off % 4 = 0 → off < 2 ^ 18 →
    s.hostRead off =
      if off = 0x00000 then (0x43545201 : Word)
      else if off = 0x00004 then 0
      else if off = 0x00008 then bitWord s.overrun <<< 3 ||| bitWord s.error <<< 2 ||| bitWord s.done <<< 1 |||
        bitWord (s.seq != .idle)
      else if off = 0x0000C then (codeByte s.errCode).setWidth 32
      else if off = 0x00010 then s.keyLen
      else if off = 0x00014 then s.ivSize
      else if off = 0x00018 then s.inLen
      else if off = 0x0001C then s.outLen
      else if off = 0x00020 then s.inst.view
      else if off = 0x00024 then bitWord s.irqEn
      else if off = 0x00028 then BitVec.ofNat 32 s.bufBytes
      else if 0x00040 ≤ off ∧ off ≤ 0x0005C then 0
      else if 0x10000 ≤ off ∧ off < 0x10000 + s.bufBytes then Memory.readWord s.inBuf (off - 0x10000)
      else if 0x20000 ≤ off ∧ off < 0x20000 + s.bufBytes then
        if s.seq ≠ .idle then 0 else Memory.readWord s.outBuf (off - 0x20000)
      else 0) ∧
  (∀ (m : Memory) (o : Nat), Memory.readWord m o =
    Memory.readByte m (o + 3) ++ Memory.readByte m (o + 2) ++ Memory.readByte m (o + 1) ++ Memory.readByte m o) ∧
  ∀ (P : Params) (s : State) (off : Nat) (more : List Event), off % 4 = 0 → off < 2 ^ 18 →
    s.events = .bus (.read .w32 off) :: more →
    tick P s = { s with events := more, resp := some ⟨false, s.hostRead off⟩ }

/-- An aligned 32-bit write does what the write map says and nothing else. (R65) -/
def Obligations.HostWriteMap : Prop :=
  ∀ (P : Params) (s : State) (off : Nat) (v : Word) (more : List Event), off % 4 = 0 → off < 2 ^ 18 →
    s.events = .bus (.write .w32 off v) :: more →
    tick P s =
      { (if off = 0x00004 then (if s.seq = .idle then s.accept (Opc.ofWord v) else { s with overrun := true })
         else if off = 0x00008 then
           { s with done := s.done && !v.getLsbD 1, overrun := s.overrun && !v.getLsbD 3 }
         else if off = 0x00024 then { s with irqEn := v.getLsbD 0 }
         else if off = 0x00010 ∨ off = 0x00014 ∨ off = 0x00018 ∨ (0x00040 ≤ off ∧ off ≤ 0x0005C) ∨
             (0x10000 ≤ off ∧ off < 0x10000 + s.bufBytes) then
           if s.seq ≠ .idle then { s with overrun := true }
           else if off = 0x00010 then { s with keyLen := v }
           else if off = 0x00014 then { s with ivSize := v }
           else if off = 0x00018 then { s with inLen := v }
           else if off ≤ 0x0005C then { s with keyStage := writeKeyWord s.keyStage ((off - 0x40) / 4) v }
           else
             { s with
               inBuf := Memory.writeBytes s.inBuf (off - 0x10000)
                 [v.extractLsb' 0 8, v.extractLsb' 8 8, v.extractLsb' 16 8, v.extractLsb' 24 8] }
         else s : State) with
        events := more, resp := some ⟨false, 0⟩ }

/-- In IDLE a written KEY_LEN, IV_SIZE, IN_LEN or IN word reads back whole; KEY and IN bytes take the little-endian
lanes. (10_state.md section 2, 10_state.md section 3, 20_memory.md section 2) -/
def Obligations.StagingWritesReadBack : Prop :=
  ∀ (P : Params) (s : State) (off : Nat) (v : Word) (more : List Event), s.seq = .idle → Memory.wf s.inBuf →
    CapOk s.bufBytes → off % 4 = 0 → s.events = .bus (.write .w32 off v) :: more →
    (off = 0x00010 ∨ off = 0x00014 ∨ off = 0x00018 ∨ (0x10000 ≤ off ∧ off < 0x10000 + s.bufBytes) →
      (tick P s).hostRead off = v) ∧
    (0x10000 ≤ off → off < 0x10000 + s.bufBytes → ∀ a, Memory.readByte (tick P s).inBuf a =
      if off - 0x10000 ≤ a ∧ a < off - 0x10000 + 4 then
        v.extractLsb' (8 * (a - (off - 0x10000))) 8
      else Memory.readByte s.inBuf a) ∧
    ∀ k, k < 8 → off = 0x40 + 4 * k →
      (∀ i : Fin 32, (tick P s).keyStage[i] =
        if 4 * k ≤ i.val ∧ i.val < 4 * k + 4 then v.extractLsb' (8 * (i.val - 4 * k)) 8 else s.keyStage[i]) ∧
      (tick P s).hostRead off = 0

/-- An access that is not 32 bits at a multiple of 4 gets the error response with data 0 and changes nothing; every
other access an ordinary one. (R232) -/
def Obligations.BusErrorChangesNothing : Prop :=
  ∀ (P : Params) (s : State) (a : Access) (more : List Event), s.events = .bus a :: more →
    (¬ (a.sizeOk = true ∧ a.aligned = true) →
      tick P s = { s with events := more, resp := some ⟨true, 0⟩ } ∧ (tick P s).irqO = s.irqO) ∧
    (a.sizeOk = true → a.aligned = true → ∃ d, (tick P s).resp = some ⟨false, d⟩)

/-- Reserved offsets, those beyond BUF_BYTES among them, read 0 and ignore writes, with no OVERRUN even while busy.
(R67) -/
def Obligations.ReservedOffsetsReadZeroAndIgnoreWrites : Prop :=
  ∀ (P : Params) (s : State) (off : Nat) (v : Word) (more : List Event), CapOk s.bufBytes → off % 4 = 0 →
    ((0x2C ≤ off ∧ off < 0x40) ∨ (0x60 ≤ off ∧ off < 0x10000) ∨
      (0x10000 + s.bufBytes ≤ off ∧ off < 0x20000) ∨ (0x20000 + s.bufBytes ≤ off ∧ off < 0x40000)) →
    s.hostRead off = 0 ∧
    (s.events = .bus (.write .w32 off v) :: more →
      tick P s = { s with events := more, resp := some ⟨false, 0⟩ })

/-- INST reads VALID, VARIANT, KEYLEN and IVSIZE in their places when an instance exists and 0 otherwise. (10_state.md
section 2) -/
def Obligations.InstViewFields : Prop :=
  (∀ s : State, s.inst.valid = true →
    (s.hostRead 0x00020).getLsbD 0 = true ∧ ((s.hostRead 0x00020).getLsbD 1 = true ↔ s.inst.variant = .v256) ∧
    (s.hostRead 0x00020).extractLsb' 2 6 = 0 ∧ ((s.hostRead 0x00020).extractLsb' 8 8).toNat = s.inst.keyLen.toNat ∧
    ((s.hostRead 0x00020).extractLsb' 16 8).toNat = s.inst.ivSize.toNat ∧ (s.hostRead 0x00020).extractLsb' 24 8 = 0) ∧
  (∀ s : State, s.inst.valid = false → s.hostRead 0x00020 = 0) ∧
  ∀ (P : Params) (s : State) (v : Word) (more : List Event), s.events = .bus (.write .w32 0x00020 v) :: more →
    tick P s = { s with events := more, resp := some ⟨false, 0⟩ }

/-- STATUS reads BUSY, DONE, ERROR, OVERRUN in bits 0 to 3 and 0 above; a write clears DONE and OVERRUN by 1 and
nothing else. (10_state.md section 2, 20_memory.md section 2) -/
def Obligations.StatusBitsReadAndClear : Prop :=
  (∀ s : State,
    (s.hostRead 0x00008).getLsbD 0 = (s.seq != .idle) ∧ (s.hostRead 0x00008).getLsbD 1 = s.done ∧
    (s.hostRead 0x00008).getLsbD 2 = s.error ∧ (s.hostRead 0x00008).getLsbD 3 = s.overrun ∧
    ∀ i, 4 ≤ i → (s.hostRead 0x00008).getLsbD i = false) ∧
  (∀ (P : Params) (s : State) (v : Word) (more : List Event), s.events = .bus (.write .w32 0x00008 v) :: more →
    ∃ d o, tick P s = { s with done := d, overrun := o, events := more, resp := some ⟨false, 0⟩ } ∧
      (d = true ↔ s.done = true ∧ v.getLsbD 1 = false) ∧ (o = true ↔ s.overrun = true ∧ v.getLsbD 3 = false)) ∧
  ∀ (P : Params) (s : State) (v : Word) (more : List Event), s.events = .bus (.write .w32 0x00024 v) :: more →
    tick P s = { s with irqEn := v.getLsbD 0, events := more, resp := some ⟨false, 0⟩ } ∧
    ((tick P s).hostRead 0x00024).getLsbD 0 = v.getLsbD 0 ∧
    ∀ i, 1 ≤ i → ((tick P s).hostRead 0x00024).getLsbD i = false

/-- A write dropped while busy sets OVERRUN and nothing else; only a STATUS write with bit 3 or a reset clears it.
(R233) -/
def Obligations.OverrunIsStickyAndOnlyAFlag : Prop :=
  (∀ (P : Params) (s : State) (off : Nat) (v : Word) (more : List Event), s.seq ≠ .idle → off % 4 = 0 →
    (off = 0x00004 ∨ off = 0x00010 ∨ off = 0x00014 ∨ off = 0x00018 ∨ (0x00040 ≤ off ∧ off ≤ 0x0005C) ∨
      (0x10000 ≤ off ∧ off < 0x10000 + s.bufBytes)) →
    s.events = .bus (.write .w32 off v) :: more →
    tick P s = { s with overrun := true, events := more, resp := some ⟨false, 0⟩ }) ∧
  ∀ (P : Params) (s : State), s.overrun = true → (tick P s).overrun = false →
    (∃ rest, s.events = .reset :: rest) ∨
    ∃ (v : Word) (rest : List Event), s.events = .bus (.write .w32 0x00008 v) :: rest ∧ v.getLsbD 3 = true

/-- irq_o is DONE ∧ EN: masked by EN, cleared by the STATUS write and by acceptance, raised only by a completion or by
enabling. (60_exceptions.md section 3) -/
def Obligations.InterruptIsDoneAndEnabled : Prop :=
  (∀ s : State, s.irqO = true ↔ s.done = true ∧ s.irqEn = true) ∧
  (∀ (P : Params) (s : State), s.irqO = false → (tick P s).irqO = true →
    (s.irqEn = true ∧ s.seq ≠ .idle ∧ (tick P s).seq = .idle) ∨
    (s.done = true ∧ ∃ (v : Word) (rest : List Event), s.events = .bus (.write .w32 0x00024 v) :: rest ∧ v.getLsbD 0 = true)) ∧
  (∀ (P : Params) (s : State) (v : Word) (more : List Event), s.events = .bus (.write .w32 0x00008 v) :: more →
    v.getLsbD 1 = true → (tick P s).irqO = false) ∧
  (∀ (P : Params) (s : State) (w : Word) (more : List Event), s.seq = .idle →
    s.events = .bus (.write .w32 0x00004 w) :: more → (tick P s).irqO = false) ∧
  ∀ (P : Params) (s : State) (v : Word) (more : List Event), s.events = .bus (.write .w32 0x00024 v) :: more →
    v.getLsbD 0 = false → (tick P s).irqO = false ∧ (tick P s).done = s.done

/-- Key bytes, staged or installed, never reach the host: states that differ in them look alike, before and after any
single step. (60_exceptions.md section 5, 10_state.md section 3, 10_state.md section 4) -/
def Obligations.KeyIsNeverVisible : Prop :=
  (∀ s t : State, s.keyBlind t → s.looksLike t) ∧
  (∀ (P : Params) (s t : State), s.keyBlind t → (tick P s).looksLike (tick P t)) ∧
  (∀ (P : Params) (s t : State), s.keyBlind t →
    (s.seq = .check → s.ctx.opc = .decrypt → ∀ rest, ¬ s.Turn rest) →
    (s.seq = .rngWait → ∀ b rest, s.events ≠ .rng b :: rest) →
    (s.seq = .blkWait → ∀ rest, s.events ≠ .eng .ok :: rest) → (tick P s).keyBlind (tick P t)) ∧
  ∀ s t s' t' : State, s.keyBlind t → exec .create s = .next s' → exec .create t = .next t' → s'.keyBlind t'

/-- While a command runs and after any failure, OUT reads 0 everywhere and OUT_LEN reads 0. (R223) -/
def Obligations.NoPartialOutputIsVisible : Prop :=
  ∀ (P : Params) (s : State), s.Inv P →
    (s.seq ≠ .idle ∨ s.errCode ≠ none →
      (∀ off : Nat, off % 4 = 0 → 0x20000 ≤ off → off < 0x40000 → s.hostRead off = 0) ∧ s.hostRead 0x0001C = 0) ∧
    (s.errCode ≠ none → ∀ a, Memory.readByte s.outBuf a = 0)

/-- Between acceptance and completion every host read is what it was just after acceptance, but for OVERRUN and
IRQ_EN, which the host writes. (20_memory.md section 3, notes/assumptions/16.md) -/
def Obligations.CommandIsObservationallyAtomic : Prop :=
  (∀ (P : Params) (s : State), s.Inv P → s.seq ≠ .idle → s.seq ≠ .rstClr → (∀ rest, s.events ≠ .reset :: rest) →
    (tick P s).seq ≠ .idle →
    (∀ off : Nat, off % 4 = 0 → off ≠ 0x00008 → off ≠ 0x00024 → (tick P s).hostRead off = s.hostRead off) ∧
    (∀ i, i ≠ 3 → ((tick P s).hostRead 0x00008).getLsbD i = (s.hostRead 0x00008).getLsbD i) ∧
    ((tick P s).hostRead 0x00008).getLsbD 0 = true ∧
    ((∀ a rest, s.events ≠ .bus a :: rest) → (tick P s).hostRead 0x00008 = s.hostRead 0x00008 ∧
      (tick P s).hostRead 0x00024 = s.hostRead 0x00024 ∧ (tick P s).irqO = s.irqO)) ∧
  ∀ (P : Params) (s : State) (w : Word) (more : List Event) (n : Nat), s.Inv P → s.seq = .idle →
    s.events = .bus (.write .w32 0x00004 w) :: more → .reset ∉ more →
    (∀ k, k ≤ n → ((tick P)^[k + 1] s).seq ≠ .idle) →
    ∀ off : Nat, off % 4 = 0 → off ≠ 0x00008 → off ≠ 0x00024 →
      ((tick P)^[n + 1] s).hostRead off = (tick P s).hostRead off

/-- ENCRYPT and DECRYPT: the result depends on the instance, IN_LEN, IN[0..IN_LEN), BUF_BYTES and the inputs alone.
(10_state.md section 6, 42_encrypt.md, 43_decrypt.md) -/
def Obligations.ResultDependsOnlyOnOperands : Prop :=
  ∀ (i : Instr) (s t s' t' : State), i ≠ .create → s.Inv Config.machine → t.Inv Config.machine →
    s.seq = .idle → t.seq = .idle → s.inst = t.inst → s.inLen = t.inLen → s.bufBytes = t.bufBytes → s.events = t.events →
    (∀ a, a < s.inLen.toNat → Memory.readByte s.inBuf a = Memory.readByte t.inBuf a) →
    exec i s = .next s' → exec i t = .next t' →
    s'.seq = t'.seq ∧ s'.done = t'.done ∧ s'.error = t'.error ∧ s'.errCode = t'.errCode ∧ s'.outBuf = t'.outBuf ∧
      s'.outLen = t'.outLen ∧ s'.ctx = t'.ctx ∧ s'.events = t'.events ∧
      ∃ msgs, s'.portLog = s.portLog ++ msgs ∧ t'.portLog = t.portLog ++ msgs

/-- No command changes IN, IN_LEN, KEY_STAGE, KEY_LEN, IV_SIZE, IRQ_EN or BUF_BYTES; ENCRYPT and DECRYPT nor the
instance. (10_state.md section 6, 60_exceptions.md section 2) -/
def Obligations.CommandFrame : Prop :=
  ∀ (i : Instr) (s t : State), exec i s = .next t →
    (∀ a, Memory.readByte t.inBuf a = Memory.readByte s.inBuf a) ∧ t.inBuf = s.inBuf ∧ t.inLen = s.inLen ∧
    t.keyStage = s.keyStage ∧ t.keyLen = s.keyLen ∧ t.ivSize = s.ivSize ∧ t.irqEn = s.irqEn ∧
    t.bufBytes = s.bufBytes ∧ t.resp = s.resp ∧ (s.seq = .idle → t.overrun = s.overrun) ∧
    (i ≠ .create → t.inst = s.inst) ∧ (i = .create → t.portLog = s.portLog)

/-- In OUT a command stores only to its result bytes; every other OUT byte is 0 from acceptance on. (10_state.md
section 3, 42_encrypt.md, 43_decrypt.md) -/
def Obligations.OutputFrame : Prop :=
  ∀ (i : Instr) (s t : State), s.Inv Config.machine → s.seq = .idle → exec i s = .next t →
    ∀ a, (match i with
      | .create => 0
      | .encrypt => s.inst.ivSize.toNat + s.inLen.toNat
      | .decrypt => s.inLen.toNat - s.inst.ivSize.toNat) ≤ a → Memory.readByte t.outBuf a = 0

/-- A completed command's port messages: none, or rng (ENCRYPT only), eng_init, C_0, C_1, … in order, one eng_release.
(20_memory.md section 5, 20_memory.md section 6) -/
def Obligations.PortTrafficOfACommand : Prop :=
  ∀ (i : Instr) (s t : State), s.Inv Config.machine → s.seq = .idle → exec i s = .next t → t.seq = .idle →
    ∃ msgs, t.portLog = s.portLog ++ msgs ∧ CommandTraffic Config.machine i s.inst (blocks s.inLen.toNat) msgs

/-- A command takes at most NBLK + 5 of the coming inputs, and stops only in IDLE or at an input that is not its own.
(70_reset_and_hazards.md section 4) -/
def Obligations.CommandTakesBoundedSteps : Prop :=
  ∀ (i : Instr) (s t : State), s.seq = .idle → exec i s = .next t →
    ∃ used, s.events = used ++ t.events ∧
      used.length ≤ (match i with
        | .create => 0
        | .encrypt => (s.inLen.toNat + 15) / 16
        | .decrypt => (s.inLen.toNat - s.inst.ivSize.toNat + 15) / 16) + 5 ∧
      (∀ e ∈ used, e = .internal ∨ (∃ b, e = .rng b) ∨ ∃ a, e = .eng a) ∧
      (t.seq ≠ .idle →
        (∀ e more, t.events = e :: more → enabled t.seq e = false) ∧
        (t.events = [] → t.seq = .rngWait ∨ t.seq = .initWait ∨ t.seq = .blkWait))

/-- In a wait nothing moves without the awaited answer: no timeout, no fault, only a reset leaves it otherwise.
(60_exceptions.md section 5) -/
def Obligations.WaitingChangesNothing : Prop :=
  ∀ s : State, (s.seq = .rngWait ∨ s.seq = .initWait ∨ s.seq = .blkWait) →
    (s.events = [] → step s = .next s) ∧
    ∀ (P : Params) (e : Event) (more : List Event), s.events = e :: more → e ≠ .reset →
      (∀ b, e = .rng b → s.seq ≠ .rngWait) → (∀ a, e = .eng a → s.seq = .rngWait) →
      (tick P s).seq = s.seq ∧ (tick P s).ctx = s.ctx ∧ ((tick P s).done = true → s.done = true) ∧
        (tick P s).outBuf = s.outBuf ∧ (tick P s).portLog = s.portLog

/-- A reset in any phase gives every element its reset value, sends nothing, and later answers are ignored whenever
they come. (70_reset_and_hazards.md section 1, notes/assumptions/12.md, notes/assumptions/13.md) -/
def Obligations.ResetAbandonsTheCommand : Prop :=
  (∀ (P : Params) (s : State) (more : List Event), s.events = .reset :: more →
    tick P s =
      { seq := .rstClr, done := false, error := false, overrun := false, errCode := none, keyLen := 0, ivSize := 0,
        inLen := 0, outLen := 0, irqEn := false, keyStage := KeyBytes.zero, inBuf := [], outBuf := [],
        inst := ⟨false, KeyBytes.zero, 0, 0, .v128⟩,
        ctx := ⟨.illegal, 0, 0, 0, 0, 0, Block.zero, Block.zero, Block.zero, 0, false, none⟩,
        bufBytes := s.bufBytes, events := more, resp := none, portLog := s.portLog }) ∧
  (∀ (P : Params) (s : State) (e : Event) (more : List Event), s.events = e :: more →
    e = .stale ∨ ((∃ b, e = .rng b) ∧ s.seq ≠ .rngWait) ∨ ((∃ a, e = .eng a) ∧ s.seq ≠ .initWait ∧ s.seq ≠ .blkWait) →
    tick P s = { s with events := more }) ∧
  ∀ (P : Params) (s : State) (rest : List Event), s.seq = .rstClr → s.Turn rest →
    tick P s = { s with seq := .idle, events := rest }

/-- After reset and its clearing step the host reads the reset values, and ENCRYPT and DECRYPT fail with NoInstance.
(70_reset_and_hazards.md section 1, notes/assumptions/1.md, notes/assumptions/3.md) -/
def Obligations.HostViewAfterReset : Prop :=
  ∃ s : State, step State.reset = .next s ∧ s.seq = .idle ∧ step s = .next s ∧ s.irqO = false ∧
    (∀ off ∈ ([0x00008, 0x0000C, 0x00010, 0x00014, 0x00018, 0x0001C, 0x00020, 0x00024] : List Nat), s.hostRead off = 0) ∧
    s.hostRead 0x00000 = 0x43545201 ∧
    ∀ w : Word, w = 2 ∨ w = 3 → ∃ t, step { s with events := [.bus (.write .w32 0x00004 w)] } = .next t ∧
      t.seq = .idle ∧ t.done = true ∧ t.errCode = some .noInstance

/-- The state after reset meets the invariant, for every block function and counter increment.
(70_reset_and_hazards.md section 1, 10_state.md section 4) -/
def Obligations.ResetMeetsTheInvariant : Prop :=
  ∀ P : Params, State.reset.Inv P

/-- Every single step of any agent keeps the invariant, for every block function and counter increment. (10_state.md
section 4, 10_state.md section 5, 41_datapath.md section 3) -/
def Obligations.EverySingleStepKeepsTheInvariant : Prop :=
  ∀ (P : Params) (s : State), s.Inv P → (tick P s).Inv P

/-- Every step of the machine keeps the invariant. (10_state.md section 4, 10_state.md section 5) -/
def Obligations.EveryStepKeepsTheInvariant : Prop :=
  ∀ s t : State, s.Inv Config.machine → step s = .next t → t.Inv Config.machine

/-- A step never stops and is a sequence of single steps: a command run at one go is its acceptance and its phases.
(20_memory.md section 3, 60_exceptions.md section 1, notes/assumptions/2.md) -/
def Obligations.StepIsASequenceOfSingleSteps : Prop :=
  ∀ s : State, ∃ (k : Nat) (t : State), step s = .next t ∧ (tick Config.machine)^[k] s = t ∧ 1 ≤ k ∧
    k ≤ s.events.length + 4

/-- The CHECK step of an illegal word goes to ABORT; CREATE's checks key length, then IV size, then writes the
instance and completes in that turn (log 16). (40_create.md, 30_encoding.md section 3, 20_memory.md section 3,
notes/assumptions/16.md) -/
def Obligations.CheckStepOfCreateAndIllegal : Prop :=
  ∀ (P : Params) (s : State) (rest : List Event), s.seq = .check → s.Turn rest →
    (s.ctx.opc = .illegal → tick P s =
      { s with seq := .abort, events := rest, ctx := { s.ctx with code := some .illegalCommand } }) ∧
    (s.ctx.opc = .create →
      (s.keyLen ≠ 16 → s.keyLen ≠ 32 → tick P s =
        { s with seq := .abort, events := rest, ctx := { s.ctx with code := some .invalidKeySize } }) ∧
      (s.keyLen = 16 ∨ s.keyLen = 32 → s.ivSize.toNat < 12 ∨ 16 < s.ivSize.toNat → tick P s =
        { s with seq := .abort, events := rest, ctx := { s.ctx with code := some .invalidIvSize } }) ∧
      (s.keyLen = 16 ∨ s.keyLen = 32 → 12 ≤ s.ivSize.toNat → s.ivSize.toNat ≤ 16 →
        ∃ c : CipherInst, checkStep s = { s with inst := c, seq := .commit } ∧
          tick P s = { s with
            inst := c, portLog := s.portLog ++ (if s.ctx.initIssued then [.engRelease] else []),
            errCode := none, error := false, ctx := Context.zero, seq := .idle, done := true, events := rest } ∧
          c.valid = true ∧ c.keyLen.toNat = s.keyLen.toNat ∧ c.ivSize.toNat = s.ivSize.toNat ∧
          c.variant = (if s.keyLen = 16 then .v128 else .v256) ∧
          ∀ i : Fin 32, c.key[i] = if i.val < s.keyLen.toNat then s.keyStage[i] else 0))

/-- The CHECK step of ENCRYPT: NoInstance, then LengthOverflow, else it sends the one rng request and waits.
(42_encrypt.md, 10_state.md section 5) -/
def Obligations.CheckStepOfEncrypt : Prop :=
  ∀ (P : Params) (s : State) (rest : List Event), s.seq = .check → s.ctx.opc = .encrypt → s.Turn rest →
    (s.inst.valid = false → tick P s =
      { s with seq := .abort, events := rest, ctx := { s.ctx with code := some .noInstance } }) ∧
    (s.inst.valid = true → s.bufBytes < s.inLen.toNat + s.inst.ivSize.toNat → tick P s =
      { s with seq := .abort, events := rest, ctx := { s.ctx with code := some .lengthOverflow } }) ∧
    (s.inst.valid = true → s.inLen.toNat + s.inst.ivSize.toNat ≤ s.bufBytes → tick P s =
      { s with
        seq := .rngWait, events := rest, portLog := s.portLog ++ [.rng s.inst.ivSize.toNat],
        ctx := { s.ctx with
          n := s.inLen.toNat, src := 0, dst := s.inst.ivSize.toNat, nblk := (s.inLen.toNat + 15) / 16, j := 0,
          ksCount := 0 } })

/-- The CHECK step of DECRYPT: NoInstance, then LengthOverflow, then CiphertextTooShort, else the IV is read and
eng_init sent. (43_decrypt.md, 10_state.md section 5, 41_datapath.md section 1) -/
def Obligations.CheckStepOfDecrypt : Prop :=
  ∀ (P : Params) (s : State) (rest : List Event), s.seq = .check → s.ctx.opc = .decrypt → s.Turn rest →
    (s.inst.valid = false → tick P s =
      { s with seq := .abort, events := rest, ctx := { s.ctx with code := some .noInstance } }) ∧
    (s.inst.valid = true → s.bufBytes < s.inLen.toNat → tick P s =
      { s with seq := .abort, events := rest, ctx := { s.ctx with code := some .lengthOverflow } }) ∧
    (s.inst.valid = true → s.inLen.toNat ≤ s.bufBytes → s.inLen.toNat < s.inst.ivSize.toNat → tick P s =
      { s with seq := .abort, events := rest, ctx := { s.ctx with code := some .ciphertextTooShort } }) ∧
    (s.inst.valid = true → s.inLen.toNat ≤ s.bufBytes → s.inst.ivSize.toNat ≤ s.inLen.toNat → ∃ iv : Block,
      tick P s =
        { s with
          seq := .initWait, events := rest,
          portLog := s.portLog ++ [.engInit s.inst.variant (s.inst.key.toList.take s.inst.keyLen.toNat)],
          ctx := { s.ctx with
            ivReg := iv, ctr := iv, n := s.inLen.toNat - s.inst.ivSize.toNat, src := s.inst.ivSize.toNat, dst := 0,
            nblk := (s.inLen.toNat - s.inst.ivSize.toNat + 15) / 16, j := 0, ksCount := 0, initIssued := true } } ∧
      ∀ i : Fin 16, iv[i] = if i.val < s.inst.ivSize.toNat then Memory.readByte s.inBuf i.val else 0)

/-- A POLL repeats its read until the value matches; WAITDONE, WAITIDLE, LDKEY and LDIN at any length; lines past the
map (log 27). (30_encoding.md section 5, 10_state.md section 2, 20_memory.md section 2, notes/assumptions/27.md) -/
def Obligations.HostProgramTransactions : Prop :=
  (∀ (off : Nat) (mask val v : Word) (vs ws : List Word) (p : List HostLine), (∀ u ∈ vs, u &&& mask ≠ val) →
    transactions vs (.poll off mask val :: p) = List.replicate vs.length (.read .w32 off) ∧
    (v &&& mask = val → transactions (vs ++ v :: ws) (.poll off mask val :: p) =
      List.replicate (vs.length + 1) (.read .w32 off) ++ transactions ws p)) ∧
  (∀ (P : Params) (s : State) (p : List HostLine),
    (hostRun P [.host] (expandPseudo .waitDone ++ p) s).left = (if s.done then p else expandPseudo .waitDone ++ p) ∧
    (hostRun P [.host] (expandPseudo .waitIdle ++ p) s).left =
      (if s.seq = .idle then p else expandPseudo .waitIdle ++ p) ∧
    (hostRun P [.host] (expandPseudo .waitIdle ++ p) s).block = { s with resp := some ⟨false, s.hostRead 0x00008⟩ }) ∧
  (∀ (off : Nat) (val : Nat), val < 2 ^ 32 → lineAccess (.wr off val) = .write .w32 off (BitVec.ofNat 32 val)) ∧
  (∀ (P : Params) (s : State) (off : Nat) (val : Nat) (e : Option Word) (p : List HostLine), CapOk s.bufBytes →
    off % 4 = 0 → 2 ^ 18 ≤ off → val < 2 ^ 32 →
    hostRun P [.host] (.rd off e :: p) s =
      ⟨p, [.bus (.read .w32 off)], [0], { s with resp := some ⟨false, 0⟩ }⟩ ∧
    hostRun P [.host] (.wr off val :: p) s =
      ⟨p, [.bus (.write .w32 off (BitVec.ofNat 32 val))], [0], { s with resp := some ⟨false, 0⟩ }⟩) ∧
  (∀ b : List Byte, ∃ ws : List Word, ws.length = (b.length + 3) / 4 ∧
    expandPseudo (.ldIn b) = (ws.zipIdx.map fun x => .wr (0x10000 + 4 * x.2) x.1.toNat) ++ [.wr 0x00018 b.length] ∧
    ∀ (k l : Nat) (h : k < ws.length), l < 4 → ws[k].extractLsb' (8 * l) 8 = b.getD (4 * k + l) 0) ∧
  ∀ (b : List Byte) (len : Word), ∃ ws : List Word, ws.length = min ((len.toNat + 3) / 4) 8 ∧
    (expandPseudo (.ldKey b len)) =
      (ws.zipIdx.map fun x => .wr (0x40 + 4 * x.2) x.1.toNat) ++ [.wr 0x00010 len.toNat] ∧
    ∀ (k l : Nat) (h : k < ws.length), l < 4 → ws[k].extractLsb' (8 * l) 8 = b.getD (4 * k + l) 0

/-- Running a host program beside the other agents is single steps on the inputs it took, each POLL repeated by the
block's own answers. (20_memory.md section 3, 30_encoding.md section 5, notes/assumptions/22.md) -/
def Obligations.HostProgramRunsAsInputs : Prop :=
  (∀ (P : Params) (p : List HostLine) (s : State), hostRun P [] p s = ⟨p, [], [], s⟩ ∧
    ∀ (order : List Slot) (x : Slot), hostRun P (order ++ [x]) p s = (hostRun P order p s).move P x) ∧
  (∀ (P : Params) (r : HostRun),
    (r.left = [] → r.move P .host = r) ∧
    (∀ (l : HostLine) (q : List HostLine), r.left = l :: q → ∃ (err : Bool) (d : Word),
      (r.block.hostAccess (lineAccess l)).resp = some ⟨err, d⟩ ∧
      r.move P .host =
        { left := match l with
            | .wr _ _ => q
            | .rd _ _ => q
            | .poll off mask val => if d &&& mask = val then q else .poll off mask val :: q
          taken := r.taken ++ [.bus (lineAccess l)]
          answered := r.answered ++ [d]
          block := r.block.hostAccess (lineAccess l) }) ∧
    ∀ e : Event, r.move P (.other e) = { r with taken := r.taken ++ [e], block := deliver P e r.block }) ∧
  ∀ (P : Params) (order : List Slot) (p : List HostLine) (s : State),
    (∀ more, (tick P)^[(hostRun P order p s).taken.length] { s with events := (hostRun P order p s).taken ++ more } =
      { (hostRun P order p s).block with events := more }) ∧
    (∃ done, p = done ++ (hostRun P order p s).left) ∧
    ((∀ a, .other (.bus a) ∉ order) →
      transactions (hostRun P order p s).answered p = (hostRun P order p s).taken.filterMap fun
        | .bus a => some a
        | _ => none)
end

