-- ==== Sys2Proof/Laws/State.lean ====
section
/-! SUPPORT. One lemma per field per update of the state, so that no proof unfolds a record update (the operations of
Sys2Proof/Machine/Flags.lean, Ops.lean, Datapath.lean and Encrypt.lean). -/

namespace Sys2Proof.Machine

variable (s : State)

/-! ## send -/

@[simp] theorem State.send_seq (m : PortMsg) : (s.send m).seq = s.seq := rfl
@[simp] theorem State.send_done (m : PortMsg) : (s.send m).done = s.done := rfl
@[simp] theorem State.send_error (m : PortMsg) : (s.send m).error = s.error := rfl
@[simp] theorem State.send_overrun (m : PortMsg) : (s.send m).overrun = s.overrun := rfl
@[simp] theorem State.send_errCode (m : PortMsg) : (s.send m).errCode = s.errCode := rfl
@[simp] theorem State.send_keyLen (m : PortMsg) : (s.send m).keyLen = s.keyLen := rfl
@[simp] theorem State.send_ivSize (m : PortMsg) : (s.send m).ivSize = s.ivSize := rfl
@[simp] theorem State.send_inLen (m : PortMsg) : (s.send m).inLen = s.inLen := rfl
@[simp] theorem State.send_outLen (m : PortMsg) : (s.send m).outLen = s.outLen := rfl
@[simp] theorem State.send_irqEn (m : PortMsg) : (s.send m).irqEn = s.irqEn := rfl
@[simp] theorem State.send_keyStage (m : PortMsg) : (s.send m).keyStage = s.keyStage := rfl
@[simp] theorem State.send_inBuf (m : PortMsg) : (s.send m).inBuf = s.inBuf := rfl
@[simp] theorem State.send_outBuf (m : PortMsg) : (s.send m).outBuf = s.outBuf := rfl
@[simp] theorem State.send_inst (m : PortMsg) : (s.send m).inst = s.inst := rfl
@[simp] theorem State.send_ctx (m : PortMsg) : (s.send m).ctx = s.ctx := rfl
@[simp] theorem State.send_bufBytes (m : PortMsg) : (s.send m).bufBytes = s.bufBytes := rfl
@[simp] theorem State.send_events (m : PortMsg) : (s.send m).events = s.events := rfl
@[simp] theorem State.send_resp (m : PortMsg) : (s.send m).resp = s.resp := rfl
@[simp] theorem State.send_portLog (m : PortMsg) : (s.send m).portLog = s.portLog ++ [m] := rfl

/-! ## dropWrite -/

@[simp] theorem State.dropWrite_seq : (s.dropWrite).seq = s.seq := rfl
@[simp] theorem State.dropWrite_done : (s.dropWrite).done = s.done := rfl
@[simp] theorem State.dropWrite_error : (s.dropWrite).error = s.error := rfl
@[simp] theorem State.dropWrite_overrun : (s.dropWrite).overrun = true := rfl
@[simp] theorem State.dropWrite_errCode : (s.dropWrite).errCode = s.errCode := rfl
@[simp] theorem State.dropWrite_keyLen : (s.dropWrite).keyLen = s.keyLen := rfl
@[simp] theorem State.dropWrite_ivSize : (s.dropWrite).ivSize = s.ivSize := rfl
@[simp] theorem State.dropWrite_inLen : (s.dropWrite).inLen = s.inLen := rfl
@[simp] theorem State.dropWrite_outLen : (s.dropWrite).outLen = s.outLen := rfl
@[simp] theorem State.dropWrite_irqEn : (s.dropWrite).irqEn = s.irqEn := rfl
@[simp] theorem State.dropWrite_keyStage : (s.dropWrite).keyStage = s.keyStage := rfl
@[simp] theorem State.dropWrite_inBuf : (s.dropWrite).inBuf = s.inBuf := rfl
@[simp] theorem State.dropWrite_outBuf : (s.dropWrite).outBuf = s.outBuf := rfl
@[simp] theorem State.dropWrite_inst : (s.dropWrite).inst = s.inst := rfl
@[simp] theorem State.dropWrite_ctx : (s.dropWrite).ctx = s.ctx := rfl
@[simp] theorem State.dropWrite_bufBytes : (s.dropWrite).bufBytes = s.bufBytes := rfl
@[simp] theorem State.dropWrite_events : (s.dropWrite).events = s.events := rfl
@[simp] theorem State.dropWrite_resp : (s.dropWrite).resp = s.resp := rfl
@[simp] theorem State.dropWrite_portLog : (s.dropWrite).portLog = s.portLog := rfl

/-! ## writeStatus -/

@[simp] theorem State.writeStatus_seq (v : Word) : (s.writeStatus v).seq = s.seq := rfl
@[simp] theorem State.writeStatus_done (v : Word) : (s.writeStatus v).done = (s.done && !v.getLsbD 1) := rfl
@[simp] theorem State.writeStatus_error (v : Word) : (s.writeStatus v).error = s.error := rfl
@[simp] theorem State.writeStatus_overrun (v : Word) : (s.writeStatus v).overrun = (s.overrun && !v.getLsbD 3) := rfl
@[simp] theorem State.writeStatus_errCode (v : Word) : (s.writeStatus v).errCode = s.errCode := rfl
@[simp] theorem State.writeStatus_keyLen (v : Word) : (s.writeStatus v).keyLen = s.keyLen := rfl
@[simp] theorem State.writeStatus_ivSize (v : Word) : (s.writeStatus v).ivSize = s.ivSize := rfl
@[simp] theorem State.writeStatus_inLen (v : Word) : (s.writeStatus v).inLen = s.inLen := rfl
@[simp] theorem State.writeStatus_outLen (v : Word) : (s.writeStatus v).outLen = s.outLen := rfl
@[simp] theorem State.writeStatus_irqEn (v : Word) : (s.writeStatus v).irqEn = s.irqEn := rfl
@[simp] theorem State.writeStatus_keyStage (v : Word) : (s.writeStatus v).keyStage = s.keyStage := rfl
@[simp] theorem State.writeStatus_inBuf (v : Word) : (s.writeStatus v).inBuf = s.inBuf := rfl
@[simp] theorem State.writeStatus_outBuf (v : Word) : (s.writeStatus v).outBuf = s.outBuf := rfl
@[simp] theorem State.writeStatus_inst (v : Word) : (s.writeStatus v).inst = s.inst := rfl
@[simp] theorem State.writeStatus_ctx (v : Word) : (s.writeStatus v).ctx = s.ctx := rfl
@[simp] theorem State.writeStatus_bufBytes (v : Word) : (s.writeStatus v).bufBytes = s.bufBytes := rfl
@[simp] theorem State.writeStatus_events (v : Word) : (s.writeStatus v).events = s.events := rfl
@[simp] theorem State.writeStatus_resp (v : Word) : (s.writeStatus v).resp = s.resp := rfl
@[simp] theorem State.writeStatus_portLog (v : Word) : (s.writeStatus v).portLog = s.portLog := rfl

/-! ## writeIrqEn -/

@[simp] theorem State.writeIrqEn_seq (v : Word) : (s.writeIrqEn v).seq = s.seq := rfl
@[simp] theorem State.writeIrqEn_done (v : Word) : (s.writeIrqEn v).done = s.done := rfl
@[simp] theorem State.writeIrqEn_error (v : Word) : (s.writeIrqEn v).error = s.error := rfl
@[simp] theorem State.writeIrqEn_overrun (v : Word) : (s.writeIrqEn v).overrun = s.overrun := rfl
@[simp] theorem State.writeIrqEn_errCode (v : Word) : (s.writeIrqEn v).errCode = s.errCode := rfl
@[simp] theorem State.writeIrqEn_keyLen (v : Word) : (s.writeIrqEn v).keyLen = s.keyLen := rfl
@[simp] theorem State.writeIrqEn_ivSize (v : Word) : (s.writeIrqEn v).ivSize = s.ivSize := rfl
@[simp] theorem State.writeIrqEn_inLen (v : Word) : (s.writeIrqEn v).inLen = s.inLen := rfl
@[simp] theorem State.writeIrqEn_outLen (v : Word) : (s.writeIrqEn v).outLen = s.outLen := rfl
@[simp] theorem State.writeIrqEn_irqEn (v : Word) : (s.writeIrqEn v).irqEn = v.getLsbD 0 := rfl
@[simp] theorem State.writeIrqEn_keyStage (v : Word) : (s.writeIrqEn v).keyStage = s.keyStage := rfl
@[simp] theorem State.writeIrqEn_inBuf (v : Word) : (s.writeIrqEn v).inBuf = s.inBuf := rfl
@[simp] theorem State.writeIrqEn_outBuf (v : Word) : (s.writeIrqEn v).outBuf = s.outBuf := rfl
@[simp] theorem State.writeIrqEn_inst (v : Word) : (s.writeIrqEn v).inst = s.inst := rfl
@[simp] theorem State.writeIrqEn_ctx (v : Word) : (s.writeIrqEn v).ctx = s.ctx := rfl
@[simp] theorem State.writeIrqEn_bufBytes (v : Word) : (s.writeIrqEn v).bufBytes = s.bufBytes := rfl
@[simp] theorem State.writeIrqEn_events (v : Word) : (s.writeIrqEn v).events = s.events := rfl
@[simp] theorem State.writeIrqEn_resp (v : Word) : (s.writeIrqEn v).resp = s.resp := rfl
@[simp] theorem State.writeIrqEn_portLog (v : Word) : (s.writeIrqEn v).portLog = s.portLog := rfl

/-! ## zeroizeOut -/

@[simp] theorem State.zeroizeOut_seq : (s.zeroizeOut).seq = s.seq := rfl
@[simp] theorem State.zeroizeOut_done : (s.zeroizeOut).done = s.done := rfl
@[simp] theorem State.zeroizeOut_error : (s.zeroizeOut).error = s.error := rfl
@[simp] theorem State.zeroizeOut_overrun : (s.zeroizeOut).overrun = s.overrun := rfl
@[simp] theorem State.zeroizeOut_errCode : (s.zeroizeOut).errCode = s.errCode := rfl
@[simp] theorem State.zeroizeOut_keyLen : (s.zeroizeOut).keyLen = s.keyLen := rfl
@[simp] theorem State.zeroizeOut_ivSize : (s.zeroizeOut).ivSize = s.ivSize := rfl
@[simp] theorem State.zeroizeOut_inLen : (s.zeroizeOut).inLen = s.inLen := rfl
@[simp] theorem State.zeroizeOut_outLen : (s.zeroizeOut).outLen = 0 := rfl
@[simp] theorem State.zeroizeOut_irqEn : (s.zeroizeOut).irqEn = s.irqEn := rfl
@[simp] theorem State.zeroizeOut_keyStage : (s.zeroizeOut).keyStage = s.keyStage := rfl
@[simp] theorem State.zeroizeOut_inBuf : (s.zeroizeOut).inBuf = s.inBuf := rfl
@[simp] theorem State.zeroizeOut_outBuf : (s.zeroizeOut).outBuf = [] := rfl
@[simp] theorem State.zeroizeOut_inst : (s.zeroizeOut).inst = s.inst := rfl
@[simp] theorem State.zeroizeOut_ctx : (s.zeroizeOut).ctx = s.ctx := rfl
@[simp] theorem State.zeroizeOut_bufBytes : (s.zeroizeOut).bufBytes = s.bufBytes := rfl
@[simp] theorem State.zeroizeOut_events : (s.zeroizeOut).events = s.events := rfl
@[simp] theorem State.zeroizeOut_resp : (s.zeroizeOut).resp = s.resp := rfl
@[simp] theorem State.zeroizeOut_portLog : (s.zeroizeOut).portLog = s.portLog := rfl

/-! ## invalidate -/

@[simp] theorem State.invalidate_seq : (s.invalidate).seq = s.seq := rfl
@[simp] theorem State.invalidate_done : (s.invalidate).done = s.done := rfl
@[simp] theorem State.invalidate_error : (s.invalidate).error = s.error := rfl
@[simp] theorem State.invalidate_overrun : (s.invalidate).overrun = s.overrun := rfl
@[simp] theorem State.invalidate_errCode : (s.invalidate).errCode = s.errCode := rfl
@[simp] theorem State.invalidate_keyLen : (s.invalidate).keyLen = s.keyLen := rfl
@[simp] theorem State.invalidate_ivSize : (s.invalidate).ivSize = s.ivSize := rfl
@[simp] theorem State.invalidate_inLen : (s.invalidate).inLen = s.inLen := rfl
@[simp] theorem State.invalidate_outLen : (s.invalidate).outLen = s.outLen := rfl
@[simp] theorem State.invalidate_irqEn : (s.invalidate).irqEn = s.irqEn := rfl
@[simp] theorem State.invalidate_keyStage : (s.invalidate).keyStage = s.keyStage := rfl
@[simp] theorem State.invalidate_inBuf : (s.invalidate).inBuf = s.inBuf := rfl
@[simp] theorem State.invalidate_outBuf : (s.invalidate).outBuf = s.outBuf := rfl
@[simp] theorem State.invalidate_inst : (s.invalidate).inst = CipherInst.absent := rfl
@[simp] theorem State.invalidate_ctx : (s.invalidate).ctx = s.ctx := rfl
@[simp] theorem State.invalidate_bufBytes : (s.invalidate).bufBytes = s.bufBytes := rfl
@[simp] theorem State.invalidate_events : (s.invalidate).events = s.events := rfl
@[simp] theorem State.invalidate_resp : (s.invalidate).resp = s.resp := rfl
@[simp] theorem State.invalidate_portLog : (s.invalidate).portLog = s.portLog := rfl

/-! ## accept -/

@[simp] theorem State.accept_seq (o : Opc) : (s.accept o).seq = .check := rfl
@[simp] theorem State.accept_done (o : Opc) : (s.accept o).done = false := rfl
@[simp] theorem State.accept_error (o : Opc) : (s.accept o).error = false := rfl
@[simp] theorem State.accept_overrun (o : Opc) : (s.accept o).overrun = s.overrun := rfl
@[simp] theorem State.accept_errCode (o : Opc) : (s.accept o).errCode = none := rfl
@[simp] theorem State.accept_keyLen (o : Opc) : (s.accept o).keyLen = s.keyLen := rfl
@[simp] theorem State.accept_ivSize (o : Opc) : (s.accept o).ivSize = s.ivSize := rfl
@[simp] theorem State.accept_inLen (o : Opc) : (s.accept o).inLen = s.inLen := rfl
@[simp] theorem State.accept_outLen (o : Opc) : (s.accept o).outLen = 0 := rfl
@[simp] theorem State.accept_irqEn (o : Opc) : (s.accept o).irqEn = s.irqEn := rfl
@[simp] theorem State.accept_keyStage (o : Opc) : (s.accept o).keyStage = s.keyStage := rfl
@[simp] theorem State.accept_inBuf (o : Opc) : (s.accept o).inBuf = s.inBuf := rfl
@[simp] theorem State.accept_outBuf (o : Opc) : (s.accept o).outBuf = [] := rfl
@[simp] theorem State.accept_inst (o : Opc) : (s.accept o).inst = s.inst := rfl
@[simp] theorem State.accept_ctx (o : Opc) : (s.accept o).ctx = { Context.zero with opc := o } := rfl
@[simp] theorem State.accept_bufBytes (o : Opc) : (s.accept o).bufBytes = s.bufBytes := rfl
@[simp] theorem State.accept_events (o : Opc) : (s.accept o).events = s.events := rfl
@[simp] theorem State.accept_resp (o : Opc) : (s.accept o).resp = s.resp := rfl
@[simp] theorem State.accept_portLog (o : Opc) : (s.accept o).portLog = s.portLog := rfl

/-! ## raise -/

@[simp] theorem State.raise_seq (k : ErrorKind) : (s.raise k).seq = .abort := rfl
@[simp] theorem State.raise_done (k : ErrorKind) : (s.raise k).done = s.done := rfl
@[simp] theorem State.raise_error (k : ErrorKind) : (s.raise k).error = s.error := rfl
@[simp] theorem State.raise_overrun (k : ErrorKind) : (s.raise k).overrun = s.overrun := rfl
@[simp] theorem State.raise_errCode (k : ErrorKind) : (s.raise k).errCode = s.errCode := rfl
@[simp] theorem State.raise_keyLen (k : ErrorKind) : (s.raise k).keyLen = s.keyLen := rfl
@[simp] theorem State.raise_ivSize (k : ErrorKind) : (s.raise k).ivSize = s.ivSize := rfl
@[simp] theorem State.raise_inLen (k : ErrorKind) : (s.raise k).inLen = s.inLen := rfl
@[simp] theorem State.raise_outLen (k : ErrorKind) : (s.raise k).outLen = s.outLen := rfl
@[simp] theorem State.raise_irqEn (k : ErrorKind) : (s.raise k).irqEn = s.irqEn := rfl
@[simp] theorem State.raise_keyStage (k : ErrorKind) : (s.raise k).keyStage = s.keyStage := rfl
@[simp] theorem State.raise_inBuf (k : ErrorKind) : (s.raise k).inBuf = s.inBuf := rfl
@[simp] theorem State.raise_outBuf (k : ErrorKind) : (s.raise k).outBuf = s.outBuf := rfl
@[simp] theorem State.raise_inst (k : ErrorKind) : (s.raise k).inst = s.inst := rfl
@[simp] theorem State.raise_ctx (k : ErrorKind) : (s.raise k).ctx = { s.ctx with code := some k } := rfl
@[simp] theorem State.raise_bufBytes (k : ErrorKind) : (s.raise k).bufBytes = s.bufBytes := rfl
@[simp] theorem State.raise_events (k : ErrorKind) : (s.raise k).events = s.events := rfl
@[simp] theorem State.raise_resp (k : ErrorKind) : (s.raise k).resp = s.resp := rfl
@[simp] theorem State.raise_portLog (k : ErrorKind) : (s.raise k).portLog = s.portLog := rfl

/-! ## releaseEngine -/

@[simp] theorem State.releaseEngine_seq : (s.releaseEngine).seq = s.seq := by
  unfold State.releaseEngine; split <;> simp [*]
@[simp] theorem State.releaseEngine_done : (s.releaseEngine).done = s.done := by
  unfold State.releaseEngine; split <;> simp [*]
@[simp] theorem State.releaseEngine_error : (s.releaseEngine).error = s.error := by
  unfold State.releaseEngine; split <;> simp [*]
@[simp] theorem State.releaseEngine_overrun : (s.releaseEngine).overrun = s.overrun := by
  unfold State.releaseEngine; split <;> simp [*]
@[simp] theorem State.releaseEngine_errCode : (s.releaseEngine).errCode = s.errCode := by
  unfold State.releaseEngine; split <;> simp [*]
@[simp] theorem State.releaseEngine_keyLen : (s.releaseEngine).keyLen = s.keyLen := by
  unfold State.releaseEngine; split <;> simp [*]
@[simp] theorem State.releaseEngine_ivSize : (s.releaseEngine).ivSize = s.ivSize := by
  unfold State.releaseEngine; split <;> simp [*]
@[simp] theorem State.releaseEngine_inLen : (s.releaseEngine).inLen = s.inLen := by
  unfold State.releaseEngine; split <;> simp [*]
@[simp] theorem State.releaseEngine_outLen : (s.releaseEngine).outLen = s.outLen := by
  unfold State.releaseEngine; split <;> simp [*]
@[simp] theorem State.releaseEngine_irqEn : (s.releaseEngine).irqEn = s.irqEn := by
  unfold State.releaseEngine; split <;> simp [*]
@[simp] theorem State.releaseEngine_keyStage : (s.releaseEngine).keyStage = s.keyStage := by
  unfold State.releaseEngine; split <;> simp [*]
@[simp] theorem State.releaseEngine_inBuf : (s.releaseEngine).inBuf = s.inBuf := by
  unfold State.releaseEngine; split <;> simp [*]
@[simp] theorem State.releaseEngine_outBuf : (s.releaseEngine).outBuf = s.outBuf := by
  unfold State.releaseEngine; split <;> simp [*]
@[simp] theorem State.releaseEngine_inst : (s.releaseEngine).inst = s.inst := by
  unfold State.releaseEngine; split <;> simp [*]
@[simp] theorem State.releaseEngine_ctx : (s.releaseEngine).ctx = s.ctx := by
  unfold State.releaseEngine; split <;> simp [*]
@[simp] theorem State.releaseEngine_bufBytes : (s.releaseEngine).bufBytes = s.bufBytes := by
  unfold State.releaseEngine; split <;> simp [*]
@[simp] theorem State.releaseEngine_events : (s.releaseEngine).events = s.events := by
  unfold State.releaseEngine; split <;> simp [*]
@[simp] theorem State.releaseEngine_resp : (s.releaseEngine).resp = s.resp := by
  unfold State.releaseEngine; split <;> simp [*]
@[simp] theorem State.releaseEngine_portLog : (s.releaseEngine).portLog = s.portLog ++ if s.ctx.initIssued then [.engRelease] else [] := by
  unfold State.releaseEngine; split <;> simp [*]

/-! ## completeStep -/

@[simp] theorem State.completeStep_seq : (s.completeStep).seq = .idle := by simp [State.completeStep]
@[simp] theorem State.completeStep_done : (s.completeStep).done = true := by simp [State.completeStep]
@[simp] theorem State.completeStep_error : (s.completeStep).error = false := by simp [State.completeStep]
@[simp] theorem State.completeStep_overrun : (s.completeStep).overrun = s.overrun := by simp [State.completeStep]
@[simp] theorem State.completeStep_errCode : (s.completeStep).errCode = none := by simp [State.completeStep]
@[simp] theorem State.completeStep_keyLen : (s.completeStep).keyLen = s.keyLen := by simp [State.completeStep]
@[simp] theorem State.completeStep_ivSize : (s.completeStep).ivSize = s.ivSize := by simp [State.completeStep]
@[simp] theorem State.completeStep_inLen : (s.completeStep).inLen = s.inLen := by simp [State.completeStep]
@[simp] theorem State.completeStep_outLen : (s.completeStep).outLen = s.outLen := by simp [State.completeStep]
@[simp] theorem State.completeStep_irqEn : (s.completeStep).irqEn = s.irqEn := by simp [State.completeStep]
@[simp] theorem State.completeStep_keyStage : (s.completeStep).keyStage = s.keyStage := by simp [State.completeStep]
@[simp] theorem State.completeStep_inBuf : (s.completeStep).inBuf = s.inBuf := by simp [State.completeStep]
@[simp] theorem State.completeStep_outBuf : (s.completeStep).outBuf = s.outBuf := by simp [State.completeStep]
@[simp] theorem State.completeStep_inst : (s.completeStep).inst = s.inst := by simp [State.completeStep]
@[simp] theorem State.completeStep_ctx : (s.completeStep).ctx = Context.zero := by simp [State.completeStep]
@[simp] theorem State.completeStep_bufBytes : (s.completeStep).bufBytes = s.bufBytes := by simp [State.completeStep]
@[simp] theorem State.completeStep_events : (s.completeStep).events = s.events := by simp [State.completeStep]
@[simp] theorem State.completeStep_resp : (s.completeStep).resp = s.resp := by simp [State.completeStep]
@[simp] theorem State.completeStep_portLog : (s.completeStep).portLog = s.portLog ++ if s.ctx.initIssued then [.engRelease] else [] := by
  simp [State.completeStep]

/-! ## abortStep -/

@[simp] theorem State.abortStep_seq : (s.abortStep).seq = .idle := rfl
@[simp] theorem State.abortStep_done : (s.abortStep).done = true := rfl
@[simp] theorem State.abortStep_error : (s.abortStep).error = true := rfl
@[simp] theorem State.abortStep_overrun : (s.abortStep).overrun = s.overrun := by
  unfold State.abortStep; split <;> simp [*]
@[simp] theorem State.abortStep_errCode : (s.abortStep).errCode = s.ctx.code := rfl
@[simp] theorem State.abortStep_keyLen : (s.abortStep).keyLen = s.keyLen := by
  unfold State.abortStep; split <;> simp [*]
@[simp] theorem State.abortStep_ivSize : (s.abortStep).ivSize = s.ivSize := by
  unfold State.abortStep; split <;> simp [*]
@[simp] theorem State.abortStep_inLen : (s.abortStep).inLen = s.inLen := by unfold State.abortStep; split <;> simp [*]
@[simp] theorem State.abortStep_outLen : (s.abortStep).outLen = 0 := by unfold State.abortStep; split <;> simp [*]
@[simp] theorem State.abortStep_irqEn : (s.abortStep).irqEn = s.irqEn := by unfold State.abortStep; split <;> simp [*]
@[simp] theorem State.abortStep_keyStage : (s.abortStep).keyStage = s.keyStage := by
  unfold State.abortStep; split <;> simp [*]
@[simp] theorem State.abortStep_inBuf : (s.abortStep).inBuf = s.inBuf := by unfold State.abortStep; split <;> simp [*]
@[simp] theorem State.abortStep_outBuf : (s.abortStep).outBuf = [] := by unfold State.abortStep; split <;> simp [*]
@[simp] theorem State.abortStep_inst : (s.abortStep).inst = if s.ctx.opc = .create then CipherInst.absent else s.inst := by
  unfold State.abortStep; split <;> simp [*]
@[simp] theorem State.abortStep_ctx : (s.abortStep).ctx = Context.zero := rfl
@[simp] theorem State.abortStep_bufBytes : (s.abortStep).bufBytes = s.bufBytes := by
  unfold State.abortStep; split <;> simp [*]
@[simp] theorem State.abortStep_events : (s.abortStep).events = s.events := by
  unfold State.abortStep; split <;> simp [*]
@[simp] theorem State.abortStep_resp : (s.abortStep).resp = s.resp := by unfold State.abortStep; split <;> simp [*]
@[simp] theorem State.abortStep_portLog : (s.abortStep).portLog = s.portLog ++ if s.ctx.initIssued then [.engRelease] else [] := by
  unfold State.abortStep; split <;> simp <;> rfl

/-! ## applyReset -/

@[simp] theorem State.applyReset_seq : (s.applyReset).seq = State.reset.seq := rfl
@[simp] theorem State.applyReset_done : (s.applyReset).done = State.reset.done := rfl
@[simp] theorem State.applyReset_error : (s.applyReset).error = State.reset.error := rfl
@[simp] theorem State.applyReset_overrun : (s.applyReset).overrun = State.reset.overrun := rfl
@[simp] theorem State.applyReset_errCode : (s.applyReset).errCode = State.reset.errCode := rfl
@[simp] theorem State.applyReset_keyLen : (s.applyReset).keyLen = State.reset.keyLen := rfl
@[simp] theorem State.applyReset_ivSize : (s.applyReset).ivSize = State.reset.ivSize := rfl
@[simp] theorem State.applyReset_inLen : (s.applyReset).inLen = State.reset.inLen := rfl
@[simp] theorem State.applyReset_outLen : (s.applyReset).outLen = State.reset.outLen := rfl
@[simp] theorem State.applyReset_irqEn : (s.applyReset).irqEn = State.reset.irqEn := rfl
@[simp] theorem State.applyReset_keyStage : (s.applyReset).keyStage = State.reset.keyStage := rfl
@[simp] theorem State.applyReset_inBuf : (s.applyReset).inBuf = State.reset.inBuf := rfl
@[simp] theorem State.applyReset_outBuf : (s.applyReset).outBuf = State.reset.outBuf := rfl
@[simp] theorem State.applyReset_inst : (s.applyReset).inst = State.reset.inst := rfl
@[simp] theorem State.applyReset_ctx : (s.applyReset).ctx = State.reset.ctx := rfl
@[simp] theorem State.applyReset_bufBytes : (s.applyReset).bufBytes = s.bufBytes := rfl
@[simp] theorem State.applyReset_events : (s.applyReset).events = s.events := rfl
@[simp] theorem State.applyReset_resp : (s.applyReset).resp = State.reset.resp := rfl
@[simp] theorem State.applyReset_portLog : (s.applyReset).portLog = s.portLog := rfl

/-! ## beginStream -/

@[simp] theorem State.beginStream_seq : (s.beginStream).seq = .initWait := rfl
@[simp] theorem State.beginStream_done : (s.beginStream).done = s.done := rfl
@[simp] theorem State.beginStream_error : (s.beginStream).error = s.error := rfl
@[simp] theorem State.beginStream_overrun : (s.beginStream).overrun = s.overrun := rfl
@[simp] theorem State.beginStream_errCode : (s.beginStream).errCode = s.errCode := rfl
@[simp] theorem State.beginStream_keyLen : (s.beginStream).keyLen = s.keyLen := rfl
@[simp] theorem State.beginStream_ivSize : (s.beginStream).ivSize = s.ivSize := rfl
@[simp] theorem State.beginStream_inLen : (s.beginStream).inLen = s.inLen := rfl
@[simp] theorem State.beginStream_outLen : (s.beginStream).outLen = s.outLen := rfl
@[simp] theorem State.beginStream_irqEn : (s.beginStream).irqEn = s.irqEn := rfl
@[simp] theorem State.beginStream_keyStage : (s.beginStream).keyStage = s.keyStage := rfl
@[simp] theorem State.beginStream_inBuf : (s.beginStream).inBuf = s.inBuf := rfl
@[simp] theorem State.beginStream_outBuf : (s.beginStream).outBuf = s.outBuf := rfl
@[simp] theorem State.beginStream_inst : (s.beginStream).inst = s.inst := rfl
@[simp] theorem State.beginStream_ctx : (s.beginStream).ctx = { s.ctx with initIssued := true } := rfl
@[simp] theorem State.beginStream_bufBytes : (s.beginStream).bufBytes = s.bufBytes := rfl
@[simp] theorem State.beginStream_events : (s.beginStream).events = s.events := rfl
@[simp] theorem State.beginStream_resp : (s.beginStream).resp = s.resp := rfl
@[simp] theorem State.beginStream_portLog : (s.beginStream).portLog = s.portLog ++ [.engInit s.inst.variant s.inst.keyBytes] :=
  rfl

/-! ## answerRng -/

@[simp] theorem State.answerRng_seq (b : Block) : (answerRng b s).seq = .initWait := rfl
@[simp] theorem State.answerRng_done (b : Block) : (answerRng b s).done = s.done := rfl
@[simp] theorem State.answerRng_error (b : Block) : (answerRng b s).error = s.error := rfl
@[simp] theorem State.answerRng_overrun (b : Block) : (answerRng b s).overrun = s.overrun := rfl
@[simp] theorem State.answerRng_errCode (b : Block) : (answerRng b s).errCode = s.errCode := rfl
@[simp] theorem State.answerRng_keyLen (b : Block) : (answerRng b s).keyLen = s.keyLen := rfl
@[simp] theorem State.answerRng_ivSize (b : Block) : (answerRng b s).ivSize = s.ivSize := rfl
@[simp] theorem State.answerRng_inLen (b : Block) : (answerRng b s).inLen = s.inLen := rfl
@[simp] theorem State.answerRng_outLen (b : Block) : (answerRng b s).outLen = s.outLen := rfl
@[simp] theorem State.answerRng_irqEn (b : Block) : (answerRng b s).irqEn = s.irqEn := rfl
@[simp] theorem State.answerRng_keyStage (b : Block) : (answerRng b s).keyStage = s.keyStage := rfl
@[simp] theorem State.answerRng_inBuf (b : Block) : (answerRng b s).inBuf = s.inBuf := rfl
@[simp] theorem State.answerRng_outBuf (b : Block) : (answerRng b s).outBuf = s.outBuf := rfl
@[simp] theorem State.answerRng_inst (b : Block) : (answerRng b s).inst = s.inst := rfl
@[simp] theorem State.answerRng_ctx (b : Block) : (answerRng b s).ctx = { s.ctx with ivReg := pad (b.toList.take s.inst.ivBytes), ctr := pad (b.toList.take s.inst.ivBytes), initIssued := true } :=
  rfl
@[simp] theorem State.answerRng_bufBytes (b : Block) : (answerRng b s).bufBytes = s.bufBytes := rfl
@[simp] theorem State.answerRng_events (b : Block) : (answerRng b s).events = s.events := rfl
@[simp] theorem State.answerRng_resp (b : Block) : (answerRng b s).resp = s.resp := rfl
@[simp] theorem State.answerRng_portLog (b : Block) : (answerRng b s).portLog = s.portLog ++ [.engInit s.inst.variant s.inst.keyBytes] :=
  rfl

/-! ## takeBlock -/

@[simp] theorem State.takeBlock_seq (P : Params) (k : Block) : (s.takeBlock P k).seq = s.seq := rfl
@[simp] theorem State.takeBlock_done (P : Params) (k : Block) : (s.takeBlock P k).done = s.done := rfl
@[simp] theorem State.takeBlock_error (P : Params) (k : Block) : (s.takeBlock P k).error = s.error := rfl
@[simp] theorem State.takeBlock_overrun (P : Params) (k : Block) : (s.takeBlock P k).overrun = s.overrun := rfl
@[simp] theorem State.takeBlock_errCode (P : Params) (k : Block) : (s.takeBlock P k).errCode = s.errCode := rfl
@[simp] theorem State.takeBlock_keyLen (P : Params) (k : Block) : (s.takeBlock P k).keyLen = s.keyLen := rfl
@[simp] theorem State.takeBlock_ivSize (P : Params) (k : Block) : (s.takeBlock P k).ivSize = s.ivSize := rfl
@[simp] theorem State.takeBlock_inLen (P : Params) (k : Block) : (s.takeBlock P k).inLen = s.inLen := rfl
@[simp] theorem State.takeBlock_outLen (P : Params) (k : Block) : (s.takeBlock P k).outLen = s.outLen := rfl
@[simp] theorem State.takeBlock_irqEn (P : Params) (k : Block) : (s.takeBlock P k).irqEn = s.irqEn := rfl
@[simp] theorem State.takeBlock_keyStage (P : Params) (k : Block) : (s.takeBlock P k).keyStage = s.keyStage := rfl
@[simp] theorem State.takeBlock_inBuf (P : Params) (k : Block) : (s.takeBlock P k).inBuf = s.inBuf := rfl
@[simp] theorem State.takeBlock_outBuf (P : Params) (k : Block) : (s.takeBlock P k).outBuf = Memory.writeBytes s.outBuf (s.ctx.dst + 16 * s.ctx.j) (xorLanes s.inBuf (s.ctx.src + 16 * s.ctx.j) (liveLanes s.ctx.n s.ctx.j) k) :=
  rfl
@[simp] theorem State.takeBlock_inst (P : Params) (k : Block) : (s.takeBlock P k).inst = s.inst := rfl
@[simp] theorem State.takeBlock_ctx (P : Params) (k : Block) : (s.takeBlock P k).ctx = { s.ctx with ksBuf := k, ksCount := s.ctx.ksCount + liveLanes s.ctx.n s.ctx.j, ctr := P.ctrInc s.ctx.ctr, j := s.ctx.j + 1 } :=
  rfl
@[simp] theorem State.takeBlock_bufBytes (P : Params) (k : Block) : (s.takeBlock P k).bufBytes = s.bufBytes := rfl
@[simp] theorem State.takeBlock_events (P : Params) (k : Block) : (s.takeBlock P k).events = s.events := rfl
@[simp] theorem State.takeBlock_resp (P : Params) (k : Block) : (s.takeBlock P k).resp = s.resp := rfl
@[simp] theorem State.takeBlock_portLog (P : Params) (k : Block) : (s.takeBlock P k).portLog = s.portLog := rfl

end Sys2Proof.Machine
end

