-- ==== Sys2Proof/Laws/HostPort.lean ====
section
/-! SUPPORT. The laws of the host port: the address map target by target (R61, R66, R67), and what an access does to each
part of the state (R65, R232). -/

namespace Sys2Proof.Machine

variable {s : State} {n a : Nat}

/-! ## The address map -/

theorem ite_eq_cases {α : Type} {c : Prop} [Decidable c] {x y z : α} (h : (if c then x else y) = z) :
    c ∧ x = z ∨ ¬ c ∧ y = z := by
  by_cases hc : c
  · exact .inl ⟨hc, by rwa [if_pos hc] at h⟩
  · exact .inr ⟨hc, by rwa [if_neg hc] at h⟩

theorem targetOf_key (h : 0x40 ≤ a) (h' : a ≤ 0x5C) : targetOf n a = .key ((a - 0x40) / 4) := by
  unfold targetOf
  iterate 11 rw [if_neg (by omega)]
  rw [if_pos ⟨h, h'⟩]

theorem targetOf_inBuf (h : 0x10000 ≤ a) (h' : a < 0x10000 + n) : targetOf n a = .inBuf (a - 0x10000) := by
  unfold targetOf
  iterate 12 rw [if_neg (by omega)]
  rw [if_pos ⟨h, h'⟩]

theorem targetOf_outBuf (hn : n ≤ 65536) (h : 0x20000 ≤ a) (h' : a < 0x20000 + n) :
    targetOf n a = .outBuf (a - 0x20000) := by
  unfold targetOf
  iterate 13 rw [if_neg (by omega)]
  rw [if_pos ⟨h, h'⟩]

theorem targetOf_reserved (h4 : a % 4 = 0)
    (h : (0x2C ≤ a ∧ a < 0x40) ∨ (0x60 ≤ a ∧ a < 0x10000) ∨ (0x10000 + n ≤ a ∧ a < 0x20000) ∨
      0x20000 + n ≤ a) : targetOf n a = .reserved := by
  unfold targetOf
  by_cases hn : n ≤ 65536
  · iterate 14 rw [if_neg (by omega)]
  · iterate 12 rw [if_neg (by omega)]
    rw [if_neg (by omega), if_neg (by omega)]

theorem targetOf_inBuf_inv {o : Nat} (h : targetOf n a = .inBuf o) : 0x10000 ≤ a ∧ a < 0x10000 + n ∧ o = a - 0x10000 := by
  unfold targetOf at h
  iterate 12 (obtain ⟨-, h⟩ | ⟨-, h⟩ := ite_eq_cases h; · cases h)
  obtain ⟨hc, h⟩ | ⟨-, h⟩ := ite_eq_cases h
  · exact ⟨hc.1, hc.2, (Target.inBuf.inj h).symm⟩
  · obtain ⟨-, h⟩ | ⟨-, h⟩ := ite_eq_cases h <;> cases h

theorem targetOf_key_inv {k : Nat} (h : targetOf n a = .key k) : 0x40 ≤ a ∧ a ≤ 0x5C ∧ k = (a - 0x40) / 4 := by
  unfold targetOf at h
  iterate 11 (obtain ⟨-, h⟩ | ⟨-, h⟩ := ite_eq_cases h; · cases h)
  obtain ⟨hc, h⟩ | ⟨-, h⟩ := ite_eq_cases h
  · exact ⟨hc.1, hc.2, (Target.key.inj h).symm⟩
  · iterate 2 (obtain ⟨-, h⟩ | ⟨-, h⟩ := ite_eq_cases h; · cases h)
    cases h

theorem targetOf_cmd_inv (h : targetOf n a = .cmd) : a = 4 := by
  unfold targetOf at h
  obtain ⟨-, h⟩ | ⟨-, h⟩ := ite_eq_cases h; · cases h
  obtain ⟨h', h⟩ | ⟨-, h⟩ := ite_eq_cases h; · exact h'
  iterate 12 (obtain ⟨-, h⟩ | ⟨-, h⟩ := ite_eq_cases h; · cases h)
  cases h

theorem targetOf_status_inv (h : targetOf n a = .status) : a = 8 := by
  unfold targetOf at h
  iterate 2 (obtain ⟨-, h⟩ | ⟨-, h⟩ := ite_eq_cases h; · cases h)
  obtain ⟨h', h⟩ | ⟨-, h⟩ := ite_eq_cases h; · exact h'
  iterate 11 (obtain ⟨-, h⟩ | ⟨-, h⟩ := ite_eq_cases h; · cases h)
  cases h

theorem targetOf_inst_inv (h : targetOf n a = .inst) : a = 32 := by
  unfold targetOf at h
  iterate 8 (obtain ⟨-, h⟩ | ⟨-, h⟩ := ite_eq_cases h; · cases h)
  obtain ⟨h', h⟩ | ⟨-, h⟩ := ite_eq_cases h; · exact h'
  iterate 5 (obtain ⟨-, h⟩ | ⟨-, h⟩ := ite_eq_cases h; · cases h)
  cases h

theorem targetOf_irqEn_inv (h : targetOf n a = .irqEn) : a = 36 := by
  unfold targetOf at h
  iterate 9 (obtain ⟨-, h⟩ | ⟨-, h⟩ := ite_eq_cases h; · cases h)
  obtain ⟨h', h⟩ | ⟨-, h⟩ := ite_eq_cases h; · exact h'
  iterate 4 (obtain ⟨-, h⟩ | ⟨-, h⟩ := ite_eq_cases h; · cases h)
  cases h

/-- An offset that names no register word lies in KEY, IN, OUT or nowhere. -/
theorem targetOf_beyond {off : Nat} (h0 : off ≠ 0x00000) (h1 : off ≠ 0x00004) (h2 : off ≠ 0x00008) (h3 : off ≠ 0x0000C)
    (h4 : off ≠ 0x00010) (h5 : off ≠ 0x00014) (h6 : off ≠ 0x00018) (h7 : off ≠ 0x0001C) (h8 : off ≠ 0x00020)
    (h9 : off ≠ 0x00024) (h10 : off ≠ 0x00028) :
    targetOf n off =
      if 0x00040 ≤ off ∧ off ≤ 0x0005C then .key ((off - 0x40) / 4)
      else if 0x10000 ≤ off ∧ off < 0x10000 + n then .inBuf (off - 0x10000)
      else if 0x20000 ≤ off ∧ off < 0x20000 + n then .outBuf (off - 0x20000)
      else .reserved := by
  unfold targetOf
  rw [if_neg h0, if_neg h1, if_neg h2, if_neg h3, if_neg h4, if_neg h5, if_neg h6, if_neg h7, if_neg h8, if_neg h9, if_neg h10]

/-! ## The read map (R64) -/

theorem hostRead_reserved {off : Nat} (h : targetOf s.bufBytes off = .reserved) : s.hostRead off = 0 := by
  simp only [State.hostRead, h]

theorem hostRead_outBuf {off : Nat} {o : Nat} (h : targetOf s.bufBytes off = .outBuf o) :
    s.hostRead off = if s.busy then 0 else Memory.readWord s.outBuf o := by
  simp only [State.hostRead, h]

theorem hostRead_inBuf {off : Nat} {o : Nat} (h : targetOf s.bufBytes off = .inBuf o) :
    s.hostRead off = Memory.readWord s.inBuf o := by
  simp only [State.hostRead, h]

theorem hostRead_key {off : Nat} {k : Nat} (h : targetOf s.bufBytes off = .key k) : s.hostRead off = 0 := by
  simp only [State.hostRead, h]

theorem hostRead_inst (s : State) : s.hostRead 0x00020 = s.inst.view := rfl

/-! ## An access (R62, R232) -/

theorem hostAccess_read {off : Nat} (h : off % 4 = 0) :
    s.hostAccess (.read .w32 off) = { s with resp := some ⟨false, s.hostRead off⟩ } := by
  simp [State.hostAccess, Access.wf, Access.sizeOk, Access.aligned, h]

theorem hostAccess_write {off : Nat} {v : Word} (h : off % 4 = 0) :
    s.hostAccess (.write .w32 off v) = { s.hostWrite off v with resp := some ⟨false, 0⟩ } := by
  simp [State.hostAccess, Access.wf, Access.sizeOk, Access.aligned, h, Response.ordinary]

theorem hostAccess_error {a : Access} (h : ¬ (a.sizeOk = true ∧ a.aligned = true)) :
    s.hostAccess a = { s with resp := some ⟨true, 0⟩ } := by
  unfold State.hostAccess
  rw [if_neg (by simpa [Access.wf] using h), Response.busError]

theorem staged_busy (h : s.seq ≠ .idle) (t : State) : s.staged t = s.dropWrite := by
  simp [State.staged, State.busy, h]

theorem staged_idle (h : s.seq = .idle) (t : State) : s.staged t = t := by
  simp [State.staged, State.busy, h]

/-- An access neither reads nor writes the inputs to come. -/
theorem hostWrite_events (off : Nat) (v : Word) (s : State) (es : List Event) :
    State.hostWrite off v { s with events := es } = { s.hostWrite off v with events := es } := by
  unfold State.hostWrite
  by_cases hs : s.seq = .idle
  · simp only [staged_idle hs, staged_idle (s := { s with events := es }) hs]
    cases targetOf s.bufBytes off <;> rfl
  · simp only [staged_busy hs, staged_busy (s := { s with events := es }) hs]
    cases targetOf s.bufBytes off <;> rfl

theorem hostAccess_events (a : Access) (s : State) (es : List Event) :
    State.hostAccess a { s with events := es } = { s.hostAccess a with events := es } := by
  unfold State.hostAccess
  split
  · cases a with
    | read sz off => rfl
    | write sz off v => simp only [hostWrite_events]
  · rfl

end Sys2Proof.Machine
end

