-- ==== Sys2Proof/Laws/Memory.lean ====
section
/-! SUPPORT. The laws of the byte memory and of the bus lanes: read after write, the canonical form kept, equal bytes mean
equal memories. -/

namespace Sys2Proof

/-! ## Byte lanes (R63) -/

theorem wordOfLanes_byteLane (v : Word) : wordOfLanes (byteLane v 0) (byteLane v 1) (byteLane v 2) (byteLane v 3) = v := by
  apply BitVec.eq_of_getLsbD_eq
  intro i hi
  simp only [wordOfLanes, byteLane, BitVec.getLsbD_append, BitVec.getLsbD_extractLsb']
  split
  · simp [*]
  · split
    · simp [*, show 8 + (i - 8) = i by omega]
    · split
      · simp [*, show 16 + (i - 8 - 8) = i by omega]
      · simp [*, show 24 + (i - 8 - 8 - 8) = i by omega, show i - 8 - 8 - 8 < 8 by omega]

theorem byteLane_wordOfLanes (b0 b1 b2 b3 : Byte) :
    byteLane (wordOfLanes b0 b1 b2 b3) 0 = b0 ∧ byteLane (wordOfLanes b0 b1 b2 b3) 1 = b1 ∧
      byteLane (wordOfLanes b0 b1 b2 b3) 2 = b2 ∧ byteLane (wordOfLanes b0 b1 b2 b3) 3 = b3 := by
  refine ⟨?_, ?_, ?_, ?_⟩ <;>
    (ext i hi
     simp only [wordOfLanes, byteLane, BitVec.getElem_extractLsb', BitVec.getLsbD_append])
  · simp [hi]
  · simp [show ¬ 8 + i < 8 by omega, hi]
  · simp [show ¬ 16 + i < 8 by omega, show 16 + i - 8 = 8 + i by omega, show ¬ 8 + i < 8 by omega, hi]
  · simp [show ¬ 24 + i < 8 by omega, show 24 + i - 8 = 16 + i by omega, show ¬ 16 + i < 8 by omega,
      show 16 + i - 8 = 8 + i by omega, show ¬ 8 + i < 8 by omega, hi]

@[simp] theorem wordBytes_length (v : Word) : (wordBytes v).length = 4 := rfl

end Sys2Proof

namespace Sys2Proof.Machine

/-! ## One byte -/

@[simp] theorem Memory.wf_nil : Memory.wf [] := ⟨List.Pairwise.nil, by simp⟩

@[simp] theorem Memory.readByte_nil (a : Nat) : Memory.readByte [] a = 0 := rfl

theorem Memory.wf_tail {c : Host.Cell} {m : Memory} (h : Memory.wf (c :: m)) : Memory.wf m :=
  ⟨(List.pairwise_cons.1 h.1).2, fun x hx => h.2 x (by simp [hx])⟩

theorem Memory.readByte_below {m : Memory} {a : Nat} (h : ∀ c ∈ m, a < c.1) : Memory.readByte m a = 0 := by
  induction m with
  | nil => rfl
  | cons c m ih =>
    have := h c (by simp)
    simp only [Memory.readByte]
    rw [if_neg (by omega)]
    exact ih fun x hx => h x (by simp [hx])

theorem Memory.readByte_beyond {m : Memory} {n : Nat} (h : ∀ c ∈ m, c.1 < n) {a : Nat} (ha : n ≤ a) :
    Memory.readByte m a = 0 := by
  induction m with
  | nil => rfl
  | cons c m ih =>
    have := h c (by simp)
    simp only [Memory.readByte]
    rw [if_neg (by omega)]
    exact ih fun x hx => h x (by simp [hx])

theorem Memory.mem_writeByte {m : Memory} {a : Nat} {b : Byte} {c : Host.Cell} (h : c ∈ Memory.writeByte m a b) :
    c ∈ m ∨ c = (a, b) ∧ b ≠ 0 := by
  induction m with
  | nil =>
    simp only [Memory.writeByte] at h
    split at h <;> simp_all
  | cons d m ih =>
    obtain ⟨k, v⟩ := d
    simp only [Memory.writeByte] at h
    split at h
    · split at h
      · simp_all
      · simp_all; tauto
    · split at h
      · split at h
        · simp_all
        · simp_all; tauto
      · rcases List.mem_cons.1 h with h | h
        · simp [h]
        · rcases ih h with h | h
          · simp [h]
          · exact .inr h

/-- A byte write keeps the canonical form. -/
theorem Memory.wf_writeByte {m : Memory} (h : Memory.wf m) (a : Nat) (b : Byte) : Memory.wf (Memory.writeByte m a b) := by
  refine ⟨?_, fun c hc => ?_⟩
  · induction m with
    | nil => simp only [Memory.writeByte]; split <;> simp
    | cons d m ih =>
      obtain ⟨k, v⟩ := d
      have hp := List.pairwise_cons.1 h.1
      have ht := Memory.wf_tail h
      simp only [Memory.writeByte]
      split
      · split
        · exact h.1
        · refine List.pairwise_cons.2 ⟨fun x hx => ?_, h.1⟩
          rcases List.mem_cons.1 hx with rfl | hx
          · assumption
          · exact Nat.lt_trans ‹_› (hp.1 x hx)
      · split
        · split
          · exact ht.1
          · exact List.pairwise_cons.2 ⟨fun x hx => by have := hp.1 x hx; simp_all, ht.1⟩
        · refine List.pairwise_cons.2 ⟨fun x hx => ?_, ih ht⟩
          rcases Memory.mem_writeByte hx with hx | ⟨rfl, -⟩
          · exact hp.1 x hx
          · simp only; omega
  · rcases Memory.mem_writeByte hc with hc | ⟨rfl, hb⟩
    · exact h.2 c hc
    · exact hb

/-- Read after a byte write. -/
theorem Memory.readByte_writeByte {m : Memory} (h : Memory.wf m) (a : Nat) (b : Byte) (c : Nat) :
    Memory.readByte (Memory.writeByte m a b) c = if c = a then b else Memory.readByte m c := by
  induction m with
  | nil =>
    simp only [Memory.writeByte]
    by_cases hb : b = 0 <;> by_cases hc : c = a
    · simp [hb, hc]
    · simp [hb, hc]
    · rw [if_neg hb]; simp [hc, Memory.readByte]
    · rw [if_neg hb]; simp [hc, Memory.readByte, Ne.symm hc]
  | cons d m ih =>
    obtain ⟨k, v⟩ := d
    have hp := List.pairwise_cons.1 h.1
    have ht := Memory.wf_tail h
    simp only [Memory.writeByte]
    split
    · have hz : Memory.readByte ((k, v) :: m) a = 0 :=
        Memory.readByte_below fun x hx => by
          rcases List.mem_cons.1 hx with rfl | hx
          · assumption
          · exact Nat.lt_trans ‹_› (hp.1 x hx)
      split
      · split
        · subst_vars; exact hz
        · rfl
      · simp only [Memory.readByte]
        by_cases hc : c = a
        · simp [hc]
        · simp [hc, Ne.symm hc]
    · split
      · rename_i hak; subst hak
        have hz : Memory.readByte m a = 0 := Memory.readByte_below hp.1
        split
        · simp only [Memory.readByte]
          by_cases hc : c = a
          · simp_all
          · simp [hc, Ne.symm hc]
        · simp only [Memory.readByte]
          by_cases hc : c = a
          · simp [hc]
          · simp [hc, Ne.symm hc]
      · simp only [Memory.readByte, ih ht]
        by_cases hk : k = c
        · subst hk; rw [if_pos rfl, if_neg (Ne.symm ‹_›), if_pos rfl]
        · simp [hk]

/-! ## Byte sequences -/

theorem Memory.wf_writeBytes {m : Memory} (h : Memory.wf m) (a : Nat) (bs : List Byte) :
    Memory.wf (Memory.writeBytes m a bs) := by
  induction bs generalizing m a with
  | nil => exact h
  | cons b bs ih => exact ih (Memory.wf_writeByte h a b) (a + 1)

/-- Read after writing a byte sequence. -/
theorem Memory.readByte_writeBytes {m : Memory} (h : Memory.wf m) (a : Nat) (bs : List Byte) (c : Nat) :
    Memory.readByte (Memory.writeBytes m a bs) c =
      if a ≤ c ∧ c < a + bs.length then bs.getD (c - a) 0 else Memory.readByte m c := by
  induction bs generalizing m a with
  | nil => simp [Memory.writeBytes]
  | cons b bs ih =>
    simp only [Memory.writeBytes, ih (Memory.wf_writeByte h a b), Memory.readByte_writeByte h, List.length_cons]
    by_cases h1 : c = a
    · subst h1; simp
    · by_cases h2 : a + 1 ≤ c ∧ c < a + 1 + bs.length
      · rw [if_pos h2, if_pos (by omega), show c - a = (c - (a + 1)) + 1 by omega, List.getD_cons_succ]
      · rw [if_neg h2, if_neg h1, if_neg (by omega)]

theorem Memory.mem_writeBytes {m : Memory} {a n : Nat} {bs : List Byte} (hm : ∀ c ∈ m, c.1 < n) (ha : a + bs.length ≤ n) :
    ∀ c ∈ Memory.writeBytes m a bs, c.1 < n := by
  induction bs generalizing m a with
  | nil => exact hm
  | cons b bs ih =>
    simp only [List.length_cons] at ha
    refine ih (fun c hc => ?_) (by omega)
    rcases Memory.mem_writeByte hc with hc | ⟨rfl, -⟩
    · exact hm c hc
    · simp only; omega

theorem Memory.fits_nil (n : Nat) : Memory.Fits [] n := ⟨Memory.wf_nil, by simp⟩

/-- A byte sequence inside the capacity keeps a buffer's form. -/
theorem Memory.fits_writeBytes {m : Memory} {a n : Nat} {bs : List Byte} (hm : Memory.Fits m n) (ha : a + bs.length ≤ n) :
    Memory.Fits (Memory.writeBytes m a bs) n := ⟨Memory.wf_writeBytes hm.1 a bs, Memory.mem_writeBytes hm.2 ha⟩

@[simp] theorem Memory.readBytes_length (m : Memory) (a n : Nat) : (Memory.readBytes m a n).length = n := by
  simp [Memory.readBytes]

theorem Memory.readBytes_getD (m : Memory) (a n i : Nat) (h : i < n) :
    (Memory.readBytes m a n).getD i 0 = Memory.readByte m (a + i) := by
  simp [Memory.readBytes, List.getD, h]

/-! ## Words (R63) -/

theorem Memory.wf_writeWord {m : Memory} (h : Memory.wf m) (a : Nat) (v : Word) : Memory.wf (Memory.writeWord m a v) :=
  Memory.wf_writeBytes h a _

theorem Memory.readWord_writeWord {m : Memory} (h : Memory.wf m) (a : Nat) (v : Word) :
    Memory.readWord (Memory.writeWord m a v) a = v := by
  have hl : (wordBytes v).length = 4 := rfl
  simp only [Memory.readWord, Memory.writeWord, Memory.readByte_writeBytes h]
  rw [if_pos (by omega), if_pos (by omega), if_pos (by omega), if_pos (by omega)]
  simp only [Nat.sub_self, show a + 1 - a = 1 by omega, show a + 2 - a = 2 by omega, show a + 3 - a = 3 by omega]
  exact wordOfLanes_byteLane v

/-! ## Equal bytes, equal memories -/

theorem Memory.readByte_ne_zero {m : Memory} (h : Memory.wf m) {c : Host.Cell} (hc : c ∈ m) :
    Memory.readByte m c.1 = c.2 := by
  induction m with
  | nil => simp at hc
  | cons d m ih =>
    have hp := List.pairwise_cons.1 h.1
    simp only [Memory.readByte]
    rcases List.mem_cons.1 hc with rfl | hc
    · simp
    · rw [if_neg (by have := hp.1 c hc; omega)]
      exact ih (Memory.wf_tail h) hc

/-- The canonical form is unique: memories whose bytes are equal are equal lists. -/
theorem Memory.ext_of_bytes {m m' : Memory} (h : Memory.wf m) (h' : Memory.wf m')
    (hb : ∀ a, Memory.readByte m a = Memory.readByte m' a) : m = m' := by
  induction m generalizing m' with
  | nil =>
    cases m' with
    | nil => rfl
    | cons d m' =>
      have h1 := Memory.readByte_ne_zero h' (c := d) (by simp)
      have h2 := h'.2 d (by simp)
      rw [← hb, Memory.readByte_nil] at h1
      exact absurd h1.symm h2
  | cons c m ih =>
    cases m' with
    | nil =>
      have h1 := Memory.readByte_ne_zero h (c := c) (by simp)
      have h2 := h.2 c (by simp)
      rw [hb, Memory.readByte_nil] at h1
      exact absurd h1.symm h2
    | cons d m' =>
      have hp := List.pairwise_cons.1 h.1
      have hp' := List.pairwise_cons.1 h'.1
      have hk : c.1 = d.1 := by
        rcases Nat.lt_trichotomy c.1 d.1 with hlt | heq | hgt
        · have h1 := Memory.readByte_ne_zero h (c := c) (by simp)
          rw [hb, Memory.readByte_below fun x hx => by
            rcases List.mem_cons.1 hx with rfl | hx
            · exact hlt
            · exact Nat.lt_trans hlt (hp'.1 x hx)] at h1
          exact absurd h1.symm (h.2 c (by simp))
        · exact heq
        · have h1 := Memory.readByte_ne_zero h' (c := d) (by simp)
          rw [← hb, Memory.readByte_below fun x hx => by
            rcases List.mem_cons.1 hx with rfl | hx
            · exact hgt
            · exact Nat.lt_trans hgt (hp.1 x hx)] at h1
          exact absurd h1.symm (h'.2 d (by simp))
      have hv : c = d := by
        have h1 := Memory.readByte_ne_zero h (c := c) (by simp)
        have h2 := Memory.readByte_ne_zero h' (c := d) (by simp)
        rw [hb, hk, h2] at h1
        exact Prod.ext hk h1.symm
      subst hv
      congr 1
      refine ih (Memory.wf_tail h) (Memory.wf_tail h') fun a => ?_
      have := hb a
      simp only [Memory.readByte] at this
      by_cases hac : c.1 = a
      · rw [Memory.readByte_below (m := m) (by subst hac; exact hp.1),
          Memory.readByte_below (m := m') (by subst hac; exact hp'.1)]
      · simpa [hac] using this

end Sys2Proof.Machine
end

