-- ==== Sys2Proof/Laws/Datapath.lean ====
section
/-! SUPPORT. The laws of the counter-mode datapath: big-endian blocks as numbers, the counter sequence, the keystream byte
by byte, and what one keystream block does to OUT. -/

namespace Sys2Proof.Machine

/-! ## Blocks as numbers (R9) -/

/-- Big-endian value of a byte sequence; `be128` is this on a block's bytes. -/
def beNat (l : List Byte) : Nat := l.foldl (fun n b => n * 256 + b.toNat) 0

theorem be128_eq (c : Block) : be128 c = beNat c.toList := rfl

theorem beNat_append (l : List Byte) (b : Byte) : beNat (l ++ [b]) = beNat l * 256 + b.toNat := by
  simp [beNat]

theorem beNat_lt (l : List Byte) : beNat l < 256 ^ l.length := by
  induction l using List.reverseRecOn with
  | nil => simp [beNat]
  | append_singleton l b ih =>
    rw [beNat_append, List.length_append, List.length_singleton, pow_succ]
    have := b.isLt
    omega

/-- A byte of a sequence is a digit of its value. -/
theorem beNat_digit (l : List Byte) (i : Nat) (h : i < l.length) :
    beNat l / 256 ^ (l.length - 1 - i) % 256 = (l[i]).toNat := by
  induction l using List.reverseRecOn generalizing i with
  | nil => simp at h
  | append_singleton l b ih =>
    have hb := b.isLt
    rw [beNat_append]
    simp only [List.length_append, List.length_singleton] at h ⊢
    by_cases hi : i < l.length
    · rw [show l.length + 1 - 1 - i = (l.length - 1 - i) + 1 by omega, pow_succ', ← Nat.div_div_eq_div_mul,
        show (beNat l * 256 + b.toNat) / 256 = beNat l by omega, ih i hi, List.getElem_append_left hi]
    · have : i = l.length := by omega
      subst this
      simp; omega

/-- The value of the digits of a number. -/
theorem beNat_digits (n k : Nat) :
    beNat ((List.range k).map fun i => BitVec.ofNat 8 (n / 256 ^ (k - 1 - i))) = n % 256 ^ k := by
  induction k generalizing n with
  | zero => simp [beNat, Nat.mod_one]
  | succ k ih =>
    rw [List.range_succ, List.map_append, List.map_singleton, beNat_append,
      show (List.range k).map (fun i => BitVec.ofNat 8 (n / 256 ^ (k + 1 - 1 - i))) =
        (List.range k).map fun i => BitVec.ofNat 8 (n / 256 / 256 ^ (k - 1 - i)) from
        List.map_congr_left fun i hi => by
          have := List.mem_range.1 hi
          rw [Nat.div_div_eq_div_mul, ← pow_succ', show k - 1 - i + 1 = k + 1 - 1 - i by omega], ih]
    simp only [Nat.add_sub_cancel, Nat.sub_self, pow_zero, Nat.div_one, BitVec.toNat_ofNat]
    rw [show (256 : Nat) ^ (k + 1) = 256 * 256 ^ k from pow_succ' 256 k, Nat.mod_mul]
    omega

theorem blk128_toList (n : Nat) :
    (blk128 n).toList = (List.range 16).map fun i => BitVec.ofNat 8 (n / 256 ^ (16 - 1 - i)) := by
  apply List.ext_getElem
  · simp
  · intro i h1 h2
    simp [blk128]

theorem be128_blk128 (n : Nat) : be128 (blk128 n) = n % 2 ^ 128 := by
  rw [be128_eq, blk128_toList, beNat_digits]
  norm_num

theorem blk128_be128 (c : Block) : blk128 (be128 c) = c := by
  apply Vector.ext
  intro i hi
  have := beNat_digit c.toList i (by simpa using hi)
  simp only [Vector.length_toList, Vector.getElem_toList] at this
  simp only [blk128, Vector.getElem_ofFn, be128_eq]
  apply BitVec.eq_of_toNat_eq
  rw [BitVec.toNat_ofNat, ← this]

theorem be128_lt (c : Block) : be128 c < 2 ^ 128 := by
  have := beNat_lt c.toList
  simp only [Vector.length_toList] at this
  rw [be128_eq]
  exact lt_of_lt_of_le this (by norm_num)

/-! ## Padding (R150) -/

theorem pad_getElem (iv : List Byte) (i : Nat) (h : i < 16) : (pad iv)[i] = iv.getD i 0 := by
  simp [pad]

theorem pad_toList_getD (iv : List Byte) (i : Nat) (h : i < 16) : (pad iv).toList.getD i 0 = iv.getD i 0 := by
  have : i < (pad iv).toList.length := by simpa using h
  rw [List.getD_eq_getElem _ _ this, Vector.getElem_toList, pad_getElem]

/-- The padded IV starts with the IV. -/
theorem take_pad (iv : List Byte) (h : iv.length ≤ 16) : (pad iv).toList.take iv.length = iv := by
  apply List.ext_getElem
  · simp; omega
  · intro i h1 h2
    rw [List.getElem_take, Vector.getElem_toList, pad_getElem _ _ (by omega), List.getD_eq_getElem _ _ h2]

/-! ## The keystream (R154, R156) -/

theorem keyBlock_toList_length (P : Params) (v : Variant) (k iv : List Byte) (j : Nat) :
    (keyBlock P v k iv j).toList.length = 16 := by simp

theorem flatMap_blocks_length (f : Nat → Block) (m : Nat) :
    ((List.range m).flatMap fun j => (f j).toList).length = 16 * m := by
  induction m with
  | zero => rfl
  | succ m ih => rw [List.range_succ, List.flatMap_append, List.length_append, ih]; simp; omega

theorem flatMap_blocks_getD (f : Nat → Block) (m i : Nat) (h : i < 16 * m) :
    ((List.range m).flatMap fun j => (f j).toList).getD i 0 = (f (i / 16)).toList.getD (i % 16) 0 := by
  induction m with
  | zero => omega
  | succ m ih =>
    rw [List.range_succ, List.flatMap_append]
    have hl := flatMap_blocks_length f m
    by_cases hi : i < 16 * m
    · rw [List.getD_append _ _ _ _ (by omega), ih hi]
    · rw [List.getD_append_right _ _ _ _ (by omega), hl]
      have h1 : i / 16 = m := by omega
      have h2 : i - 16 * m = i % 16 := by omega
      simp [h1, h2]

theorem keystream_length (P : Params) (v : Variant) (k iv : List Byte) (n : Nat) : (keystream P v k iv n).length = n := by
  rw [keystream, List.length_take, flatMap_blocks_length]
  simp only [blocks]
  omega

theorem keystream_getD (P : Params) (v : Variant) (k iv : List Byte) (n i : Nat) (h : i < n) :
    (keystream P v k iv n).getD i 0 = keystreamByte P v k iv i := by
  have hb : i < 16 * blocks n := by simp only [blocks]; omega
  have hg := flatMap_blocks_getD (keyBlock P v k iv) (blocks n) i hb
  rw [keystreamByte, ← hg, keystream]
  simp [List.getD, h]

/-! ## One keystream block (R157) -/

@[simp] theorem xorLanes_length (m : Memory) (src r : Nat) (k : Block) : (xorLanes m src r k).length = r := by
  simp [xorLanes]

theorem xorLanes_getD (m : Memory) (src r : Nat) (k : Block) (i : Nat) (h : i < r) :
    (xorLanes m src r k).getD i 0 = Memory.readByte m (src + i) ^^^ k.toList.getD i 0 := by
  simp [xorLanes, List.getD, h]

/-- What one block does to OUT: the live lanes take IN ⊕ K_j, every other byte stays. -/
theorem readByte_takeBlock (P : Params) (k : Block) (s : State) (h : Memory.wf s.outBuf) (a : Nat) :
    Memory.readByte (s.takeBlock P k).outBuf a =
      if s.ctx.dst + 16 * s.ctx.j ≤ a ∧ a < s.ctx.dst + 16 * s.ctx.j + liveLanes s.ctx.n s.ctx.j then
        Memory.readByte s.inBuf (s.ctx.src + (a - s.ctx.dst)) ^^^ k.toList.getD (a - s.ctx.dst - 16 * s.ctx.j) 0
      else Memory.readByte s.outBuf a := by
  rw [State.takeBlock_outBuf, Memory.readByte_writeBytes h, xorLanes_length]
  split
  · rw [xorLanes_getD _ _ _ _ _ (by omega),
      show s.ctx.src + 16 * s.ctx.j + (a - (s.ctx.dst + 16 * s.ctx.j)) = s.ctx.src + (a - s.ctx.dst) by omega,
      show a - (s.ctx.dst + 16 * s.ctx.j) = a - s.ctx.dst - 16 * s.ctx.j by omega]
  · rfl

end Sys2Proof.Machine
end

