-- ==== Sys2Proof/Laws/Sequencer.lean ====
section
/-! SUPPORT. The laws of the sequencer: what each phase's move does, that a move reads and writes no input, that a run of a
command is a sequence of single steps, and what the inputs that carry a command through amount to. -/

namespace Sys2Proof.Machine

variable {P : Params} {s t : State}

/-! ## The internal step, phase by phase (R42) -/

theorem seqInternal_rstClr (h : s.seq = .rstClr) : seqInternal s = { s with seq := .idle } := by
  simp [seqInternal, h]

@[simp] theorem seqInternal_idle (h : s.seq = .idle) : seqInternal s = s := by simp [seqInternal, h]

@[simp] theorem seqInternal_check (h : s.seq = .check) : seqInternal s = checkStep s := by simp [seqInternal, h]

@[simp] theorem seqInternal_commit (h : s.seq = .commit) : seqInternal s = commitStep s := by simp [seqInternal, h]

@[simp] theorem seqInternal_abort (h : s.seq = .abort) : seqInternal s = s.abortStep := by simp [seqInternal, h]

/-- A waiting phase has no internal step (R242). -/
theorem seqInternal_wait (h : s.seq = .rngWait ∨ s.seq = .initWait ∨ s.seq = .blkWait) : seqInternal s = s := by
  rcases h with h | h | h <;> simp [seqInternal, h]

/-! ## What each command's CHECK and COMMIT do (R130, R180, R200) -/

theorem ivSizeLegal_iff (n : Nat) : ivSizeLegal n = true ↔ 12 ≤ n ∧ n ≤ 16 := by
  rw [ivSizeLegal, Bool.and_eq_true, decide_eq_true_eq, decide_eq_true_eq]
  rfl

theorem variantOf_eq_none (l : Nat) : variantOf l = none ↔ l ≠ 16 ∧ l ≠ 32 := by
  unfold variantOf
  split
  · simp [*]
  · split <;> simp [*]

theorem variantOf_eq_some {l : Nat} {v : Variant} (h : variantOf l = some v) :
    (l = 16 ∧ v = .v128) ∨ (l = 32 ∧ v = .v256) := by
  unfold variantOf at h
  split at h
  · exact .inl ⟨‹_›, (Option.some.inj h).symm⟩
  · split at h
    · exact .inr ⟨‹_›, (Option.some.inj h).symm⟩
    · cases h

theorem checkCreate_key (h : variantOf s.keyLength = none) : checkCreate s = s.raise .invalidKeySize := by
  simp only [checkCreate, h]

theorem checkCreate_iv {v : Variant} (h : variantOf s.keyLength = some v) (h' : ivSizeLegal s.ivLength = false) :
    checkCreate s = s.raise .invalidIvSize := by
  simp [checkCreate, h, h']

theorem checkCreate_ok {v : Variant} (h : variantOf s.keyLength = some v) (h' : ivSizeLegal s.ivLength = true) :
    checkCreate s = { s with inst := s.stagedInst v, seq := .commit } := by
  simp [checkCreate, h, h']

theorem checkEncrypt_noInstance (h : s.inst.valid = false) : checkEncrypt s = s.raise .noInstance := by
  simp only [checkEncrypt, h, if_true]

theorem checkEncrypt_overflow (h : s.inst.valid = true) (h' : s.bufBytes < s.msgLength + s.inst.ivBytes) :
    checkEncrypt s = s.raise .lengthOverflow := by
  simp [checkEncrypt, h, h']

theorem checkEncrypt_ok (h : s.inst.valid = true) (h' : ¬ s.bufBytes < s.msgLength + s.inst.ivBytes) :
    checkEncrypt s =
      { s.send (.rng s.inst.ivBytes) with
        ctx := { s.ctx with
          n := s.msgLength, src := 0, dst := s.inst.ivBytes, nblk := blocks s.msgLength, j := 0, ksCount := 0 }
        seq := .rngWait } := by
  rw [checkEncrypt, if_neg (by simp [h]), if_neg h']

theorem checkDecrypt_noInstance (h : s.inst.valid = false) : checkDecrypt s = s.raise .noInstance := by
  simp only [checkDecrypt, h, if_true]

theorem checkDecrypt_overflow (h : s.inst.valid = true) (h' : s.bufBytes < s.msgLength) :
    checkDecrypt s = s.raise .lengthOverflow := by
  simp [checkDecrypt, h, h']

theorem checkDecrypt_short (h : s.inst.valid = true) (h' : ¬ s.bufBytes < s.msgLength)
    (h'' : s.msgLength < s.inst.ivBytes) : checkDecrypt s = s.raise .ciphertextTooShort := by
  rw [checkDecrypt, if_neg (by simp [h]), if_neg h', if_pos h'']

theorem checkDecrypt_ok (h : s.inst.valid = true) (h' : ¬ s.bufBytes < s.msgLength)
    (h'' : ¬ s.msgLength < s.inst.ivBytes) :
    checkDecrypt s = State.beginStream
      { s with ctx := { s.ctx with
          ivReg := pad (Memory.readBytes s.inBuf 0 s.inst.ivBytes), ctr := pad (Memory.readBytes s.inBuf 0 s.inst.ivBytes),
          n := s.msgLength - s.inst.ivBytes, src := s.inst.ivBytes, dst := 0,
          nblk := blocks (s.msgLength - s.inst.ivBytes), j := 0, ksCount := 0 } } := by
  rw [checkDecrypt, if_neg (by simp [h]), if_neg h', if_neg h'']

/-- What a CHECK does: the phase after it, and what it leaves alone. -/
theorem checkStep_seq (s : State) :
    (checkStep s).seq = .commit ∨ (checkStep s).seq = .abort ∨ (checkStep s).seq = .rngWait ∨
      (checkStep s).seq = .initWait := by
  unfold checkStep
  cases s.ctx.opc <;> dsimp only
  · simp
  · cases h1 : variantOf s.keyLength with
    | none => simp [checkCreate_key h1]
    | some v => cases h2 : ivSizeLegal s.ivLength <;> simp [checkCreate_iv, checkCreate_ok, h1, h2]
  · cases h1 : s.inst.valid with
    | false => simp [checkEncrypt_noInstance h1]
    | true =>
      by_cases h2 : s.bufBytes < s.msgLength + s.inst.ivBytes
      · simp [checkEncrypt_overflow h1 h2]
      · simp [checkEncrypt_ok h1 h2]
  · cases h1 : s.inst.valid with
    | false => simp [checkDecrypt_noInstance h1]
    | true =>
      by_cases h2 : s.bufBytes < s.msgLength
      · simp [checkDecrypt_overflow h1 h2]
      · by_cases h3 : s.msgLength < s.inst.ivBytes
        · simp [checkDecrypt_short h1 h2 h3]
        · simp [checkDecrypt_ok h1 h2 h3]

theorem commitEncrypt_bad (h : s.ctx.ksCount ≠ s.ctx.n) : commitEncrypt s = s.raise .encryptionFailure := by
  rw [commitEncrypt, if_pos h]

theorem commitEncrypt_ok (h : s.ctx.ksCount = s.ctx.n) :
    commitEncrypt s = State.completeStep
      { s with
        outBuf := Memory.writeBytes s.outBuf 0 (s.ctx.ivReg.toList.take s.inst.ivBytes)
        outLen := BitVec.ofNat 32 (s.inst.ivBytes + s.ctx.n) } := by
  rw [commitEncrypt, if_neg (by simp [h])]

theorem commitDecrypt_bad (h : s.ctx.ksCount ≠ s.ctx.n) : commitDecrypt s = s.raise .decryptionFailure := by
  rw [commitDecrypt, if_pos h]

theorem commitDecrypt_ok (h : s.ctx.ksCount = s.ctx.n) :
    commitDecrypt s = State.completeStep { s with outLen := BitVec.ofNat 32 s.ctx.n } := by
  rw [commitDecrypt, if_neg (by simp [h])]

/-! ## A move neither reads nor writes the inputs to come -/

theorem checkStep_events (s : State) (es : List Event) :
    checkStep { s with events := es } = { checkStep s with events := es } := by
  unfold checkStep
  dsimp only
  cases s.ctx.opc <;> dsimp only
  · rfl
  · cases h1 : variantOf s.keyLength with
    | none => rw [checkCreate_key h1, checkCreate_key (s := { s with events := es }) h1]; rfl
    | some v =>
      cases h2 : ivSizeLegal s.ivLength with
      | false => rw [checkCreate_iv h1 h2, checkCreate_iv (s := { s with events := es }) h1 h2]; rfl
      | true => rw [checkCreate_ok h1 h2, checkCreate_ok (s := { s with events := es }) h1 h2]; rfl
  · cases h1 : s.inst.valid with
    | false => rw [checkEncrypt_noInstance h1, checkEncrypt_noInstance (s := { s with events := es }) h1]; rfl
    | true =>
      by_cases h2 : s.bufBytes < s.msgLength + s.inst.ivBytes
      · rw [checkEncrypt_overflow h1 h2, checkEncrypt_overflow (s := { s with events := es }) h1 h2]; rfl
      · rw [checkEncrypt_ok h1 h2, checkEncrypt_ok (s := { s with events := es }) h1 h2]; rfl
  · cases h1 : s.inst.valid with
    | false => rw [checkDecrypt_noInstance h1, checkDecrypt_noInstance (s := { s with events := es }) h1]; rfl
    | true =>
      by_cases h2 : s.bufBytes < s.msgLength
      · rw [checkDecrypt_overflow h1 h2, checkDecrypt_overflow (s := { s with events := es }) h1 h2]; rfl
      · by_cases h3 : s.msgLength < s.inst.ivBytes
        · rw [checkDecrypt_short h1 h2 h3, checkDecrypt_short (s := { s with events := es }) h1 h2 h3]; rfl
        · rw [checkDecrypt_ok h1 h2 h3, checkDecrypt_ok (s := { s with events := es }) h1 h2 h3]; rfl

theorem releaseEngine_events (s : State) (es : List Event) :
    State.releaseEngine { s with events := es } = { s.releaseEngine with events := es } := by
  unfold State.releaseEngine
  dsimp only
  split <;> rfl

theorem completeStep_events (s : State) (es : List Event) :
    State.completeStep { s with events := es } = { s.completeStep with events := es } := by
  unfold State.completeStep
  rw [releaseEngine_events]

theorem abortStep_events' (s : State) (es : List Event) :
    State.abortStep { s with events := es } = { s.abortStep with events := es } := by
  unfold State.abortStep
  dsimp only
  split
  · exact congrArg (fun x : State => { x with
      errCode := s.ctx.code, error := true, ctx := Context.zero, seq := .idle, done := true })
      (releaseEngine_events s.invalidate.zeroizeOut es)
  · exact congrArg (fun x : State => { x with
      errCode := s.ctx.code, error := true, ctx := Context.zero, seq := .idle, done := true })
      (releaseEngine_events s.zeroizeOut es)

theorem commitStep_events (s : State) (es : List Event) :
    commitStep { s with events := es } = { commitStep s with events := es } := by
  unfold commitStep
  dsimp only
  cases s.ctx.opc <;> dsimp only
  · exact completeStep_events s es
  · exact completeStep_events s es
  · by_cases h : s.ctx.ksCount = s.ctx.n
    · rw [commitEncrypt_ok h, commitEncrypt_ok (s := { s with events := es }) h]
      exact completeStep_events { s with
        outBuf := Memory.writeBytes s.outBuf 0 (s.ctx.ivReg.toList.take s.inst.ivBytes)
        outLen := BitVec.ofNat 32 (s.inst.ivBytes + s.ctx.n) } es
    · rw [commitEncrypt_bad h, commitEncrypt_bad (s := { s with events := es }) h]; rfl
  · by_cases h : s.ctx.ksCount = s.ctx.n
    · rw [commitDecrypt_ok h, commitDecrypt_ok (s := { s with events := es }) h]
      exact completeStep_events { s with outLen := BitVec.ofNat 32 s.ctx.n } es
    · rw [commitDecrypt_bad h, commitDecrypt_bad (s := { s with events := es }) h]; rfl

theorem Seq.eq_cases (q : Seq) : q = .rstClr ∨ q = .idle ∨ q = .check ∨ q = .commit ∨ q = .abort ∨
    (q = .rngWait ∨ q = .initWait ∨ q = .blkWait) := by
  cases q <;> simp

theorem seqInternal_events (s : State) (es : List Event) :
    seqInternal { s with events := es } = { seqInternal s with events := es } := by
  rcases Seq.eq_cases s.seq with h | h | h | h | h | h
  · rw [seqInternal_rstClr h, seqInternal_rstClr (s := { s with events := es }) h]
  · rw [seqInternal_idle h, seqInternal_idle (s := { s with events := es }) h]
  · rw [seqInternal_check h, seqInternal_check (s := { s with events := es }) h, checkStep_events]
  · rw [seqInternal_commit h, seqInternal_commit (s := { s with events := es }) h, commitStep_events]
  · rw [seqInternal_abort h, seqInternal_abort (s := { s with events := es }) h, abortStep_events']
  · rw [seqInternal_wait h, seqInternal_wait (s := { s with events := es }) h]

/-! ## The sequencer's turn (R42, R71) -/

/-- Outside CHECK a turn is the internal step. -/
theorem seqTurn_eq (h : s.seq ≠ .check) : seqTurn s = seqInternal s := by simp [seqTurn, h]

theorem seqTurn_rstClr (h : s.seq = .rstClr) : seqTurn s = { s with seq := .idle } := by
  rw [seqTurn_eq (by simp [h]), seqInternal_rstClr h]

@[simp] theorem seqTurn_idle (h : s.seq = .idle) : seqTurn s = s := by
  rw [seqTurn_eq (by simp [h]), seqInternal_idle h]

theorem seqTurn_commit (h : s.seq = .commit) : seqTurn s = commitStep s := by
  rw [seqTurn_eq (by simp [h]), seqInternal_commit h]

theorem seqTurn_abort (h : s.seq = .abort) : seqTurn s = s.abortStep := by
  rw [seqTurn_eq (by simp [h]), seqInternal_abort h]

theorem seqTurn_wait (h : s.seq = .rngWait ∨ s.seq = .initWait ∨ s.seq = .blkWait) : seqTurn s = s := by
  rw [seqTurn_eq (by rcases h with h | h | h <;> simp [h]), seqInternal_wait h]

/-- A CHECK that does not go to COMMIT is a turn of its own. -/
theorem seqTurn_check (h : s.seq = .check) (h' : (checkStep s).seq ≠ .commit) : seqTurn s = checkStep s := by
  simp [seqTurn, h, h']

/-- A CREATE that passes its CHECK completes in that turn with the instance of the staging registers (R130, R227). -/
theorem seqTurn_create {v : Variant} (h : s.seq = .check) (ho : s.ctx.opc = .create)
    (hv : variantOf s.keyLength = some v) (hi : ivSizeLegal s.ivLength = true) :
    seqTurn s = State.completeStep { s with inst := s.stagedInst v } := by
  have hc : checkStep s = { s with inst := s.stagedInst v, seq := .commit } := by
    simp only [checkStep, ho]; exact checkCreate_ok hv hi
  simp only [seqTurn, seqInternal_check h, hc, h, and_self, if_true]
  rw [seqInternal_commit rfl]
  simp only [commitStep, ho, commitCreate, State.completeStep, State.releaseEngine]
  split <;> rfl

theorem seqTurn_events (s : State) (es : List Event) :
    seqTurn { s with events := es } = { seqTurn s with events := es } := by
  unfold seqTurn
  simp only [seqInternal_events]
  split <;> rfl

theorem answerInit_fail (s : State) : s.answerInit .fail = s.raise .cipherInitFailure := rfl

theorem answerInit_empty (h : s.ctx.n = 0) : s.answerInit .ok = { s with seq := .commit } := by
  simp [State.answerInit, h]

theorem answerInit_first (h : s.ctx.n ≠ 0) :
    s.answerInit .ok = { s.send (.engBlock s.ctx.ctr) with seq := .blkWait } := by
  simp [State.answerInit, h]

theorem answerBlock_fail (P : Params) (s : State) : s.answerBlock P .fail = s.raise (streamFailure s.ctx.opc) := rfl

theorem nextBlock_more (h : s.ctx.j < s.ctx.nblk) : s.nextBlock = s.send (.engBlock s.ctx.ctr) := by
  simp [State.nextBlock, h]

theorem nextBlock_last (h : ¬ s.ctx.j < s.ctx.nblk) : s.nextBlock = { s with seq := .commit } := by
  simp [State.nextBlock, h]

theorem answerBlock_ok (P : Params) (s : State) :
    s.answerBlock P .ok = (s.takeBlock P (P.bc s.inst.variant s.inst.keyBytes s.ctx.ctr)).nextBlock := rfl

theorem nextBlock_events (s : State) (es : List Event) :
    State.nextBlock { s with events := es } = { s.nextBlock with events := es } := by
  by_cases h : s.ctx.j < s.ctx.nblk
  · rw [nextBlock_more h, nextBlock_more (s := { s with events := es }) h]; rfl
  · rw [nextBlock_last h, nextBlock_last (s := { s with events := es }) h]

theorem answerInit_events (a : EngAnswer) (s : State) (es : List Event) :
    State.answerInit a { s with events := es } = { s.answerInit a with events := es } := by
  cases a
  · by_cases h : s.ctx.n = 0
    · rw [answerInit_empty h, answerInit_empty (s := { s with events := es }) h]
    · rw [answerInit_first h, answerInit_first (s := { s with events := es }) h]; rfl
  · rfl

theorem answerBlock_events (P : Params) (a : EngAnswer) (s : State) (es : List Event) :
    State.answerBlock P a { s with events := es } = { s.answerBlock P a with events := es } := by
  cases a
  · exact nextBlock_events (s.takeBlock P (P.bc s.inst.variant s.inst.keyBytes s.ctx.ctr)) es
  · rfl

/-! ## The sequencer's move, phase by phase (R42) -/

@[simp] theorem seqMove_internal (P : Params) (s : State) : seqMove P .internal s = seqTurn s := rfl

theorem seqMove_rng {b : Block} (h : s.seq = .rngWait) : seqMove P (.rng b) s = answerRng b s := by
  simp [seqMove, h]

theorem seqMove_init {a : EngAnswer} (h : s.seq = .initWait) : seqMove P (.eng a) s = s.answerInit a := by
  simp [seqMove, h]

theorem seqMove_block {a : EngAnswer} (h : s.seq = .blkWait) : seqMove P (.eng a) s = s.answerBlock P a := by
  simp [seqMove, h]

/-- An answer that the phase does not wait for is ignored (R262, V8). -/
theorem seqMove_rng_ignored {b : Block} (h : s.seq ≠ .rngWait) : seqMove P (.rng b) s = s := by
  unfold seqMove
  split <;> simp_all

theorem seqMove_eng_ignored {a : EngAnswer} (h : s.seq ≠ .initWait) (h' : s.seq ≠ .blkWait) :
    seqMove P (.eng a) s = s := by
  unfold seqMove
  split <;> simp_all

/-- A move of the sequencer commutes with setting the inputs to come. -/
theorem seqMove_events (P : Params) (e : Event) (s : State) (es : List Event) :
    seqMove P e { s with events := es } = { seqMove P e s with events := es } := by
  cases e with
  | bus a => rfl
  | stale => rfl
  | reset => rfl
  | internal => exact seqTurn_events s es
  | rng b =>
    by_cases h : s.seq = .rngWait
    · rw [seqMove_rng h, seqMove_rng (s := { s with events := es }) h]; rfl
    · rw [seqMove_rng_ignored h, seqMove_rng_ignored (s := { s with events := es }) h]
  | eng a =>
    by_cases h : s.seq = .initWait
    · rw [seqMove_init h, seqMove_init (s := { s with events := es }) h, answerInit_events]
    · by_cases h' : s.seq = .blkWait
      · rw [seqMove_block h', seqMove_block (s := { s with events := es }) h', answerBlock_events]
      · rw [seqMove_eng_ignored h h', seqMove_eng_ignored (s := { s with events := es }) h h']

/-! ## Single steps -/

@[simp] theorem tick_nil (h : s.events = []) : tick P s = seqTurn s := by simp [tick, h]

theorem tick_cons {e : Event} {es : List Event} (h : s.events = e :: es) :
    tick P s = deliver P e { s with events := es } := by simp [tick, h]

theorem enabled_cases {q : Seq} {e : Event} (h : enabled q e = true) :
    (e = .internal ∧ (q = .rstClr ∨ q = .check ∨ q = .commit ∨ q = .abort)) ∨
    (∃ b, e = .rng b ∧ q = .rngWait) ∨ (∃ a, e = .eng a ∧ (q = .initWait ∨ q = .blkWait)) := by
  cases q <;> cases e <;> simp_all [enabled]

theorem deliver_enabled {e : Event} (h : enabled s.seq e = true) : deliver P e s = seqMove P e s := by
  rcases enabled_cases h with ⟨rfl, -⟩ | ⟨b, rfl, -⟩ | ⟨a, rfl, -⟩ <;> rfl

/-! ## A run of a command -/

theorem drive_nil (P : Params) (s : State) :
    drive P [] s = { seqTurn (seqTurn (seqTurn s)) with events := [] } := rfl

theorem drive_enabled {e : Event} (es : List Event) (h : enabled s.seq e = true) :
    drive P (e :: es) s = drive P es (seqMove P e s) := by simp [drive, h]

theorem drive_stop {e : Event} (es : List Event) (h : enabled s.seq e = false) :
    drive P (e :: es) s = { s with events := e :: es } := by simp [drive, h]

/-- In IDLE a run is over. -/
theorem drive_idle (h : s.seq = .idle) (es : List Event) : drive P es s = { s with events := es } := by
  cases es with
  | nil => simp [drive, h]
  | cons e es => cases e <;> simp [drive, h, enabled]

/-- A run is a sequence of single steps. -/
theorem drive_eq_ticks (P : Params) (es : List Event) (s : State) :
    ∃ k, k ≤ es.length + 3 ∧ drive P es s = (tick P)^[k] { s with events := es } := by
  induction es generalizing s with
  | nil =>
    refine ⟨3, by simp, ?_⟩
    have h (x : State) : tick P { x with events := [] } = { seqTurn x with events := [] } := by
      rw [tick_nil rfl, seqTurn_events]
    simp only [drive_nil, Function.iterate_succ, Function.iterate_zero, Function.comp, id, h]
  | cons e es ih =>
    by_cases h : enabled s.seq e = true
    · obtain ⟨k, hk, hd⟩ := ih (seqMove P e s)
      refine ⟨k + 1, by simp; omega, ?_⟩
      rw [drive_enabled es h, hd, Function.iterate_succ, Function.comp]
      congr 1
      exact ((deliver_enabled (s := { s with events := es }) h).trans (seqMove_events P e s es)).symm
    · exact ⟨0, by simp, drive_stop es (by simpa using h)⟩

/-! ## The inputs that carry a command through -/

/-- The tail of `State.Comes`: the sequencer's last `k` turns, then `rest`. -/
def Turns (k : Nat) (rest tail : List Event) : Prop :=
  tail = List.replicate k .internal ++ rest ∨ (rest = [] ∧ ∃ k', k' ≤ k ∧ tail = List.replicate k' .internal)

theorem State.Comes.split {head rest : List Event} {k : Nat} (h : s.Comes head k rest) :
    ∃ tail, s.events = head ++ tail ∧ Turns k rest tail := by
  rcases h with h | ⟨hr, k', hk, h⟩
  · exact ⟨List.replicate k .internal ++ rest, by simpa using h, .inl rfl⟩
  · exact ⟨List.replicate k' .internal, h, .inr ⟨hr, k', hk, rfl⟩⟩

theorem Turns.succ {k : Nat} {rest tail : List Event} (h : Turns (k + 1) rest tail) :
    (∃ tail', tail = .internal :: tail' ∧ Turns k rest tail') ∨ (tail = [] ∧ rest = []) := by
  rcases h with rfl | ⟨rfl, k', hk, rfl⟩
  · exact .inl ⟨List.replicate k .internal ++ rest, by simp [List.replicate_succ], .inl rfl⟩
  · cases k' with
    | zero => exact .inr ⟨rfl, rfl⟩
    | succ k' => exact .inl ⟨List.replicate k' .internal, by simp [List.replicate_succ], .inr ⟨rfl, k', by omega, rfl⟩⟩

theorem Turns.zero {rest tail : List Event} (h : Turns 0 rest tail) : tail = rest := by
  rcases h with rfl | ⟨rfl, k', hk, rfl⟩
  · rfl
  · obtain rfl : k' = 0 := by omega
    rfl

theorem iterate_seqTurn_idle (h : s.seq = .idle) (k : Nat) : seqTurn^[k] s = s := by
  induction k with
  | zero => rfl
  | succ k ih => rw [Function.iterate_succ, Function.comp, seqTurn_idle h, ih]

/-- One turn ends the command: in COMMIT, in ABORT, in a CHECK of a CREATE that passes. -/
theorem drive_turn {rest tail : List Event} (h : s.seq = .check ∨ s.seq = .commit ∨ s.seq = .abort) (ht : seqTurn s = t)
    (hi : t.seq = .idle) (htl : Turns 1 rest tail) : drive P tail s = { t with events := rest } := by
  rcases htl.succ with ⟨tail', rfl, h'⟩ | ⟨rfl, rfl⟩
  · rw [drive_enabled tail' (by rcases h with h | h | h <;> simp [enabled, h]), seqMove_internal, ht, h'.zero, drive_idle hi]
  · rw [drive_nil, ht, seqTurn_idle hi, seqTurn_idle hi]

/-- A CHECK that fails and the ABORT after it end the command. -/
theorem drive_check_turn {rest tail : List Event} (h : s.seq = .check) (h1 : (checkStep s).seq = .abort)
    (ht : (checkStep s).abortStep = t) (hi : t.seq = .idle) (htl : Turns 2 rest tail) :
    drive P tail s = { t with events := rest } := by
  have hc : seqTurn s = checkStep s := seqTurn_check h (by simp [h1])
  have ha : seqTurn (checkStep s) = t := (seqTurn_abort h1).trans ht
  rcases htl.succ with ⟨tail', rfl, h'⟩ | ⟨rfl, rfl⟩
  · rw [drive_enabled tail' (by simp [enabled, h]), seqMove_internal, hc]
    exact drive_turn (.inr (.inr h1)) ha hi h'
  · rw [drive_nil, hc, ha, seqTurn_idle hi]

theorem issue_idle (h : s.seq = .idle) (o : Opc) : issue P o s = drive P s.events (s.accept o) := by
  simp [issue, State.busy, h]

theorem issue_busy (h : s.seq ≠ .idle) (o : Opc) : issue P o s = s.dropWrite := by
  simp [issue, State.busy, h]

theorem exec_eq_issue (i : Instr) (s : State) : exec i s = .next (issue Config.machine (.ofInstr i) s) := by
  cases i <;> rfl

end Sys2Proof.Machine
end

