-- ==== Sys2Proof/Laws/Cases.lean ====
section
/-! SUPPORT. What one move can do, said once: each lemma `X_cases` proves a property of `X`'s result from the property of
each of its possible results, so that no later proof unfolds the sequencer or the host port. -/

namespace Sys2Proof.Machine

variable {P : Params} {Q : State → Prop}

/-! ## The sequencer -/

theorem checkStep_cases (s : State) (hraise : ∀ k, Q (s.raise k))
    (hcreate : s.ctx.opc = .create → ∀ v, variantOf s.keyLength = some v → ivSizeLegal s.ivLength = true →
      Q { s with inst := s.stagedInst v, seq := .commit })
    (hencrypt : s.ctx.opc = .encrypt → s.inst.valid = true → s.msgLength + s.inst.ivBytes ≤ s.bufBytes →
      Q (checkEncrypt s))
    (hdecrypt : s.ctx.opc = .decrypt → s.inst.valid = true → s.msgLength ≤ s.bufBytes → s.inst.ivBytes ≤ s.msgLength →
      Q (checkDecrypt s)) : Q (checkStep s) := by
  unfold checkStep
  split
  · exact hraise _
  · rename_i ho
    cases h1 : variantOf s.keyLength with
    | none => rw [checkCreate_key h1]; exact hraise _
    | some v =>
      cases h2 : ivSizeLegal s.ivLength with
      | false => rw [checkCreate_iv h1 h2]; exact hraise _
      | true => rw [checkCreate_ok h1 h2]; exact hcreate ho v h1 h2
  · rename_i ho
    cases h1 : s.inst.valid with
    | false => rw [checkEncrypt_noInstance h1]; exact hraise _
    | true =>
      by_cases h2 : s.bufBytes < s.msgLength + s.inst.ivBytes
      · rw [checkEncrypt_overflow h1 h2]; exact hraise _
      · exact hencrypt ho h1 (by omega)
  · rename_i ho
    cases h1 : s.inst.valid with
    | false => rw [checkDecrypt_noInstance h1]; exact hraise _
    | true =>
      by_cases h2 : s.bufBytes < s.msgLength
      · rw [checkDecrypt_overflow h1 h2]; exact hraise _
      · by_cases h3 : s.msgLength < s.inst.ivBytes
        · rw [checkDecrypt_short h1 h2 h3]; exact hraise _
        · exact hdecrypt ho h1 (by omega) (by omega)

/-- What a turn in CHECK does: a failed check, a whole CREATE, or the start of a stream. -/
theorem checkTurn_cases (s : State) (h : s.seq = .check) (hraise : ∀ k, Q (s.raise k))
    (hcreate : s.ctx.opc = .create → ∀ v, variantOf s.keyLength = some v → ivSizeLegal s.ivLength = true →
      Q (State.completeStep { s with inst := s.stagedInst v }))
    (hencrypt : s.ctx.opc = .encrypt → s.inst.valid = true → s.msgLength + s.inst.ivBytes ≤ s.bufBytes →
      Q (checkEncrypt s))
    (hdecrypt : s.ctx.opc = .decrypt → s.inst.valid = true → s.msgLength ≤ s.bufBytes → s.inst.ivBytes ≤ s.msgLength →
      Q (checkDecrypt s)) : Q (seqTurn s) := by
  by_cases hc : (checkStep s).seq = .commit
  · revert hc
    apply checkStep_cases (Q := fun t => t.seq = .commit → Q (seqTurn s))
    · intro k hk; cases hk
    · intro ho v hv hi _; rw [seqTurn_create h ho hv hi]; exact hcreate ho v hv hi
    · intro _ hv hl hk; rw [checkEncrypt_ok hv (by omega)] at hk; cases hk
    · intro _ hv hl hl' hk; rw [checkDecrypt_ok hv (by omega) (by omega)] at hk; cases hk
  · rw [seqTurn_check h hc]
    revert hc
    apply checkStep_cases (Q := fun t => t.seq ≠ .commit → Q t)
    · intro k _; exact hraise k
    · intro _ _ _ _ hk; exact absurd rfl hk
    · intro ho hv hl _; exact hencrypt ho hv hl
    · intro ho hv hl hl' _; exact hdecrypt ho hv hl hl'

theorem commitStep_cases (s : State)
    (hraise : ∀ k, s.ctx.ksCount ≠ s.ctx.n → s.ctx.opc = .encrypt ∨ s.ctx.opc = .decrypt → Q (s.raise k))
    (hplain : s.ctx.opc = .illegal ∨ s.ctx.opc = .create → Q s.completeStep)
    (hencrypt : s.ctx.opc = .encrypt → s.ctx.ksCount = s.ctx.n → Q (State.completeStep { s with
      outBuf := Memory.writeBytes s.outBuf 0 (s.ctx.ivReg.toList.take s.inst.ivBytes)
      outLen := BitVec.ofNat 32 (s.inst.ivBytes + s.ctx.n) }))
    (hdecrypt : s.ctx.opc = .decrypt → s.ctx.ksCount = s.ctx.n →
      Q (State.completeStep { s with outLen := BitVec.ofNat 32 s.ctx.n })) : Q (commitStep s) := by
  unfold commitStep
  split
  · exact hplain (.inl ‹_›)
  · exact hplain (.inr ‹_›)
  · rename_i ho
    by_cases hk : s.ctx.ksCount = s.ctx.n
    · rw [commitEncrypt_ok hk]; exact hencrypt ho hk
    · rw [commitEncrypt_bad hk]; exact hraise _ hk (.inl ho)
  · rename_i ho
    by_cases hk : s.ctx.ksCount = s.ctx.n
    · rw [commitDecrypt_ok hk]; exact hdecrypt ho hk
    · rw [commitDecrypt_bad hk]; exact hraise _ hk (.inr ho)

theorem answerInit_cases (s : State) (a : EngAnswer) (hfail : a = .fail → Q (s.raise .cipherInitFailure))
    (hempty : a = .ok → s.ctx.n = 0 → Q { s with seq := .commit })
    (hfirst : a = .ok → s.ctx.n ≠ 0 → Q { s.send (.engBlock s.ctx.ctr) with seq := .blkWait }) : Q (s.answerInit a) := by
  cases a
  · by_cases hn : s.ctx.n = 0
    · rw [answerInit_empty hn]; exact hempty rfl hn
    · rw [answerInit_first hn]; exact hfirst rfl hn
  · exact hfail rfl

theorem answerBlock_cases (s : State) (a : EngAnswer) (hfail : a = .fail → Q (s.raise (streamFailure s.ctx.opc)))
    (hlast : a = .ok → ¬ s.ctx.j + 1 < s.ctx.nblk →
      Q { s.takeBlock P (P.bc s.inst.variant s.inst.keyBytes s.ctx.ctr) with seq := .commit })
    (hmore : a = .ok → s.ctx.j + 1 < s.ctx.nblk →
      Q ((s.takeBlock P (P.bc s.inst.variant s.inst.keyBytes s.ctx.ctr)).send (.engBlock (P.ctrInc s.ctx.ctr)))) :
    Q (s.answerBlock P a) := by
  cases a
  · rw [answerBlock_ok]
    by_cases hj : s.ctx.j + 1 < s.ctx.nblk
    · rw [nextBlock_more (by exact hj)]; exact hmore rfl hj
    · rw [nextBlock_last (by exact hj)]; exact hlast rfl hj
  · exact hfail rfl

theorem seqMove_cases (e : Event) (s : State) (hself : Q s)
    (hrst : s.seq = .rstClr → e = .internal → Q { s with seq := .idle })
    (hcheck : s.seq = .check → e = .internal → Q (seqTurn s))
    (hcommit : s.seq = .commit → e = .internal → Q (commitStep s))
    (habort : s.seq = .abort → e = .internal → Q s.abortStep)
    (hrng : s.seq = .rngWait → ∀ b, e = .rng b → Q (answerRng b s))
    (hinit : s.seq = .initWait → ∀ a, e = .eng a → Q (s.answerInit a))
    (hblock : s.seq = .blkWait → ∀ a, e = .eng a → Q (s.answerBlock P a)) : Q (seqMove P e s) := by
  cases e with
  | bus a => exact hself
  | stale => exact hself
  | reset => exact hself
  | internal =>
    rw [seqMove_internal]
    rcases Seq.eq_cases s.seq with h | h | h | h | h | h
    · rw [seqTurn_rstClr h]; exact hrst h rfl
    · rw [seqTurn_idle h]; exact hself
    · exact hcheck h rfl
    · rw [seqTurn_commit h]; exact hcommit h rfl
    · rw [seqTurn_abort h]; exact habort h rfl
    · rw [seqTurn_wait h]; exact hself
  | rng b =>
    by_cases h : s.seq = .rngWait
    · rw [seqMove_rng h]; exact hrng h b rfl
    · rw [seqMove_rng_ignored h]; exact hself
  | eng a =>
    by_cases h : s.seq = .initWait
    · rw [seqMove_init h]; exact hinit h a rfl
    · by_cases h' : s.seq = .blkWait
      · rw [seqMove_block h']; exact hblock h' a rfl
      · rw [seqMove_eng_ignored h h']; exact hself

/-- What every move keeps, a run keeps, if it does not speak of the inputs to come. -/
theorem drive_keeps (hev : ∀ s es, Q s → Q { s with events := es }) (hmove : ∀ e s, Q s → Q (seqMove P e s))
    (es : List Event) (s : State) (h : Q s) : Q (drive P es s) := by
  induction es generalizing s with
  | nil => rw [drive_nil]; exact hev _ _ (hmove .internal _ (hmove .internal _ (hmove .internal _ h)))
  | cons e es ih =>
    by_cases he : enabled s.seq e = true
    · rw [drive_enabled es he]; exact ih _ (hmove e s h)
    · rw [drive_stop es (by simpa using he)]; exact hev _ _ h

/-! ## The host port -/

theorem hostAccess_cases (a : Access) (s : State) (hself : ∀ r, Q { s with resp := r })
    (hwrite : ∀ off v, a = .write .w32 off v → off % 4 = 0 → Q { s.hostWrite off v with resp := some ⟨false, 0⟩ }) :
    Q (s.hostAccess a) := by
  by_cases h : a.sizeOk = true ∧ a.aligned = true
  · cases a with
    | read sz off =>
      have hsz : sz = .w32 := by simpa [Access.sizeOk] using h.1
      subst hsz
      rw [hostAccess_read (by simpa [Access.aligned] using h.2)]; exact hself _
    | write sz off v =>
      have hsz : sz = .w32 := by simpa [Access.sizeOk] using h.1
      have h2 : off % 4 = 0 := by simpa [Access.aligned] using h.2
      subst hsz
      rw [hostAccess_write h2]; exact hwrite off v rfl h2
  · rw [hostAccess_error h]; exact hself _

theorem hostWrite_cases (off : Nat) (v : Word) (s : State) (hself : Q s) (hdrop : s.seq ≠ .idle → Q s.dropWrite)
    (hcmd : off = 0x00004 → s.seq = .idle → Q (s.accept (Opc.ofWord v))) (hstatus : off = 0x00008 → Q (s.writeStatus v))
    (hirq : off = 0x00024 → Q (s.writeIrqEn v)) (hkeyLen : s.seq = .idle → Q { s with keyLen := v })
    (hivSize : s.seq = .idle → Q { s with ivSize := v }) (hinLen : s.seq = .idle → Q { s with inLen := v })
    (hkey : s.seq = .idle → ∀ k, Q { s with keyStage := writeKeyWord s.keyStage k v })
    (hin : s.seq = .idle → ∀ o, targetOf s.bufBytes off = .inBuf o →
      Q { s with inBuf := Memory.writeWord s.inBuf o v }) : Q (s.hostWrite off v) := by
  have hstaged : ∀ t, (s.seq = .idle → Q t) → Q (s.staged t) := by
    intro t ht
    by_cases h : s.seq = .idle
    · rw [staged_idle h]; exact ht h
    · rw [staged_busy h]; exact hdrop h
  unfold State.hostWrite
  split
  · exact hstaged _ (hcmd (targetOf_cmd_inv ‹_›))
  · exact hstatus (targetOf_status_inv ‹_›)
  · exact hirq (targetOf_irqEn_inv ‹_›)
  · exact hstaged _ hkeyLen
  · exact hstaged _ hivSize
  · exact hstaged _ hinLen
  · exact hstaged _ fun h => hkey h _
  · exact hstaged _ fun h => hin h _ ‹_›
  all_goals exact hself

/-! ## A single step -/

theorem tick_cases (s : State) (hnil : s.events = [] → Q (seqMove P .internal s))
    (hmove : ∀ e es, s.events = e :: es → (∀ a, e ≠ .bus a) → e ≠ .reset → Q (seqMove P e { s with events := es }))
    (hbus : ∀ a es, s.events = .bus a :: es → Q (State.hostAccess a { s with events := es }))
    (hreset : ∀ es, s.events = .reset :: es → Q (State.applyReset { s with events := es })) : Q (tick P s) := by
  cases he : s.events with
  | nil => rw [tick_nil he]; exact hnil he
  | cons e es =>
    rw [tick_cons he]
    cases e with
    | bus a => exact hbus a es he
    | reset => exact hreset es he
    | internal => exact hmove _ es he (by simp) (by simp)
    | rng b => exact hmove _ es he (by simp) (by simp)
    | eng a => exact hmove _ es he (by simp) (by simp)
    | stale => exact hmove _ es he (by simp) (by simp)

theorem tick_turn {s : State} {rest : List Event} (h : s.Turn rest) : tick P s = { seqTurn s with events := rest } := by
  rcases h with h | ⟨h, rfl⟩
  · rw [tick_cons h]; exact seqTurn_events s rest
  · rw [tick_nil h]
    have := seqTurn_events s []
    rw [← this, ← h]

end Sys2Proof.Machine
end

