-- ==== Sys2Proof/Laws/HostProgram.lean ====
section
/-! SUPPORT. The laws of a host program: an event commutes with the inputs to come, what a run does move by move, and a
POLL's repetition read by read (R110, R112). -/

namespace Sys2Proof.Machine

variable {P : Params}

/-- An event's effect neither reads nor writes the inputs to come. -/
theorem deliver_events (P : Params) (e : Event) (s : State) (es : List Event) :
    deliver P e { s with events := es } = { deliver P e s with events := es } := by
  cases e with
  | bus a => exact hostAccess_events a s es
  | reset => rfl
  | stale => rfl
  | internal => exact seqMove_events P .internal s es
  | rng b => exact seqMove_events P (.rng b) s es
  | eng a => exact seqMove_events P (.eng a) s es

@[simp] theorem lineDone_poll (off : Nat) (mask val v : Word) :
    lineDone v (.poll off mask val) = (v &&& mask == val) := rfl

/-- The lines left are those before the access, or all but the first. -/
theorem linesAfter_cases (v : Word) (l : HostLine) (p : List HostLine) :
    linesAfter v (l :: p) = p ∨ linesAfter v (l :: p) = l :: p := by
  cases h : lineDone v l
  · exact .inr (by simp [linesAfter, h])
  · exact .inl (by simp [linesAfter, h])

/-- A read that does not match is made again. -/
theorem transactions_poll_again {off : Nat} {mask val v : Word} (h : v &&& mask ≠ val) (vs : List Word)
    (p : List HostLine) :
    transactions (v :: vs) (.poll off mask val :: p) = .read .w32 off :: transactions vs (.poll off mask val :: p) := by
  simp [transactions, linesAfter, lineAccess, h]

/-- A read that matches is the POLL's last. -/
theorem transactions_poll_done {off : Nat} {mask val v : Word} (h : v &&& mask = val) (vs : List Word)
    (p : List HostLine) :
    transactions (v :: vs) (.poll off mask val :: p) = .read .w32 off :: transactions vs p := by
  simp [transactions, linesAfter, lineAccess, h]

@[simp] theorem is32Bit_iff {n : Nat} : is32Bit n = true ↔ n < 2 ^ 32 := by simp [is32Bit]

@[simp] theorem is32Bit_word (v : Word) : is32Bit v.toNat = true := is32Bit_iff.2 v.isLt

/-- The check of a WR is that of its two numbers (R110). -/
theorem wr_wf_iff {off val : Nat} : (HostLine.wr off val).wf = true ↔ off < 2 ^ 32 ∧ val < 2 ^ 32 := by simp [HostLine.wf]

/-- A value of 32 bits is written as it is (R110). -/
theorem writeAccess_eq (off : Nat) {val : Nat} (h : val < 2 ^ 32) :
    writeAccess off val = .write .w32 off (BitVec.ofNat 32 val) := by
  rw [writeAccess, is32Bit_iff.2 h, if_pos rfl]

@[simp] theorem writeAccess_word (off : Nat) (v : Word) : writeAccess off v.toNat = .write .w32 off v := by
  rw [writeAccess_eq off v.isLt, BitVec.ofNat_toNat, BitVec.setWidth_eq]

/-- A wider value is an access the block does not serve (log 28). -/
theorem writeAccess_wide (off : Nat) {val : Nat} (h : 2 ^ 32 ≤ val) : (writeAccess off val).wf = false := by
  have hw : is32Bit val = false := by simpa [is32Bit] using h
  simp [writeAccess, hw, Access.wf, Access.sizeOk]

/-- The check of a pseudo-instruction is the check of its expansion's lines (R110, R111). -/
theorem pseudo_wf_iff (p : Pseudo) : p.wf = true ↔ ∀ l ∈ expandPseudo p, l.wf = true := by
  cases p with
  | ldKey b len =>
    simp only [Pseudo.wf, expandPseudo, List.mem_append, List.mem_map, List.mem_range, List.mem_singleton, true_iff]
    rintro l (⟨k, hk, rfl⟩ | rfl) <;> rw [wr_wf_iff]
    · exact ⟨by unfold keyOffset; omega, (seqWord b k).isLt⟩
    · exact ⟨by decide, len.isLt⟩
  | ldIn b =>
    simp only [Pseudo.wf, expandPseudo, List.mem_append, List.mem_map, List.mem_range, List.mem_singleton,
      decide_eq_true_eq]
    constructor
    · rintro h l (⟨w, hw, rfl⟩ | rfl) <;> rw [wr_wf_iff]
      · unfold words at hw
        exact ⟨by unfold inOffset; omega, (seqWord b w).isLt⟩
      · omega
    · intro h
      by_contra hn
      have hl := wr_wf_iff.1 (h _ (.inl ⟨words b.length - 1, by unfold words; omega, rfl⟩))
      unfold inOffset words at hl
      omega
  | setIv s => simp [Pseudo.wf, expandPseudo, HostLine.wf]
  | create | encrypt | decrypt | waitDone | waitIdle | ack => simp [Pseudo.wf, expandPseudo, HostLine.wf]

/-- A run is its moves, one after another. -/
theorem hostRun_append (P : Params) (order : List Slot) (x : Slot) (p : List HostLine) (s : State) :
    hostRun P (order ++ [x]) p s = (hostRun P order p s).move P x := by simp [hostRun]

theorem move_host_done (r : HostRun) (h : r.left = []) : r.move P .host = r := by simp [HostRun.move, h]

theorem move_host {r : HostRun} {l : HostLine} {p : List HostLine} (h : r.left = l :: p) :
    r.move P .host =
      ⟨linesAfter (r.block.hostAccess (lineAccess l)).answer (l :: p), r.taken ++ [.bus (lineAccess l)],
        r.answered ++ [(r.block.hostAccess (lineAccess l)).answer], r.block.hostAccess (lineAccess l)⟩ := by
  simp [HostRun.move, h]

end Sys2Proof.Machine
end

