-- ==== Sys2Proof/Laws/Stream.lean ====
section
/-! SUPPORT. The laws of the stream (R157): what `State.Streamed` says is kept by every keystream block. -/

namespace Sys2Proof.Machine

variable {P : Params} {s : State}

theorem State.Planned.nblk_le (h : s.Planned) : s.ctx.nblk = blocks s.ctx.n := h.2.2.1

/-- Before the last block the count of keystream bytes is 16 J. -/
theorem Streamed.ksCount_eq (h : s.Streamed P) (hj : s.ctx.j < s.ctx.nblk) :
    s.ctx.ksCount = 16 * s.ctx.j ∧ 16 * s.ctx.j < s.ctx.n := by
  have h1 := h.1.nblk_le
  have h2 := h.2.2.2.1
  simp only [blocks] at h1
  omega

/-- After the last block the count is N (R158). -/
theorem Streamed.ksCount_full (h : s.Streamed P) (hj : s.ctx.j = s.ctx.nblk) : s.ctx.ksCount = s.ctx.n := by
  have h1 := h.1.nblk_le
  have h2 := h.2.2.2.1
  simp only [blocks] at h1
  omega

@[simp] theorem State.iv_takeBlock (k : Block) : (s.takeBlock P k).iv = s.iv := rfl

theorem State.Planned.takeBlock (h : s.Planned) (k : Block) : (s.takeBlock P k).Planned := h

/-- One ok answer keeps the stream's law: the block asked for is the next one. -/
theorem Streamed.takeBlock (h : s.Streamed P) (hj : s.ctx.j < s.ctx.nblk) (hwf : Memory.wf s.outBuf) :
    (s.takeBlock P (P.bc s.inst.variant s.inst.keyBytes s.ctx.ctr)).Streamed P := by
  obtain ⟨hk, hn⟩ := Streamed.ksCount_eq h hj
  obtain ⟨hp, hi, -, -, hiv, hctr, hout⟩ := h
  refine ⟨hp.takeBlock _, hi, hj, ?_, hiv, ?_, fun a => ?_⟩
  · simp only [State.takeBlock_ctx, hk, liveLanes]
    omega
  · simp only [State.takeBlock_ctx, hctr, State.iv_takeBlock, counterBlock]
  · rw [readByte_takeBlock P _ s hwf a, hout a]
    simp only [State.takeBlock_ctx, State.takeBlock_inBuf, State.takeBlock_inst, State.iv_takeBlock, hk, liveLanes]
    by_cases h1 : s.ctx.dst + 16 * s.ctx.j ≤ a ∧ a < s.ctx.dst + 16 * s.ctx.j + min 16 (s.ctx.n - 16 * s.ctx.j)
    · rw [if_pos h1, if_pos (by omega), keystreamByte, keyBlock, hctr,
        show (a - s.ctx.dst) / 16 = s.ctx.j by omega, show (a - s.ctx.dst) % 16 = a - s.ctx.dst - 16 * s.ctx.j by omega]
    · rw [if_neg h1]
      by_cases h2 : s.ctx.dst ≤ a ∧ a < s.ctx.dst + 16 * s.ctx.j
      · rw [if_pos h2, if_pos (by omega)]
      · rw [if_neg h2, if_neg (by omega)]

/-- What a stream that runs from `s` to `t` changes: the phase, OUT, the context's KSBUF, KS_COUNT, CTR and J, and the
port messages `msgs` (R157). -/
def State.StreamedTo (s t : State) (msgs : List PortMsg) : Prop :=
  t = { s with
    seq := t.seq, outBuf := t.outBuf, portLog := s.portLog ++ msgs,
    ctx := { s.ctx with ksBuf := t.ctx.ksBuf, ksCount := t.ctx.ksCount, ctr := t.ctx.ctr, j := t.ctx.j } }

/-- The live lanes of a block lie inside OUT. -/
theorem takeBlock_fits (k : Block) (h : Memory.Fits s.outBuf s.bufBytes) (hn : s.ctx.dst + s.ctx.n ≤ s.bufBytes)
    (hj : 16 * s.ctx.j < s.ctx.n) : Memory.Fits (s.takeBlock P k).outBuf s.bufBytes := by
  rw [State.takeBlock_outBuf]
  exact Memory.fits_writeBytes h (by simp only [xorLanes_length, liveLanes]; omega)

/-- `m` ok answers in BLK_WAIT take `m` blocks. -/
theorem drive_blocks (m : Nat) (hs : s.seq = .blkWait) (h : s.Streamed P) (hf : Memory.Fits s.outBuf s.bufBytes)
    (hn : s.ctx.dst + s.ctx.n ≤ s.bufBytes) (hj : s.ctx.j < s.ctx.nblk) (hm : s.ctx.j + m ≤ s.ctx.nblk) :
    ∃ t : State, (∀ tail, drive P (List.replicate m (.eng .ok) ++ tail) s = drive P tail t) ∧ t.Streamed P ∧
      Memory.Fits t.outBuf s.bufBytes ∧ t.ctx.j = s.ctx.j + m ∧
      t.seq = (if s.ctx.j + m < s.ctx.nblk then .blkWait else .commit) ∧
      s.StreamedTo t ((List.range' (s.ctx.j + 1) (min m (s.ctx.nblk - 1 - s.ctx.j))).map fun j =>
        .engBlock (counterBlock P (pad s.iv) j)) := by
  induction m generalizing s with
  | zero => exact ⟨s, fun _ => rfl, h, hf, rfl, by rw [if_pos (by omega), hs], by simp [State.StreamedTo]⟩
  | succ m ih =>
    have hst := Streamed.takeBlock h hj hf.1
    have hks := Streamed.ksCount_eq h hj
    have hft := takeBlock_fits (P := P) (P.bc s.inst.variant s.inst.keyBytes s.ctx.ctr) hf hn hks.2
    have hen : enabled s.seq (.eng .ok) = true := by simp [enabled, hs]
    by_cases hlast : s.ctx.j + 1 < s.ctx.nblk
    · obtain ⟨t, hd, h1, h2, h3, h4, h5⟩ := ih
        (s := (s.takeBlock P (P.bc s.inst.variant s.inst.keyBytes s.ctx.ctr)).nextBlock)
        (by rw [nextBlock_more (by simpa using hlast)]; simpa using hs)
        (by rw [nextBlock_more (by simpa using hlast)]; exact hst)
        (by rw [nextBlock_more (by simpa using hlast)]; exact hft)
        (by rw [nextBlock_more (by simpa using hlast)]; simpa using hn)
        (by rw [nextBlock_more (by simpa using hlast)]; simpa using hlast)
        (by rw [nextBlock_more (by simpa using hlast)]; simp; omega)
      rw [nextBlock_more (by simpa using hlast)] at hd h2 h3 h4 h5
      simp only [State.send_ctx, State.takeBlock_ctx, State.send_bufBytes, State.takeBlock_bufBytes] at h2 h3 h4 h5
      refine ⟨t, fun tail => ?_, h1, h2, by omega, by rw [h4]; congr 1; simp; omega, ?_⟩
      · rw [List.replicate_succ, List.cons_append, drive_enabled _ hen, seqMove_block hs, answerBlock_ok,
          nextBlock_more (by simpa using hlast), hd]
      · unfold State.StreamedTo at h5 ⊢
        rw [h5]
        have hmsg : (List.range' (s.ctx.j + 1) (min (m + 1) (s.ctx.nblk - 1 - s.ctx.j))).map
            (fun j => PortMsg.engBlock (counterBlock P (pad s.iv) j)) =
          .engBlock (P.ctrInc s.ctx.ctr) ::
            (List.range' (s.ctx.j + 1 + 1) (min m (s.ctx.nblk - 1 - (s.ctx.j + 1)))).map
              (fun j => PortMsg.engBlock (counterBlock P (pad s.iv) j)) := by
          rw [show min (m + 1) (s.ctx.nblk - 1 - s.ctx.j) = min m (s.ctx.nblk - 1 - (s.ctx.j + 1)) + 1 by omega,
            List.range'_succ, List.map_cons, counterBlock, h.2.2.2.2.2.1]
        rw [hmsg]
        simp only [State.send_portLog, State.takeBlock_portLog, List.append_assoc, List.singleton_append]
        rfl
    · have hm0 : m = 0 := by omega
      subst hm0
      refine ⟨{ s.takeBlock P (P.bc s.inst.variant s.inst.keyBytes s.ctx.ctr) with seq := .commit }, fun tail => ?_,
        hst, hft, rfl, by rw [if_neg hlast], ?_⟩
      · rw [List.replicate_succ, List.cons_append, drive_enabled _ hen, seqMove_block hs, answerBlock_ok,
          nextBlock_last (by simpa using hlast)]
        rfl
      · rw [show min (0 + 1) (s.ctx.nblk - 1 - s.ctx.j) = 0 by omega]
        simp [State.StreamedTo, State.takeBlock]

/-- The engine's ok answer to `eng_init` and `m` ok answers to `eng_block`, from INIT_WAIT: `m` blocks are taken, and the
next request is out unless there is no next block. -/
theorem drive_stream (m : Nat) (hs : s.seq = .initWait) (h : s.Streamed P) (hf : Memory.Fits s.outBuf s.bufBytes)
    (hn : s.ctx.dst + s.ctx.n ≤ s.bufBytes) (hj : s.ctx.j = 0) (hm : m ≤ s.ctx.nblk) :
    ∃ t : State, (∀ tail, drive P (.eng .ok :: (List.replicate m (.eng .ok) ++ tail)) s = drive P tail t) ∧ t.Streamed P ∧
      Memory.Fits t.outBuf s.bufBytes ∧ t.ctx.j = m ∧ t.seq = (if m < s.ctx.nblk then .blkWait else .commit) ∧
      s.StreamedTo t ((List.range (min (m + 1) s.ctx.nblk)).map fun j => .engBlock (counterBlock P (pad s.iv) j)) := by
  have hen : enabled s.seq (.eng .ok) = true := by simp [enabled, hs]
  have hnb := h.1.nblk_le
  simp only [blocks] at hnb
  by_cases h0 : s.ctx.n = 0
  · have hm0 : m = 0 := by omega
    subst hm0
    refine ⟨{ s with seq := .commit }, fun tail => ?_, h, hf, hj, by rw [if_neg (by omega)], ?_⟩
    · rw [drive_enabled _ hen, seqMove_init hs, answerInit_empty h0]; rfl
    · rw [show min (0 + 1) s.ctx.nblk = 0 by omega]
      simp [State.StreamedTo]
  · obtain ⟨t, hd, h1, h2, h3, h4, h5⟩ := drive_blocks (P := P) (s := { s.send (.engBlock s.ctx.ctr) with seq := .blkWait }) m
      rfl h hf hn (by simp only [State.send_ctx]; omega) (by simp only [State.send_ctx]; omega)
    simp only [State.send_ctx, hj, Nat.zero_add, Nat.sub_zero] at h3 h4 h5
    refine ⟨t, fun tail => ?_, h1, h2, h3, h4, ?_⟩
    · rw [drive_enabled _ hen, seqMove_init hs, answerInit_first h0, hd]
    · have hmsg : (List.range (min (m + 1) s.ctx.nblk)).map (fun j => PortMsg.engBlock (counterBlock P (pad s.iv) j)) =
          .engBlock s.ctx.ctr :: (List.range' 1 (min m (s.ctx.nblk - 1))).map
            (fun j => PortMsg.engBlock (counterBlock P (pad s.iv) j)) := by
        rw [show min (m + 1) s.ctx.nblk = min m (s.ctx.nblk - 1) + 1 by omega, List.range_eq_range', List.range'_succ,
          List.map_cons, h.2.2.2.2.2.1, hj]
      unfold State.StreamedTo at h5 ⊢
      rw [hmsg, h5]
      simp only [State.send_portLog, List.append_assoc, List.singleton_append]
      rfl

end Sys2Proof.Machine
end

