-- ==== Sys2Proof/Laws/Invariant.lean ====
section
/-! SUPPORT. What the invariant says in each phase, and the bounds that follow from it. -/

namespace Sys2Proof.Machine

variable {P : Params} {s : State}

theorem State.Inv.at_rstClr (h : s.Inv P) (hs : s.seq = .rstClr) :
    s.Quiet ∧ s.ctx = Context.zero ∧ s.inBuf = [] ∧ s.outBuf = [] ∧ s.inst = CipherInst.absent := by
  have := h.phase
  simpa only [State.PhaseOk, hs] using this

theorem State.Inv.at_idle (h : s.Inv P) (hs : s.seq = .idle) :
    s.ctx = Context.zero ∧ s.outLen.toNat ≤ s.bufBytes ∧
      (∀ a, s.outLen.toNat ≤ a → Memory.readByte s.outBuf a = 0) ∧ (s.error = true → s.outLen = 0) := by
  have := h.phase
  simpa only [State.PhaseOk, hs] using this

theorem State.Inv.at_check (h : s.Inv P) (hs : s.seq = .check) :
    s.Quiet ∧ s.outBuf = [] ∧ ∃ o, s.ctx = { Context.zero with opc := o } := by
  have := h.phase
  simpa only [State.PhaseOk, hs] using this

theorem State.Inv.at_rngWait (h : s.Inv P) (hs : s.seq = .rngWait) :
    s.Quiet ∧ s.outBuf = [] ∧ s.Planned ∧ s.ctx.opc = .encrypt ∧ s.ctx.j = 0 ∧ s.ctx.ksCount = 0 ∧
      s.ctx.initIssued = false := by
  have := h.phase
  simpa only [State.PhaseOk, hs] using this

theorem State.Inv.at_initWait (h : s.Inv P) (hs : s.seq = .initWait) :
    s.Quiet ∧ s.Streamed P ∧ s.ctx.j = 0 := by
  have := h.phase
  simpa only [State.PhaseOk, hs] using this

theorem State.Inv.at_blkWait (h : s.Inv P) (hs : s.seq = .blkWait) :
    s.Quiet ∧ s.Streamed P ∧ s.ctx.j < s.ctx.nblk := by
  have := h.phase
  simpa only [State.PhaseOk, hs] using this

theorem State.Inv.at_commit (h : s.Inv P) (hs : s.seq = .commit) :
    s.Quiet ∧ s.Streamed P ∧ s.ctx.j = s.ctx.nblk := by
  have := h.phase
  simpa only [State.PhaseOk, hs] using this

theorem State.Inv.at_abort (h : s.Inv P) (hs : s.seq = .abort) :
    s.Quiet ∧ s.ctx.code ≠ none := by
  have := h.phase
  simpa only [State.PhaseOk, hs] using this

/-- The IV size of a valid instance (R37). -/
theorem CipherInst.Ok.bounds {c : CipherInst} (h : c.Ok) (hv : c.valid = true) : 12 ≤ c.ivBytes ∧ c.ivBytes ≤ 16 := by
  simp only [CipherInst.Ok, hv, if_true] at h
  exact ⟨h.2.1, h.2.2.1⟩

theorem State.Planned.opc_cases (h : s.Planned) : s.ctx.opc = .encrypt ∨ s.ctx.opc = .decrypt := by
  obtain ⟨-, -, -, hp⟩ := h
  cases ho : s.ctx.opc <;> simp_all

/-- The body of the running stream lies inside OUT (R162). -/
theorem Streamed.inside (h : s.Streamed P) (hi : s.inst.Ok) : s.ctx.dst + s.ctx.n ≤ s.bufBytes := by
  obtain ⟨⟨hv, -, -, hp⟩, -⟩ := h
  have hb := hi.bounds hv
  cases ho : s.ctx.opc <;> simp only [ho] at hp
  · obtain ⟨h1, h2, h3, h4⟩ := hp; omega
  · obtain ⟨h1, h2, h3, h4, h5, -⟩ := hp; omega

/-- A length that fits the largest buffer fits a register (R9, R29). -/
theorem outLen_toNat {n : Nat} (h : n ≤ 65536) : (BitVec.ofNat 32 n).toNat = n := by
  rw [BitVec.toNat_ofNat, Nat.mod_eq_of_lt (by omega)]

/-- A new input list keeps the invariant. -/
theorem State.Inv.withEvents (h : s.Inv P) (es : List Event) : ({ s with events := es } : State).Inv P :=
  ⟨h.cap, h.inst, h.inFits, h.outFits, h.fits, h.errorBit, h.doneIdle, h.phase⟩

end Sys2Proof.Machine
end

