-- ==== Sys2Proof/Laws/PerInstr.lean ====
section
/-! SUPPORT. Statements made per instruction (LAWS.json): the fields of an encoded command (R101, R102). -/

namespace Sys2Proof.Laws.EncodedFields

/-- The word of a well-formed command carries its OP below and zero reserved bits above, and its bytes are the bus's. -/
def Statement (i : Instr) : Prop :=
  i.wf = true ∧ fieldsOfWord (encode i) = i.fields ∧ (encode i).extractLsb' 4 28 = 0 ∧
    encodeBytes i = [byteLane (encode i) 0, 0, 0, 0]

theorem create : Statement .create := by unfold Statement; decide

theorem encrypt : Statement .encrypt := by unfold Statement; decide

theorem decrypt : Statement .decrypt := by unfold Statement; decide

end Sys2Proof.Laws.EncodedFields
end

