-- ==== Sys2Proof/Tests/Slice0.lean ====
section
/-! SUPPORT. The model's own tests: ill-formed terms refused, words written out from the spec's encodings, the vectors of
spec/95_test_vectors.md, and for every statement with hypotheses a concrete state and operands that meet them. The
expected values are the spec's. -/

namespace Sys2Proof.Tests

open Sys2Proof Sys2Proof.Machine

/-! ## States -/

/-- The identity engine `BC_ID` of 95_test_vectors.md, with R152's increment. -/
def identityEngine : Params := ⟨fun _ _ c => c, ctrIncBE⟩

/-- Just after reset and its clearing step. -/
def idle : State := { State.reset with seq := .idle }

/-- A valid instance of a 16-byte zero key. -/
def zeroKey (iv : BitVec 5) : CipherInst := ⟨true, KeyBytes.zero, 16, iv, .v128⟩

/-- IDLE with an instance of a 16-byte zero key and a message length. -/
def ready (iv : BitVec 5) (inLen : Word) (events : List Event) : State :=
  { idle with inst := zeroKey iv, inLen := inLen, events := events }

/-- IDLE with the staging registers of a CREATE. -/
def staged (keyLen ivSize : Word) : State := { idle with keyLen := keyLen, ivSize := ivSize }

/-- An accepted command of this OPC. -/
def accepted (opc : Opc) (s : State) : State := { s with seq := .check, ctx := { Context.zero with opc := opc } }

/-- A write of a word, as an input. -/
def wr (off : Nat) (v : Word) : Event := .bus (.write .w32 off v)

/-! ## Ill-formed terms are refused -/

theorem test_reserved_op_is_ill_formed : (CmdFields.mk 4 0).wf = false := by decide

theorem test_reserved_bits_are_ill_formed : (CmdFields.mk 2 1).wf = false := by decide

theorem test_half_word_access_is_ill_formed : (Access.read .w16 0).wf = false := by decide

theorem test_misaligned_access_is_ill_formed : (Access.write .w32 0x10002 5).wf = false := by decide

/-- R110: 32-bit numbers. -/
theorem test_wide_offset_is_ill_formed : (HostLine.rd 0x100000000 none).wf = false := by decide

/-- R110, R111: IN+4w passes 0xFFFFFFFF. -/
theorem test_ldin_offsets_are_checked : (Pseudo.ldIn (List.replicate (2 ^ 32) 0)).wf = false := by
  simp only [Pseudo.wf, List.length_replicate]
  decide

/-! ## Decoding: words written out from spec/30_encoding.md R101 and R102 -/

/-- RSV of twenty-eight zeros, OP 0001. -/
theorem test_decode_create : decodeWord 0b00000000000000000000000000000001 = .ok .create := by decide

/-- RSV of twenty-eight zeros, OP 0010. -/
theorem test_decode_encrypt : decodeWord 0b00000000000000000000000000000010 = .ok .encrypt := by decide

/-- RSV of twenty-eight zeros, OP 0011. -/
theorem test_decode_decrypt : decodeWord 0b00000000000000000000000000000011 = .ok .decrypt := by decide

/-- The bytes of CREATE on the bus, the least significant first (R63). -/
theorem test_decode_bytes : decode [0x01, 0x00, 0x00, 0x00, 0xaa] = .ok (.create, [0xaa]) := by decide

/-- R105: RSV ≠ 0 under a legal OP. -/
theorem test_decode_reserved_bits : decodeWord 0x00000012 = .error .reservedBitsSet := by decide

theorem test_decode_reserved_op : decodeWord 0x00000004 = .error .reservedOp := by decide

theorem test_decode_truncated : decode [0x01, 0x00, 0x00] = .error .truncated := by decide

theorem test_decode_table_word : decodeTableWord 32 3 = some .decrypt ∧ decodeTableWord 32 0 = none := by decide

/-! ## The datapath: the vectors of section 2.4 -/

theorem test_pad_13 : pad [0xa0, 0xa1, 0xa2, 0xa3, 0xa4, 0xa5, 0xa6, 0xa7, 0xa8, 0xa9, 0xaa, 0xab, 0xac] =
    #v[0xa0, 0xa1, 0xa2, 0xa3, 0xa4, 0xa5, 0xa6, 0xa7, 0xa8, 0xa9, 0xaa, 0xab, 0xac, 0x00, 0x00, 0x00] := by decide

/-- The carry into byte 14. -/
theorem test_counter_carry : ctrIncBE #v[0xf0, 0xf1, 0xf2, 0xf3, 0xf4, 0xf5, 0xf6, 0xf7, 0xf8, 0xf9, 0xfa, 0xfb, 0xfc,
    0xfd, 0xfe, 0xff] = #v[0xf0, 0xf1, 0xf2, 0xf3, 0xf4, 0xf5, 0xf6, 0xf7, 0xf8, 0xf9, 0xfa, 0xfb, 0xfc, 0xfd, 0xff,
    0x00] := by decide

/-- The carry to byte 0. -/
theorem test_counter_carry_to_byte_0 : ctrIncBE #v[0x00, 0xff, 0xff, 0xff, 0xff, 0xff, 0xff, 0xff, 0xff, 0xff, 0xff, 0xff,
    0xff, 0xff, 0xff, 0xff] = #v[0x01, 0x00, 0x00, 0x00, 0x00, 0x00, 0x00, 0x00, 0x00, 0x00, 0x00, 0x00, 0x00, 0x00, 0x00,
    0x00] := by decide

theorem test_blocks : [0, 1, 15, 16, 17, 32, 33, 4096].map blocks = [0, 1, 1, 1, 2, 2, 3, 256] := by decide

theorem test_live_lanes : [liveLanes 1 0, liveLanes 16 0, liveLanes 17 1, liveLanes 20 1, liveLanes 33 2] =
    [1, 16, 1, 4, 1] := by decide

/-! ## The commands -/

/-- Section 2.3: KEY_LEN 32, IV_SIZE 13. -/
theorem test_create_installs :
    ((issue identityEngine .create (staged 32 13)).hostRead 0x00020, (issue identityEngine .create (staged 32 13)).statusWord)
      = (0x000D2003, 0x2) := by decide

/-- Section 2.3: KEY_LEN 20 over a valid instance. -/
theorem test_create_invalidates :
    ((issue identityEngine .create { staged 20 12 with inst := zeroKey 12 }).errWord,
      (issue identityEngine .create { staged 20 12 with inst := zeroKey 12 }).hostRead 0x00020) = (1, 0) := by decide

/-- V-T1: the OUT words, the last word of the body cut to four bytes. -/
theorem test_encrypt_identity_engine :
    (List.range 9).map (fun i => Memory.readWord (issue identityEngine .encrypt (ready 12 20
      [.internal, .rng (pad [1, 2, 3, 4, 5, 6, 7, 8, 9, 10, 11, 12]), .eng .ok, .eng .ok, .eng .ok, .internal])).outBuf
      (4 * i)) = [0x04030201, 0x08070605, 0x0c0b0a09, 0x04030201, 0x08070605, 0x0c0b0a09, 0x00000000, 0x04030201, 0] := by
  decide

/-- V-E8: the second block fails. -/
theorem test_encrypt_block_failure :
    ((issue identityEngine .encrypt (ready 12 33
      [.internal, .rng Block.zero, .eng .ok, .eng .ok, .eng .fail, .internal])).errWord,
      (issue identityEngine .encrypt (ready 12 33
      [.internal, .rng Block.zero, .eng .ok, .eng .ok, .eng .fail, .internal])).outBuf) = (5, []) := by
  decide

/-- V-D5 cut to its first byte: s = 15, body fe, C_0 = 0102…0f00, so the plaintext byte is ff. -/
theorem test_decrypt_identity_engine :
    Memory.readByte (issue identityEngine .decrypt { ready 15 16 [.internal, .eng .ok, .eng .ok, .internal] with
      inBuf := Memory.writeBytes [] 0 [1, 2, 3, 4, 5, 6, 7, 8, 9, 10, 11, 12, 13, 14, 15, 0xfe] }).outBuf 0 = 0xff := by
  decide

/-- V-D7: 11 bytes under a 12-byte IV. -/
theorem test_decrypt_too_short : (issue identityEngine .decrypt (ready 12 11 [])).errWord = 3 := by decide

/-- Section 2.1: 0x00000012 completes with code 10. -/
theorem test_illegal_word : (issue identityEngine (Opc.ofWord 0x00000012) idle).errWord = 10 := by decide

/-! ## The host port: the vectors of section 2.2 -/

theorem test_id : idle.hostRead 0x00000 = 0x43545201 := by decide

/-- WR 0x00040, 0x4c4c4559: KEY_STAGE starts with "YELL". -/
theorem test_key_lanes : (idle.hostWrite 0x00040 0x4c4c4559).keyStage.toList.take 5 = [0x59, 0x45, 0x4c, 0x4c, 0x00] := by
  decide

/-- WR 0x10000, 0x44332211: IN[1] = 0x22, IN[3] = 0x44. -/
theorem test_in_lanes :
    (Memory.readByte (idle.hostWrite 0x10000 0x44332211).inBuf 1, Memory.readByte (idle.hostWrite 0x10000 0x44332211).inBuf 3) =
      (0x22, 0x44) := by decide

/-- A 32-bit write at 0x10002: the bus error, IN unchanged. -/
theorem test_bus_error :
    ((idle.hostAccess (.write .w32 0x10002 7)).resp, (idle.hostAccess (.write .w32 0x10002 7)).inBuf) =
      (some ⟨true, 0⟩, []) := by decide

/-- V-R3: KEY_LEN written in RST_CLR is dropped and STATUS reads 0x9. -/
theorem test_write_while_clearing :
    ((State.reset.hostWrite 0x00010 16).keyLen, (State.reset.hostWrite 0x00010 16).hostRead 0x00008) = (0, 9) := by decide

/-- P1: LDKEY's lines, the last word filled with zeros. -/
theorem test_ldkey_lines : expandPseudo (.ldKey [1, 2, 3, 4, 5] 5) =
    [.wr 0x00040 0x04030201, .wr 0x00044 0x00000005, .wr 0x00010 5] := by decide

/-- R111: fewer bytes than L, the bytes past the end taken as 0. -/
theorem test_ldkey_short : ((Pseudo.ldKey [1, 2, 3] 5).wf, expandPseudo (.ldKey [1, 2, 3] 5)) =
    (true, [.wr 0x00040 0x00030201, .wr 0x00044 0x00000000, .wr 0x00010 5]) := by decide

/-- R111: more bytes than L, and L beyond 32 cut to eight KEY words. -/
theorem test_ldkey_long : ((expandPseudo (.ldKey (List.replicate 40 7) 4)), (expandPseudo (.ldKey [] 0xFFFFFFFF)).length) =
    ([.wr 0x00040 0x07070707, .wr 0x00010 4], 9) := by decide

/-- R110, R111: IN word 49152 is written at 0x40000, not at ID. -/
theorem test_ldin_does_not_wrap : lineAccess (.wr (inOffset 49153) 1) = .write .w32 0x40004 1 := by decide

/-- R64, R65: at 0x40004 a read returns 0 and a write does nothing, neither a command nor an error. -/
theorem test_lines_beyond_the_space :
    (hostRun identityEngine [.host, .host] [.wr 0x40004 1, .rd 0x40000 none] idle).block =
      { idle with resp := some ⟨false, 0⟩ } := by decide

/-- R110, R112: two POLLs that need 1 and 3 reads. -/
theorem test_polls_of_different_length :
    transactions [0, 0, 1, 1, 2] (expandPseudo .waitIdle ++ expandPseudo .create ++ expandPseudo .waitDone) =
      [.read .w32 0x00008, .write .w32 0x00004 1, .read .w32 0x00008, .read .w32 0x00008, .read .w32 0x00008] := by decide

/-- WAITIDLE in RST_CLR reads once more after the clearing step, then CREATE and WAITDONE; every line is done. -/
theorem test_program_on_the_block :
    (hostRun identityEngine [.host, .other .internal, .host, .host, .host, .other .internal, .other .internal, .host]
      (expandPseudo .waitIdle ++ expandPseudo .create ++ expandPseudo .waitDone) State.reset).left = [] := by decide

/-- The same run's answers: STATUS reads 1 in RST_CLR, then 0, the write, 1 while CREATE runs, and 6 at its failure (code 1). -/
theorem test_program_answers :
    (hostRun identityEngine [.host, .other .internal, .host, .host, .host, .other .internal, .other .internal, .host]
      (expandPseudo .waitIdle ++ expandPseudo .create ++ expandPseudo .waitDone) State.reset).answered = [1, 0, 0, 1, 6] := by
  decide

/-- R130, R71 (V-C5's staging over an instance of 16 and 16): after acceptance INST reads the old view 0x00101001, the
CHECK step writes the new one and goes to COMMIT, and the turn ends in IDLE, where INST reads 0x000E1001. -/
theorem test_inst_during_create :
    ((State.accept .create { staged 16 14 with inst := zeroKey 16 }).hostRead 0x00020,
      (checkStep (accepted .create { staged 16 14 with inst := zeroKey 16 })).inst.view,
      (checkStep (accepted .create { staged 16 14 with inst := zeroKey 16 })).seq) =
      (0x00101001, 0x000E1001, .commit) ∧
    ((tick identityEngine (accepted .create { staged 16 14 with inst := zeroKey 16 })).seq,
      (tick identityEngine (accepted .create { staged 16 14 with inst := zeroKey 16 })).hostRead 0x00020) =
      (.idle, 0x000E1001) := by decide

/-! ## Every statement's hypotheses are met by a concrete state and operands -/

theorem witness_StepRunsTheDecodedCommand :
    (∃ (s : State) (w : Word) (more : List Event) (i : Instr),
      s.events = .bus (.write .w32 0x00004 w) :: more ∧ decodeCommand w = some i) ∧
    ∃ s : State, ∀ (w : Word) (more : List Event), s.events ≠ .bus (.write .w32 0x00004 w) :: more :=
  ⟨⟨ready 12 0 [wr 0x00004 2], 2, [], .encrypt, rfl, by decide⟩, ⟨ready 12 0 [.internal], by simp [ready]⟩⟩

theorem witness_IllegalWordFails : ∃ (s : State) (w : Word) (more rest : List Event), s.seq = .idle ∧
    s.events = .bus (.write .w32 0x00004 w) :: more ∧ ({ s with events := more } : State).Comes [] 2 rest ∧
    w ≠ 0x00000001 ∧ w ≠ 0x00000002 ∧ w ≠ 0x00000003 :=
  ⟨ready 12 0 [wr 0x00004 0, .internal, .internal, .stale], 0, _, [.stale], rfl, rfl, .inl rfl, by decide⟩

theorem witness_CommandWhileBusyIsDropped : ∃ (s : State) (w : Word) (more : List Event), s.seq ≠ .idle ∧
    s.events = .bus (.write .w32 0x00004 w) :: more :=
  ⟨{ State.reset with events := [wr 0x00004 1] }, 1, [], by decide, rfl⟩

theorem witness_CreateInstallsTheStagedInstance : ∃ (s : State) (rest : List Event), s.seq = .idle ∧
    (s.keyLen = 16 ∨ s.keyLen = 32) ∧ 12 ≤ s.ivSize.toNat ∧ s.ivSize.toNat ≤ 16 ∧ s.Comes [] 1 rest :=
  ⟨staged 32 16, [], rfl, by decide, by decide, by decide, .inr ⟨rfl, 0, by decide, rfl⟩⟩

theorem witness_CreateRejectsKeyLength :
    (∃ (s : State) (rest : List Event), s.seq = .idle ∧ s.Comes [] 2 rest ∧ s.keyLen ≠ 16 ∧ s.keyLen ≠ 32) ∧
    ∃ (s : State) (rest : List Event), s.seq = .idle ∧ s.Comes [] 2 rest ∧ ¬ (s.keyLen ≠ 16 ∧ s.keyLen ≠ 32) :=
  ⟨⟨staged 33 12, [], rfl, .inr ⟨rfl, 0, by decide, rfl⟩, by decide, by decide⟩,
    ⟨staged 32 12, [], rfl, .inr ⟨rfl, 0, by decide, rfl⟩, by decide⟩⟩

theorem witness_CreateRejectsIvSize :
    (∃ (s : State) (rest : List Event), s.seq = .idle ∧ s.Comes [] 2 rest ∧ (s.keyLen = 16 ∨ s.keyLen = 32) ∧
      s.ivSize.toNat < 12) ∧
    (∃ (s : State) (rest : List Event), s.seq = .idle ∧ s.Comes [] 2 rest ∧ (s.keyLen = 16 ∨ s.keyLen = 32) ∧
      16 < s.ivSize.toNat) :=
  ⟨⟨staged 16 11, [], rfl, .inr ⟨rfl, 0, by decide, rfl⟩, by decide, by decide⟩,
    ⟨staged 16 17, [], rfl, .inr ⟨rfl, 0, by decide, rfl⟩, by decide, by decide⟩⟩

theorem witness_FailedCreateInvalidates : ∃ (s t u : State) (rest : List Event), s.seq = .idle ∧ exec .create s = .next t ∧
    t.seq = .idle ∧ t.error = true ∧ u.inst = t.inst ∧ u.seq = .idle ∧ u.Comes [] 2 rest :=
  ⟨staged 15 16, _, idle, [], rfl, rfl, by decide, by decide, by decide, rfl, .inr ⟨rfl, 0, by decide, rfl⟩⟩

theorem witness_OnlyCreateAndResetChangeTheInstance :
    (∃ (P : Params) (s : State), (tick P s).inst ≠ s.inst ∧ s.ctx.opc = .create) ∧
    (∃ (P : Params) (s : State), (tick P s).inst ≠ s.inst ∧ s.events = [.reset]) ∧
    ∃ (i : Instr) (s t : State), i ≠ .create ∧ exec i s = .next t :=
  ⟨⟨identityEngine, accepted .create (staged 16 12), by decide, rfl⟩, ⟨identityEngine, ready 12 0 [.reset], by decide, rfl⟩,
    ⟨.encrypt, idle, _, by decide, rfl⟩⟩

theorem witness_EncryptCompletesWithIvAndBody : ∃ (s : State) (b : Block) (rest : List Event), s.seq = .idle ∧ s.inst.Ok ∧
    s.inst.valid = true ∧ CapOk s.bufBytes ∧ s.inLen.toNat + s.inst.ivSize.toNat ≤ s.bufBytes ∧
    s.Comes (encryptOks b (blocks s.inLen.toNat)) 1 rest :=
  ⟨ready 12 4084 (encryptOks Block.zero 256 ++ [.internal, .stale]), Block.zero, [.stale], rfl, by decide, rfl, by decide,
    by decide, .inl (by simp [ready, blocks])⟩

theorem witness_EncryptPreconditions :
    (∃ (s : State) (rest : List Event), s.seq = .idle ∧ s.Comes [] 2 rest ∧ s.inst.valid = false) ∧
    ∃ (s : State) (rest : List Event), s.seq = .idle ∧ s.Comes [] 2 rest ∧ s.inst.valid = true ∧
      s.bufBytes < s.inLen.toNat + s.inst.ivSize.toNat :=
  ⟨⟨idle, [], rfl, .inr ⟨rfl, 0, by decide, rfl⟩, rfl⟩, ⟨ready 12 4085 [], [], rfl, .inr ⟨rfl, 0, by decide, rfl⟩, rfl, by decide⟩⟩

theorem witness_EncryptEngineFailures :
    (∃ (s : State) (b : Block) (rest : List Event), s.seq = .idle ∧ s.inst.Ok ∧ s.inst.valid = true ∧
      s.inLen.toNat + s.inst.ivSize.toNat ≤ s.bufBytes ∧ s.Comes [.internal, .rng b, .eng .fail] 1 rest) ∧
    ∃ (s : State) (b : Block) (rest : List Event) (m : Nat), s.seq = .idle ∧ s.inst.Ok ∧ s.inst.valid = true ∧
      s.inLen.toNat + s.inst.ivSize.toNat ≤ s.bufBytes ∧ m < blocks s.inLen.toNat ∧
      s.Comes (encryptOks b m ++ [.eng .fail]) 1 rest :=
  ⟨⟨ready 12 0 [.internal, .rng Block.zero, .eng .fail], Block.zero, [], rfl, by decide, rfl, by decide,
      .inr ⟨rfl, 0, by decide, rfl⟩⟩,
    ⟨ready 12 33 [.internal, .rng Block.zero, .eng .ok, .eng .ok, .eng .ok, .eng .fail], Block.zero, [], 2, rfl, by decide, rfl,
      by decide, by decide, .inr ⟨rfl, 0, by decide, rfl⟩⟩⟩

theorem witness_EncryptRequestsOneIvAndWaits :
    (∃ (s : State) (rest : List Event), s.seq = .idle ∧ s.inst.valid = true ∧
      s.inLen.toNat + s.inst.ivSize.toNat ≤ s.bufBytes ∧ s.Turn rest ∧ (∀ b more, rest ≠ .rng b :: more) ∧ rest = []) ∧
    ∃ (s : State) (rest : List Event), s.seq = .idle ∧ s.inst.valid = true ∧
      s.inLen.toNat + s.inst.ivSize.toNat ≤ s.bufBytes ∧ s.Turn rest ∧ (∀ b more, rest ≠ .rng b :: more) ∧ rest ≠ [] :=
  ⟨⟨ready 16 4080 [], [], rfl, rfl, by decide, .inr ⟨rfl, rfl⟩, by simp, rfl⟩,
    ⟨ready 12 20 [.internal, wr 0x00018 5], [wr 0x00018 5], rfl, rfl, by decide, .inl rfl, by simp [wr], by simp⟩⟩

/-- An ENCRYPT that waits for its IV. -/
def waitingForIv (events : List Event) : State :=
  { ready 12 20 events with
    seq := .rngWait
    portLog := [.rng 12]
    ctx := { Context.zero with opc := .encrypt, n := 20, src := 0, dst := 12, nblk := 2 } }

theorem waitingForIv_inv (P : Params) (events : List Event) : (waitingForIv events).Inv P :=
  ⟨by show CapOk 4096; decide, by show (zeroKey 12).Ok; decide, by show Memory.Fits [] 4096; decide,
    by show Memory.Fits [] 4096; decide,
    by show Context.Fits { Context.zero with opc := .encrypt, n := 20, src := 0, dst := 12, nblk := 2 }; decide, rfl,
    (fun h => by cases h),
    ⟨⟨rfl, rfl, rfl, rfl⟩, rfl, ⟨rfl, rfl, by show 2 = blocks 20; decide, rfl, rfl, rfl, by show 20 + 12 ≤ 4096; decide⟩,
      rfl, rfl, rfl, rfl⟩⟩

theorem witness_TrngAnswerStartsTheStream : ∃ (P : Params) (s : State) (b : Block) (more : List Event), s.Inv P ∧
    s.seq = .rngWait ∧ s.events = .rng b :: more :=
  ⟨identityEngine, waitingForIv [.rng Block.zero], Block.zero, [], waitingForIv_inv _ _, rfl, rfl⟩

theorem witness_DecryptCompletesWithPlaintext : ∃ (s : State) (rest : List Event), s.seq = .idle ∧ s.inst.Ok ∧
    s.inst.valid = true ∧ CapOk s.bufBytes ∧ s.inst.ivSize.toNat ≤ s.inLen.toNat ∧ s.inLen.toNat ≤ s.bufBytes ∧
    s.Comes (decryptOks (blocks (s.inLen.toNat - s.inst.ivSize.toNat))) 1 rest :=
  ⟨ready 12 29 [.internal, .eng .ok, .eng .ok, .eng .ok], [], rfl, by decide, rfl, by decide, by decide, by decide,
    .inr ⟨rfl, 0, by decide, by decide⟩⟩

theorem witness_DecryptPreconditions :
    (∃ (s : State) (rest : List Event), s.seq = .idle ∧ s.Comes [] 2 rest ∧ s.inst.valid = false) ∧
    ∃ (s : State) (rest : List Event), s.seq = .idle ∧ s.Comes [] 2 rest ∧ s.inst.valid = true ∧
      s.bufBytes < s.inLen.toNat ∧ s.inst.Ok ∧ CapOk s.bufBytes :=
  ⟨⟨idle, [], rfl, .inr ⟨rfl, 0, by decide, rfl⟩, rfl⟩,
    ⟨ready 12 4097 [], [], rfl, .inr ⟨rfl, 0, by decide, rfl⟩, rfl, by decide, by decide, by decide⟩⟩

theorem witness_DecryptRejectsShortCiphertext :
    (∃ (s : State) (rest : List Event), s.seq = .idle ∧ s.inst.Ok ∧ s.inst.valid = true ∧ CapOk s.bufBytes ∧
      s.Comes [] 2 rest ∧ s.inLen.toNat < s.inst.ivSize.toNat) ∧
    (∃ (s : State) (rest : List Event), s.seq = .idle ∧ s.inst.Ok ∧ s.inst.valid = true ∧ CapOk s.bufBytes ∧
      s.Comes [] 2 rest ∧ ¬ s.inLen.toNat < s.inst.ivSize.toNat) ∧
    ∃ (s : State) (rest : List Event), s.seq = .idle ∧ s.inst.Ok ∧ s.inst.valid = true ∧ CapOk s.bufBytes ∧
      s.Comes [.internal, .eng .ok] 1 rest ∧ s.inLen.toNat = s.inst.ivSize.toNat :=
  ⟨⟨ready 12 11 [], [], rfl, by decide, rfl, by decide, .inr ⟨rfl, 0, by decide, rfl⟩, by decide⟩,
    ⟨ready 12 12 [], [], rfl, by decide, rfl, by decide, .inr ⟨rfl, 0, by decide, rfl⟩, by decide⟩,
    ⟨ready 12 12 [.internal, .eng .ok], [], rfl, by decide, rfl, by decide, .inr ⟨rfl, 0, by decide, rfl⟩, by decide⟩⟩

theorem witness_DecryptEngineFailures :
    (∃ (s : State) (rest : List Event), s.seq = .idle ∧ s.inst.Ok ∧ s.inst.valid = true ∧
      s.inst.ivSize.toNat ≤ s.inLen.toNat ∧ s.inLen.toNat ≤ s.bufBytes ∧ s.Comes [.internal, .eng .fail] 1 rest) ∧
    ∃ (s : State) (rest : List Event) (m : Nat), s.seq = .idle ∧ s.inst.Ok ∧ s.inst.valid = true ∧
      s.inst.ivSize.toNat ≤ s.inLen.toNat ∧ s.inLen.toNat ≤ s.bufBytes ∧
      m < blocks (s.inLen.toNat - s.inst.ivSize.toNat) ∧ s.Comes (decryptOks m ++ [.eng .fail]) 1 rest :=
  ⟨⟨ready 12 12 [.internal, .eng .fail], [], rfl, by decide, rfl, by decide, by decide, .inr ⟨rfl, 0, by decide, rfl⟩⟩,
    ⟨ready 12 13 [.internal, .eng .ok, .eng .fail], [], 0, rfl, by decide, rfl, by decide, by decide, by decide,
      .inr ⟨rfl, 0, by decide, rfl⟩⟩⟩

/-- IDLE with an instance, quiet otherwise, meets the invariant. -/
theorem ready_inv (P : Params) (iv : BitVec 5) (h : 12 ≤ iv.toNat ∧ iv.toNat ≤ 16) (n : Word) (events : List Event) :
    (ready iv n events).Inv P := by
  refine ⟨by show CapOk 4096; decide, ?_, by show Memory.Fits [] 4096; decide, by show Memory.Fits [] 4096; decide,
    by show Context.zero.Fits; decide, rfl, fun _ => rfl, ?_⟩
  · show (zeroKey iv).Ok
    exact ⟨.inl rfl, h.1, h.2, rfl, fun i _ => by show KeyBytes.zero[i.val] = 0; simp [KeyBytes.zero]⟩
  · exact ⟨rfl, Nat.zero_le _, fun a _ => rfl, fun h => rfl⟩

/-- An encryption of one byte, and the state in which its output is decrypted. -/
def oneByte : State :=
  { ready 12 1 [.internal, .rng (pad [1, 2, 3, 4, 5, 6, 7, 8, 9, 10, 11, 12]), .eng .ok, .eng .ok, .internal] with
    inBuf := [(0, 0x41)] }

/-- The output of `oneByte`'s ENCRYPT under the identity engine, copied into IN (V-T1's shape: body = 0x41 ⊕ 0x01). -/
def copiedBack : State :=
  { ready 12 13 [.internal, .eng .ok, .eng .ok, .internal] with
    inBuf := Memory.writeBytes [] 0 [1, 2, 3, 4, 5, 6, 7, 8, 9, 10, 11, 12, 0x40] }

theorem ready_in_inv (P : Params) (iv : BitVec 5) (h : 12 ≤ iv.toNat ∧ iv.toNat ≤ 16) (n : Word) (events : List Event)
    (m : Memory) (hm : Memory.Fits m 4096) : ({ ready iv n events with inBuf := m } : State).Inv P :=
  have r := ready_inv P iv h n events
  ⟨r.cap, r.inst, hm, r.outFits, r.fits, r.errorBit, r.doneIdle, r.phase⟩

theorem witness_DecryptUndoesEncrypt : ∃ (P : Params) (s u : State), s.Inv P ∧ s.seq = .idle ∧
    (issue P .encrypt s).seq = .idle ∧ (issue P .encrypt s).errCode = none ∧ u.Inv P ∧ u.seq = .idle ∧ u.inst = s.inst ∧
    u.inLen = (issue P .encrypt s).outLen ∧
    (∀ a, a < u.inLen.toNat → Memory.readByte u.inBuf a = Memory.readByte (issue P .encrypt s).outBuf a) ∧
    (issue P .decrypt u).seq = .idle ∧ (issue P .decrypt u).errCode = none :=
  ⟨identityEngine, oneByte, copiedBack, ready_in_inv _ 12 (by decide) _ _ _ (by decide), rfl, by decide, by decide,
    ready_in_inv _ 12 (by decide) _ _ _ (by decide), rfl, rfl, by decide, by decide, by decide, by decide⟩

theorem witness_CounterIncrementIsPlusOne : ∃ n : Nat, n < 2 ^ 128 := ⟨2 ^ 128 - 1, by decide⟩

theorem witness_ErrorCodeValues : ∃ a b : ErrorKind, a.code = b.code := ⟨.noInstance, .noInstance, rfl⟩

theorem witness_HostViewAfterReset : ∃ w : Word, w = 2 ∨ w = 3 := ⟨3, .inr rfl⟩

theorem witness_CounterCarriesIntoTheIv :
    (∃ (iv : List Byte) (j i : Nat), iv.length ≤ 14 ∧ j < 65536 ∧ i < iv.length) ∧
    (∃ (iv : List Byte) (j i : Nat), iv.length = 15 ∧ j < 256 ∧ i < 15) ∧
    ∃ iv : List Byte, iv.length = 15 ∧ iv.getD 14 0 ≠ 0xff :=
  ⟨⟨List.replicate 14 0xff, 65535, 13, by decide, by decide, by decide⟩,
    ⟨List.replicate 15 0xff, 255, 14, by decide, by decide, by decide⟩, ⟨List.replicate 15 0xfe, by decide, by decide⟩⟩

theorem witness_PaddingIsZeroOnTheRight : ∃ iv : List Byte, 12 ≤ iv.length ∧ iv.length ≤ 16 ∧ iv.length = 16 :=
  ⟨List.replicate 16 1, by decide, by decide, by decide⟩

/-- An ENCRYPT of 20 bytes in this phase, after `j` blocks. -/
def streaming (q : Seq) (j : Nat) (events : List Event) : State :=
  { ready 12 20 events with
    seq := q
    ctx := { Context.zero with
      opc := .encrypt, n := 20, src := 0, dst := 12, nblk := 2, j := j, ksCount := min (16 * j) 20, initIssued := true } }

theorem witness_EngineAnswersDriveTheStream :
    (∃ (s : State) (a : EngAnswer) (more : List Event), s.events = .eng a :: more ∧ s.seq = .initWait) ∧
    (∃ (s : State) (a : EngAnswer) (more : List Event), s.events = .eng a :: more ∧ s.seq = .blkWait ∧ a = .fail) ∧
    ∃ (s : State) (a : EngAnswer) (more : List Event), s.events = .eng a :: more ∧ s.seq = .blkWait ∧ a = .ok ∧
      Memory.wf s.outBuf ∧ ¬ s.ctx.j + 1 < s.ctx.nblk :=
  ⟨⟨streaming .initWait 0 [.eng .ok], .ok, [], rfl, rfl⟩, ⟨streaming .blkWait 0 [.eng .fail], .fail, [], rfl, rfl, rfl⟩,
    ⟨streaming .blkWait 1 [.eng .ok], .ok, [], rfl, rfl, rfl, by decide, by decide⟩⟩

/-- An ENCRYPT of nothing about to commit. -/
def emptyCommit (events : List Event) : State :=
  { ready 12 0 events with
    seq := .commit, ctx := { Context.zero with opc := .encrypt, dst := 12, initIssued := true } }

theorem emptyCommit_inv (P : Params) (events : List Event) : (emptyCommit events).Inv P :=
  have hiv : (emptyCommit events).iv = List.replicate 12 0 := by show List.take 12 Block.zero.toList = _; decide
  have hpad : pad (List.replicate 12 0) = Block.zero := by decide
  ⟨by show CapOk 4096; decide, by show (zeroKey 12).Ok; decide, by show Memory.Fits [] 4096; decide,
    by show Memory.Fits [] 4096; decide,
    by show Context.Fits { Context.zero with opc := .encrypt, dst := 12, initIssued := true }; decide, rfl,
    (fun h => by cases h),
    ⟨⟨rfl, rfl, rfl, rfl⟩,
      ⟨⟨rfl, rfl, by show 0 = blocks 0; decide, rfl, rfl, rfl, by show 0 + 12 ≤ 4096; decide⟩, rfl, Nat.zero_le _, rfl,
        by rw [hiv, hpad]; rfl, by rw [hiv, hpad]; rfl, fun a => by
          show 0 = if 12 ≤ a ∧ a < 12 + 0 then _ else 0
          rw [if_neg (by omega)]⟩, rfl⟩⟩

theorem witness_LengthCheckAtCommit :
    (∃ (s : State) (rest : List Event), s.seq = .commit ∧ s.Turn rest ∧ s.ctx.ksCount ≠ s.ctx.n ∧ s.ctx.opc = .encrypt) ∧
    (∃ (s : State) (rest : List Event), s.seq = .commit ∧ s.Turn rest ∧ s.ctx.ksCount ≠ s.ctx.n ∧ s.ctx.opc = .decrypt) ∧
    ∃ (P : Params) (s : State), s.Inv P ∧ s.seq = .commit ∧ (s.ctx.opc = .encrypt ∨ s.ctx.opc = .decrypt) :=
  ⟨⟨streaming .commit 1 [.internal, .stale], [.stale], rfl, .inl rfl, by decide, rfl⟩,
    ⟨{ streaming .commit 1 [] with ctx := { Context.zero with opc := .decrypt, n := 1 } }, [], rfl, .inr ⟨rfl, rfl⟩, by decide, rfl⟩,
    ⟨identityEngine, emptyCommit [], emptyCommit_inv _ _, rfl, .inl rfl⟩⟩

theorem witness_AcceptanceOfACommand : ∃ (s : State) (w : Word) (more : List Event), s.seq = .idle ∧
    s.events = .bus (.write .w32 0x00004 w) :: more :=
  ⟨ready 12 0 [wr 0x00004 9], 9, [], rfl, rfl⟩

theorem witness_FailureCompletion : ∃ (s : State) (rest : List Event), s.seq = .abort ∧ s.Turn rest ∧
    s.ctx.initIssued = true :=
  ⟨streaming .abort 1 [.internal], [], rfl, .inl rfl, rfl⟩

theorem witness_SuccessCompletion :
    (∃ (s : State) (rest : List Event), s.seq = .commit ∧ s.Turn rest ∧ s.ctx.opc = .create) ∧
    (∃ (s : State) (rest : List Event), s.seq = .commit ∧ s.Turn rest ∧ s.ctx.opc = .encrypt ∧ s.ctx.ksCount = s.ctx.n ∧
      Memory.wf s.outBuf) ∧
    ∃ (s : State) (rest : List Event), s.seq = .commit ∧ s.Turn rest ∧ s.ctx.opc = .decrypt ∧ s.ctx.ksCount = s.ctx.n :=
  ⟨⟨{ accepted .create (staged 32 16) with seq := .commit }, [], rfl, .inr ⟨rfl, rfl⟩, rfl⟩,
    ⟨streaming .commit 2 [.internal], [], rfl, .inl rfl, rfl, by decide, by decide⟩,
    ⟨{ idle with seq := .commit, ctx := { Context.zero with opc := .decrypt } }, [], rfl, .inr ⟨rfl, rfl⟩, rfl, rfl⟩⟩

theorem witness_ContextIsReleasedAtEveryEnd : ∃ (P : Params) (s : State), s.seq ≠ .idle ∧ s.seq ≠ .rstClr ∧
    (∀ rest, s.events ≠ .reset :: rest) ∧ (tick P s).seq = .idle :=
  ⟨identityEngine, streaming .commit 2 [.internal], by decide, by decide, by simp [streaming, ready], by decide⟩

theorem witness_EveryCompletionReports :
    (∃ (i : Instr) (s t : State), s.seq = .idle ∧ exec i s = .next t ∧ t.seq = .idle ∧ t.error = true) ∧
    ∃ (i : Instr) (s t : State), s.seq = .idle ∧ exec i s = .next t ∧ t.seq ≠ .idle :=
  ⟨⟨.decrypt, idle, _, rfl, rfl, by decide, by decide⟩, ⟨.encrypt, ready 12 0 [], _, rfl, rfl, by decide⟩⟩

theorem witness_HostReadMap :
    (∃ off : Nat, off % 4 = 0 ∧ off < 2 ^ 18 ∧ 0x20000 ≤ off ∧ off < 0x20000 + 4096) ∧
    ∃ (s : State) (off : Nat) (more : List Event), off % 4 = 0 ∧ off < 2 ^ 18 ∧ s.events = .bus (.read .w32 off) :: more :=
  ⟨⟨0x20FFC, by decide, by decide, by decide, by decide⟩, ⟨ready 12 0 [.bus (.read .w32 0x0005C)], 0x0005C, [], by decide, by decide, rfl⟩⟩

/-- The clauses of the read map at the edges of their ranges (BUF_BYTES = 4096): registers, KEY, IN, OUT, reserved. -/
def edges : List Nat :=
  [0x00000, 0x00004, 0x00008, 0x0000C, 0x00010, 0x00014, 0x00018, 0x0001C, 0x00020, 0x00024, 0x00028] ++
    [0x0002C, 0x0003C, 0x00040, 0x0005C, 0x00060, 0x0FFFC, 0x10000, 0x10FFC, 0x11000, 0x1FFFC, 0x20000, 0x20FFC] ++
    [0x21000, 0x3FFFC]

theorem witness_HostReadMap_edges : ∀ a ∈ edges, a % 4 = 0 ∧ a < 2 ^ 18 := by simp [edges]

theorem test_targets_at_the_edges :
    [0x00028, 0x0005C, 0x00060, 0x10FFC, 0x11000, 0x20FFC, 0x21000].map (targetOf 4096) =
      [.cap, .key 7, .reserved, .inBuf 4092, .reserved, .outBuf 4092, .reserved] := by decide

theorem witness_HostWriteMap : ∃ (s : State) (off : Nat) (v : Word) (more : List Event), off % 4 = 0 ∧ off < 2 ^ 18 ∧
    s.events = .bus (.write .w32 off v) :: more :=
  ⟨ready 12 0 [wr 0x10FFC 5], 0x10FFC, 5, [], by decide, by decide, rfl⟩

theorem witness_StagingWritesReadBack :
    (∃ (s : State) (off : Nat) (v : Word) (more : List Event), s.seq = .idle ∧ Memory.wf s.inBuf ∧ CapOk s.bufBytes ∧
      off % 4 = 0 ∧ s.events = .bus (.write .w32 off v) :: more ∧ 0x10000 ≤ off ∧
      off < 0x10000 + s.bufBytes) ∧
    ∃ (s : State) (off : Nat) (v : Word) (more : List Event) (k : Nat), s.seq = .idle ∧ Memory.wf s.inBuf ∧
      CapOk s.bufBytes ∧ off % 4 = 0 ∧ s.events = .bus (.write .w32 off v) :: more ∧ k < 8 ∧ off = 0x40 + 4 * k :=
  ⟨⟨ready 12 0 [wr 0x10FFC 5], 0x10FFC, 5, [], rfl, by decide, by decide, by decide, rfl, by decide, by decide⟩,
    ⟨ready 12 0 [wr 0x0005C 5], 0x0005C, 5, [], 7, rfl, by decide, by decide, by decide, rfl, by decide, by decide⟩⟩

theorem witness_BusErrorChangesNothing :
    (∃ (s : State) (a : Access) (more : List Event), s.events = .bus a :: more ∧ ¬ (a.sizeOk = true ∧ a.aligned = true)) ∧
    ∃ (s : State) (a : Access) (more : List Event), s.events = .bus a :: more ∧ a.sizeOk = true ∧ a.aligned = true :=
  ⟨⟨ready 12 0 [.bus (.read .w8 0)], .read .w8 0, [], rfl, by decide⟩,
    ⟨ready 12 0 [.bus (.read .w32 0x3FFFC)], .read .w32 0x3FFFC, [], rfl, by decide, by decide⟩⟩

theorem witness_ReservedOffsetsReadZeroAndIgnoreWrites : ∃ (s : State) (off : Nat) (v : Word) (more : List Event),
    CapOk s.bufBytes ∧ off % 4 = 0 ∧ (0x10000 + s.bufBytes ≤ off ∧ off < 0x20000) ∧
    s.events = .bus (.write .w32 off v) :: more :=
  ⟨ready 12 0 [wr 0x11000 7], 0x11000, 7, [], by decide, by decide, by decide, rfl⟩

theorem witness_ReservedOffsets_edges : ∀ a ∈ [0x2C, 0x3C, 0x60, 0xFFFC, 0x11000, 0x1FFFC, 0x21000, 0x3FFFC],
    a % 4 = 0 ∧ ((0x2C ≤ a ∧ a < 0x40) ∨ (0x60 ≤ a ∧ a < 0x10000) ∨
      (0x10000 + 4096 ≤ a ∧ a < 0x20000) ∨ (0x20000 + 4096 ≤ a ∧ a < 0x40000)) := by simp

theorem witness_InstViewFields : (∃ s : State, s.inst.valid = true) ∧ (∃ s : State, s.inst.valid = false) ∧
    ∃ (s : State) (v : Word) (more : List Event), s.events = .bus (.write .w32 0x00020 v) :: more :=
  ⟨⟨ready 16 0 [], rfl⟩, ⟨idle, rfl⟩, ⟨ready 12 0 [wr 0x00020 7], 7, [], rfl⟩⟩

theorem witness_StatusBitsReadAndClear :
    (∃ (s : State) (v : Word) (more : List Event), s.events = .bus (.write .w32 0x00008 v) :: more ∧ s.overrun = true) ∧
    ∃ (s : State) (v : Word) (more : List Event), s.events = .bus (.write .w32 0x00024 v) :: more :=
  ⟨⟨{ idle with overrun := true, events := [wr 0x00008 8] }, 8, [], rfl, rfl⟩, ⟨ready 12 0 [wr 0x00024 0xFFFFFFFF], _, [], rfl⟩⟩

theorem witness_OverrunIsStickyAndOnlyAFlag :
    (∃ (s : State) (off : Nat) (v : Word) (more : List Event), s.seq ≠ .idle ∧ off % 4 = 0 ∧ off = 0x00018 ∧
      s.events = .bus (.write .w32 off v) :: more) ∧
    ∃ (P : Params) (s : State), s.overrun = true ∧ (tick P s).overrun = false :=
  ⟨⟨{ State.reset with events := [wr 0x00018 5] }, 0x00018, 5, [], by decide, by decide, rfl, rfl⟩,
    ⟨identityEngine, { idle with overrun := true, events := [wr 0x00008 8] }, rfl, by decide⟩⟩

theorem witness_OverrunIsSticky_edges : ∀ a ∈ [0x04, 0x10, 0x14, 0x18, 0x40, 0x5C, 0x10000, 0x10FFC],
    a % 4 = 0 ∧ (a = 0x00004 ∨ a = 0x00010 ∨ a = 0x00014 ∨ a = 0x00018 ∨
      (0x00040 ≤ a ∧ a ≤ 0x0005C) ∨ (0x10000 ≤ a ∧ a < 0x10000 + 4096)) := by simp

theorem witness_InterruptIsDoneAndEnabled :
    (∃ (P : Params) (s : State), s.irqO = false ∧ (tick P s).irqO = true ∧ s.seq ≠ .idle) ∧
    (∃ (P : Params) (s : State), s.irqO = false ∧ (tick P s).irqO = true ∧ s.seq = .idle) ∧
    (∃ (s : State) (v : Word) (more : List Event), s.events = .bus (.write .w32 0x00008 v) :: more ∧ v.getLsbD 1 = true) ∧
    (∃ (s : State) (w : Word) (more : List Event), s.seq = .idle ∧ s.events = .bus (.write .w32 0x00004 w) :: more) ∧
    ∃ (s : State) (v : Word) (more : List Event), s.events = .bus (.write .w32 0x00024 v) :: more ∧ v.getLsbD 0 = false :=
  ⟨⟨identityEngine, { streaming .abort 0 [.internal] with irqEn := true }, by decide, by decide, by decide⟩,
    ⟨identityEngine, { idle with done := true, events := [wr 0x00024 1] }, by decide, by decide, rfl⟩,
    ⟨ready 12 0 [wr 0x00008 2], 2, [], rfl, by decide⟩, ⟨ready 12 0 [wr 0x00004 2], 2, [], rfl, rfl⟩,
    ⟨ready 12 0 [wr 0x00024 2], 2, [], rfl, by decide⟩⟩

/-- Another staged key and another installed key. -/
def otherKey (s : State) : State :=
  { s with keyStage := Vector.ofFn fun _ => 0x55, inst := { s.inst with key := Vector.ofFn fun _ => 0xaa } }

theorem witness_KeyIsNeverVisible :
    (∃ s t : State, s.keyBlind t ∧ s ≠ t) ∧
    (∃ s t : State, s.keyBlind t ∧ s ≠ t ∧ (s.seq = .check → s.ctx.opc = .decrypt → ∀ rest, ¬ s.Turn rest) ∧
      (s.seq = .rngWait → ∀ b rest, s.events ≠ .rng b :: rest) ∧
      (s.seq = .blkWait → ∀ rest, s.events ≠ .eng .ok :: rest) ∧ s.seq = .blkWait ∧ s.events = [wr 0x00018 5]) ∧
    ∃ s t s' t' : State, s.keyBlind t ∧ s ≠ t ∧ exec .create s = .next s' ∧ exec .create t = .next t' :=
  ⟨⟨idle, otherKey idle, rfl, by decide⟩,
    ⟨streaming .blkWait 0 [wr 0x00018 5], otherKey (streaming .blkWait 0 [wr 0x00018 5]), rfl, by decide,
      fun h => absurd h (by decide), fun h => absurd h (by decide), fun _ rest => by simp [streaming, ready, wr], rfl, rfl⟩,
    ⟨staged 16 12, otherKey (staged 16 12), _, _, rfl, by decide, rfl, rfl⟩⟩

/-- A failed command has ended. -/
def failed : State := { idle with done := true, error := true, errCode := some .noInstance }

theorem failed_inv (P : Params) : failed.Inv P :=
  ⟨by show CapOk 4096; decide, by show CipherInst.absent.Ok; decide, by show Memory.Fits [] 4096; decide,
    by show Memory.Fits [] 4096; decide, by show Context.zero.Fits; decide, rfl, fun _ => rfl,
    ⟨rfl, Nat.zero_le _, fun _ _ => rfl, fun _ => rfl⟩⟩

theorem witness_NoPartialOutputIsVisible :
    (∃ (P : Params) (s : State), s.Inv P ∧ s.seq ≠ .idle) ∧ ∃ (P : Params) (s : State), s.Inv P ∧ s.errCode ≠ none :=
  ⟨⟨identityEngine, waitingForIv [], waitingForIv_inv _ _, by decide⟩, ⟨identityEngine, failed, failed_inv _, by decide⟩⟩

theorem witness_CommandIsObservationallyAtomic :
    (∃ (P : Params) (s : State), s.Inv P ∧ s.seq ≠ .idle ∧ s.seq ≠ .rstClr ∧ (∀ rest, s.events ≠ .reset :: rest) ∧
      (tick P s).seq ≠ .idle ∧ ∀ a rest, s.events ≠ .bus a :: rest) ∧
    ∃ (P : Params) (s : State) (w : Word) (more : List Event), s.Inv P ∧ s.seq = .idle ∧
      s.events = .bus (.write .w32 0x00004 w) :: more ∧ .reset ∉ more ∧ ∀ k, k ≤ 1 → ((tick P)^[k + 1] s).seq ≠ .idle :=
  ⟨⟨identityEngine, waitingForIv [.rng Block.zero], waitingForIv_inv _ _, by decide, by decide, by simp [waitingForIv, ready],
      by decide, by simp [waitingForIv, ready]⟩,
    ⟨identityEngine, ready 12 20 [wr 0x00004 2, .internal], 2, [.internal], ready_inv _ 12 (by decide) _ _, rfl, rfl,
      by decide, by decide⟩⟩

theorem witness_ResultDependsOnlyOnOperands : ∃ (i : Instr) (s t s' t' : State), i ≠ .create ∧ s.Inv Config.machine ∧
    t.Inv Config.machine ∧ s.seq = .idle ∧ t.seq = .idle ∧ s.inst = t.inst ∧ s.inLen = t.inLen ∧ s.bufBytes = t.bufBytes ∧
    s.events = t.events ∧ (∀ a, a < s.inLen.toNat → Memory.readByte s.inBuf a = Memory.readByte t.inBuf a) ∧ s ≠ t ∧
    exec i s = .next s' ∧ exec i t = .next t' :=
  ⟨.encrypt, ready 12 1 [], { ready 12 1 [] with inBuf := [(1, 7)] }, _, _, by decide, ready_inv _ 12 (by decide) _ _,
    ready_in_inv _ 12 (by decide) _ _ _ (by decide), rfl, rfl, rfl, rfl, rfl, rfl, by decide, by decide, rfl, rfl⟩

theorem witness_CommandFrame :
    (∃ (i : Instr) (s t : State), exec i s = .next t ∧ s.seq = .idle ∧ i ≠ .create) ∧
    ∃ (i : Instr) (s t : State), exec i s = .next t ∧ s.seq = .idle ∧ i = .create :=
  ⟨⟨.decrypt, ready 12 20 [], _, rfl, rfl, by decide⟩, ⟨.create, staged 16 12, _, rfl, rfl, rfl⟩⟩

theorem witness_OutputFrame : ∃ (i : Instr) (s t : State), s.Inv Config.machine ∧ s.seq = .idle ∧ exec i s = .next t :=
  ⟨.encrypt, ready 12 1 [], _, ready_inv _ 12 (by decide) _ _, rfl, rfl⟩

theorem witness_PortTrafficOfACommand : ∃ (i : Instr) (s t : State), s.Inv Config.machine ∧ s.seq = .idle ∧
    exec i s = .next t ∧ t.seq = .idle ∧ t.portLog ≠ [] :=
  ⟨.decrypt, ready 12 12 [.internal, .eng .ok], _, ready_inv _ 12 (by decide) _ _, rfl, rfl, by decide, by decide⟩

theorem witness_CommandTakesBoundedSteps :
    (∃ (i : Instr) (s t : State), s.seq = .idle ∧ exec i s = .next t ∧ s.events ≠ t.events ∧ t.seq = .idle) ∧
    (∃ (i : Instr) (s t : State) (e : Event) (more : List Event), s.seq = .idle ∧ exec i s = .next t ∧ t.seq ≠ .idle ∧
      t.events = e :: more) ∧
    ∃ (i : Instr) (s t : State), s.seq = .idle ∧ exec i s = .next t ∧ t.seq ≠ .idle ∧ t.events = [] :=
  ⟨⟨.decrypt, ready 12 12 [.internal, .eng .ok, .internal, .stale], _, rfl, rfl, by decide, by decide⟩,
    ⟨.decrypt, ready 12 12 [.internal, .stale], _, .stale, [], rfl, rfl, by decide, by decide⟩,
    ⟨.encrypt, ready 12 12 [], _, rfl, rfl, by decide, by decide⟩⟩

theorem witness_WaitingChangesNothing :
    (∃ s : State, s.seq = .rngWait ∧ s.events = []) ∧
    ∃ (s : State) (e : Event) (more : List Event), s.seq = .blkWait ∧ s.events = e :: more ∧ e ≠ .reset ∧
      (∀ b, e = .rng b → s.seq ≠ .rngWait) ∧ ∀ a, e = .eng a → s.seq = .rngWait :=
  ⟨⟨waitingForIv [], rfl, rfl⟩,
    ⟨streaming .blkWait 0 [.rng Block.zero], .rng Block.zero, [], rfl, rfl, by simp, fun _ _ => by decide, by simp⟩⟩

theorem witness_ResetAbandonsTheCommand :
    (∃ (s : State) (more : List Event), s.events = .reset :: more ∧ s.seq = .blkWait) ∧
    (∃ (s : State) (e : Event) (more : List Event), s.events = e :: more ∧ e = .stale ∧ s.seq = .rngWait) ∧
    (∃ (s : State) (e : Event) (more : List Event), s.events = e :: more ∧ (∃ b, e = .rng b) ∧ s.seq ≠ .rngWait) ∧
    (∃ (s : State) (e : Event) (more : List Event), s.events = e :: more ∧ (∃ a, e = .eng a) ∧ s.seq ≠ .initWait ∧
      s.seq ≠ .blkWait) ∧
    ∃ (s : State) (rest : List Event), s.seq = .rstClr ∧ s.Turn rest :=
  ⟨⟨streaming .blkWait 1 [.reset], [], rfl, rfl⟩, ⟨waitingForIv [.stale], .stale, [], rfl, rfl, rfl⟩,
    ⟨ready 12 0 [.rng Block.zero], .rng Block.zero, [], rfl, ⟨_, rfl⟩, by decide⟩,
    ⟨{ State.reset with events := [.eng .ok] }, .eng .ok, [], rfl, ⟨.ok, rfl⟩, by decide, by decide⟩,
    ⟨State.reset, [], rfl, .inr ⟨rfl, rfl⟩⟩⟩

theorem witness_CheckStepOfCreateAndIllegal :
    (∃ (s : State) (rest : List Event), s.seq = .check ∧ s.Turn rest ∧ s.ctx.opc = .illegal) ∧
    (∃ (s : State) (rest : List Event), s.seq = .check ∧ s.Turn rest ∧ s.ctx.opc = .create ∧ s.keyLen ≠ 16 ∧ s.keyLen ≠ 32) ∧
    (∃ (s : State) (rest : List Event), s.seq = .check ∧ s.Turn rest ∧ s.ctx.opc = .create ∧
      (s.keyLen = 16 ∨ s.keyLen = 32) ∧ (s.ivSize.toNat < 12 ∨ 16 < s.ivSize.toNat)) ∧
    ∃ (s : State) (rest : List Event), s.seq = .check ∧ s.Turn rest ∧ s.ctx.opc = .create ∧
      (s.keyLen = 16 ∨ s.keyLen = 32) ∧ 12 ≤ s.ivSize.toNat ∧ s.ivSize.toNat ≤ 16 :=
  ⟨⟨accepted .illegal idle, [], rfl, .inr ⟨rfl, rfl⟩, rfl⟩,
    ⟨accepted .create (staged 33 12), [], rfl, .inr ⟨rfl, rfl⟩, rfl, by decide, by decide⟩,
    ⟨accepted .create (staged 32 17), [], rfl, .inr ⟨rfl, rfl⟩, rfl, by decide, by decide⟩,
    ⟨accepted .create { staged 16 16 with events := [.internal, .internal] }, [.internal], rfl, .inl rfl, rfl, by decide,
      by decide, by decide⟩⟩

theorem witness_CheckStepOfEncrypt :
    (∃ (s : State) (rest : List Event), s.seq = .check ∧ s.ctx.opc = .encrypt ∧ s.Turn rest ∧ s.inst.valid = false) ∧
    (∃ (s : State) (rest : List Event), s.seq = .check ∧ s.ctx.opc = .encrypt ∧ s.Turn rest ∧ s.inst.valid = true ∧
      s.bufBytes < s.inLen.toNat + s.inst.ivSize.toNat) ∧
    ∃ (s : State) (rest : List Event), s.seq = .check ∧ s.ctx.opc = .encrypt ∧ s.Turn rest ∧ s.inst.valid = true ∧
      s.inLen.toNat + s.inst.ivSize.toNat ≤ s.bufBytes :=
  ⟨⟨accepted .encrypt idle, [], rfl, rfl, .inr ⟨rfl, rfl⟩, rfl⟩,
    ⟨accepted .encrypt (ready 12 4085 [.internal]), [], rfl, rfl, .inl rfl, rfl, by decide⟩,
    ⟨accepted .encrypt (ready 12 4084 []), [], rfl, rfl, .inr ⟨rfl, rfl⟩, rfl, by decide⟩⟩

theorem witness_CheckStepOfDecrypt :
    (∃ (s : State) (rest : List Event), s.seq = .check ∧ s.ctx.opc = .decrypt ∧ s.Turn rest ∧ s.inst.valid = false) ∧
    (∃ (s : State) (rest : List Event), s.seq = .check ∧ s.ctx.opc = .decrypt ∧ s.Turn rest ∧ s.inst.valid = true ∧
      s.bufBytes < s.inLen.toNat) ∧
    (∃ (s : State) (rest : List Event), s.seq = .check ∧ s.ctx.opc = .decrypt ∧ s.Turn rest ∧ s.inst.valid = true ∧
      s.inLen.toNat ≤ s.bufBytes ∧ s.inLen.toNat < s.inst.ivSize.toNat) ∧
    ∃ (s : State) (rest : List Event), s.seq = .check ∧ s.ctx.opc = .decrypt ∧ s.Turn rest ∧ s.inst.valid = true ∧
      s.inLen.toNat ≤ s.bufBytes ∧ s.inst.ivSize.toNat ≤ s.inLen.toNat :=
  ⟨⟨accepted .decrypt idle, [], rfl, rfl, .inr ⟨rfl, rfl⟩, rfl⟩,
    ⟨accepted .decrypt (ready 12 4097 [.internal]), [], rfl, rfl, .inl rfl, rfl, by decide⟩,
    ⟨accepted .decrypt (ready 12 11 []), [], rfl, rfl, .inr ⟨rfl, rfl⟩, rfl, by decide, by decide⟩,
    ⟨accepted .decrypt (ready 12 12 []), [], rfl, rfl, .inr ⟨rfl, rfl⟩, rfl, by decide, by decide⟩⟩

theorem witness_HostProgramTransactions :
    (∃ (mask val v : Word) (vs : List Word), (∀ u ∈ vs, u &&& mask ≠ val) ∧ v &&& mask = val ∧ vs.length = 2) ∧
    (∃ (ws : List Word) (k l : Nat), k < ws.length ∧ l < 4) ∧ (∃ val : Nat, val < 2 ^ 32) ∧
    ∃ (s : State) (off : Nat), CapOk s.bufBytes ∧ off % 4 = 0 ∧ off = 2 ^ 18 :=
  ⟨⟨2, 2, 6, [1, 4], by simp, by decide, rfl⟩, ⟨[0], 0, 3, by decide, by decide⟩, ⟨2 ^ 32 - 1, by decide⟩,
    ⟨idle, 0x40000, by decide, by decide, by decide⟩⟩

theorem witness_HostProgramRunsAsInputs :
    (∃ (order : List Slot), (∀ a, .other (.bus a) ∉ order) ∧ Slot.host ∈ order) ∧ (∃ r : HostRun, r.left = []) ∧
    ∃ (r : HostRun) (l : HostLine) (q : List HostLine), r.left = l :: q :=
  ⟨⟨[.host, .other .internal, .host], by simp, by simp⟩, ⟨⟨[], [], [], idle⟩, rfl⟩,
    ⟨⟨expandPseudo .waitDone, [], [], idle⟩, .poll 0x00008 2 2, [], rfl⟩⟩

theorem witness_EverySingleStepKeepsTheInvariant : ∃ (P : Params) (s : State), s.Inv P ∧ (tick P s).seq = .idle ∧
    s.seq = .commit :=
  ⟨identityEngine, emptyCommit [], emptyCommit_inv _ _, by decide, rfl⟩

theorem witness_EveryStepKeepsTheInvariant : ∃ s t : State, s.Inv Config.machine ∧ step s = .next t ∧
    t.seq = .initWait :=
  ⟨waitingForIv [.rng Block.zero], _, waitingForIv_inv _ _, rfl, by decide⟩

end Sys2Proof.Tests
end

section
/-! INST under single steps and runs (R38): who may write it, and what each answer, commit and host access leaves
of it and of the running command's OPC. -/

namespace Sys2Proof.Machine

variable {P : Params} {s : State}

/-! ## What leaves INST alone -/

@[simp] theorem answerInit_inst (a : EngAnswer) (s : State) : (s.answerInit a).inst = s.inst :=
  answerInit_cases (Q := fun t => t.inst = s.inst) s a (fun _ => rfl) (fun _ _ => rfl) (fun _ _ => rfl)

@[simp] theorem answerBlock_inst (P : Params) (a : EngAnswer) (s : State) : (s.answerBlock P a).inst = s.inst :=
  answerBlock_cases (Q := fun t => t.inst = s.inst) s a (fun _ => rfl) (fun _ _ => rfl) (fun _ _ => rfl)

@[simp] theorem commitStep_inst (s : State) : (commitStep s).inst = s.inst := by
  apply commitStep_cases (Q := fun t => t.inst = s.inst) <;> intros <;> simp

@[simp] theorem hostWrite_inst (off : Nat) (v : Word) (s : State) : (s.hostWrite off v).inst = s.inst := by
  apply hostWrite_cases (Q := fun t => t.inst = s.inst) <;> intros <;> rfl

@[simp] theorem hostAccess_inst (a : Access) (s : State) : (s.hostAccess a).inst = s.inst :=
  hostAccess_cases (Q := fun t => t.inst = s.inst) a s (fun _ => rfl) (fun off v _ _ => hostWrite_inst off v s)

/-- A turn in CHECK writes INST only for a CREATE. -/
theorem checkTurn_inst (hs : s.seq = .check) (ho : s.ctx.opc ≠ .create) : (seqTurn s).inst = s.inst := by
  apply checkTurn_cases (Q := fun t => t.inst = s.inst) s hs
  case hraise => exact fun _ => rfl
  case hcreate => exact fun h => absurd h ho
  case hencrypt => intro _ hv hl; rw [checkEncrypt_ok hv (by omega)]; rfl
  case hdecrypt => intro _ hv hl hl'; rw [checkDecrypt_ok hv (by omega) (by omega)]; rfl

/-- Every move keeps INST, but the sequencer's own move in the CHECK or ABORT of a CREATE (R38). -/
theorem seqMove_inst {e : Event}
    (h : ¬ (e = .internal ∧ s.ctx.opc = .create ∧ (s.seq = .check ∨ s.seq = .abort))) :
    (seqMove P e s).inst = s.inst := by
  apply seqMove_cases (Q := fun t => t.inst = s.inst) e s rfl
  case hrst => exact fun _ _ => rfl
  case hcheck => exact fun hs he => checkTurn_inst hs fun ho => h ⟨he, ho, .inl hs⟩
  case hcommit => exact fun _ _ => commitStep_inst s
  case habort =>
    intro hs he
    have ho : s.ctx.opc ≠ .create := fun ho => h ⟨he, ho, .inr hs⟩
    rw [State.abortStep_inst, if_neg ho]
  case hrng => exact fun _ _ _ => rfl
  case hinit => exact fun _ a _ => answerInit_inst a s
  case hblock => exact fun _ a _ => answerBlock_inst P a s

/-! ## The running command's OPC -/

/-- A turn in CHECK leaves OPC, or ends the command and zeroizes it. -/
theorem checkTurn_opc (hs : s.seq = .check) :
    (seqTurn s).ctx.opc = s.ctx.opc ∨ (seqTurn s).ctx.opc = .illegal := by
  apply checkTurn_cases (Q := fun t => t.ctx.opc = s.ctx.opc ∨ t.ctx.opc = .illegal) s hs
  case hraise => exact fun _ => .inl rfl
  case hcreate => intros; right; rw [State.completeStep_ctx]; rfl
  case hencrypt => intro _ hv hl; rw [checkEncrypt_ok hv (by omega)]; exact .inl rfl
  case hdecrypt => intro _ hv hl hl'; rw [checkDecrypt_ok hv (by omega) (by omega)]; exact .inl rfl

/-- A COMMIT leaves OPC when its length check fails, else it zeroizes it. -/
theorem commitStep_opc (s : State) :
    (commitStep s).ctx.opc = s.ctx.opc ∨ (commitStep s).ctx.opc = .illegal := by
  apply commitStep_cases (Q := fun t => t.ctx.opc = s.ctx.opc ∨ t.ctx.opc = .illegal) s
  case hraise => exact fun _ _ _ => .inl rfl
  all_goals intros; right; rw [State.completeStep_ctx]; rfl

/-- No move makes the running command another one: OPC stays, or is zeroized with the context (R166). -/
theorem seqMove_opc (P : Params) (e : Event) (s : State) :
    (seqMove P e s).ctx.opc = s.ctx.opc ∨ (seqMove P e s).ctx.opc = .illegal := by
  apply seqMove_cases (Q := fun t => t.ctx.opc = s.ctx.opc ∨ t.ctx.opc = .illegal) e s (.inl rfl)
  case hrst => exact fun _ _ => .inl rfl
  case hcheck => exact fun hs _ => checkTurn_opc hs
  case hcommit => exact fun _ _ => commitStep_opc s
  case habort => exact fun _ _ => .inr rfl
  case hrng => exact fun _ _ _ => .inl rfl
  case hinit =>
    exact fun _ a _ => .inl (answerInit_cases (Q := fun t => t.ctx.opc = s.ctx.opc) s a (fun _ => rfl)
      (fun _ _ => rfl) (fun _ _ => rfl))
  case hblock =>
    exact fun _ a _ => .inl (answerBlock_cases (Q := fun t => t.ctx.opc = s.ctx.opc) s a (fun _ => rfl)
      (fun _ _ => rfl) (fun _ _ => rfl))

/-! ## Single steps and whole commands (R38) -/

/-- A single step that changes INST is a reset, or the sequencer's own move in the CHECK or ABORT of a CREATE. -/
theorem tick_inst_changed (h : (tick P s).inst ≠ s.inst) : (∃ rest, s.events = .reset :: rest) ∨
    (s.ctx.opc = .create ∧ (s.seq = .check ∨ s.seq = .abort) ∧ ∃ rest, s.Turn rest) := by
  by_contra hn
  apply h
  apply tick_cases (Q := fun t => t.inst = s.inst) s
  case hnil =>
    exact fun hev => seqMove_inst fun ⟨_, ho, hs⟩ => hn (.inr ⟨ho, hs, [], .inr ⟨hev, rfl⟩⟩)
  case hmove =>
    exact fun e es hev _ _ => seqMove_inst (s := { s with events := es }) fun ⟨he, ho, hs⟩ =>
      hn (.inr ⟨ho, hs, es, .inl (he ▸ hev)⟩)
  case hbus => exact fun a es _ => hostAccess_inst a { s with events := es }
  case hreset => exact fun es hev => absurd (.inl ⟨es, hev⟩) hn

/-- A run of a command other than CREATE keeps INST, whatever events come. -/
theorem drive_inst (ho : s.ctx.opc ≠ .create) (es : List Event) : (drive P es s).inst = s.inst := by
  refine (drive_keeps (Q := fun t => t.ctx.opc ≠ .create ∧ t.inst = s.inst) (fun _ _ h => h) ?_ es s ⟨ho, rfl⟩).2
  intro e t ⟨hto, hti⟩
  refine ⟨?_, (seqMove_inst fun h => hto h.2.1).trans hti⟩
  rcases seqMove_opc P e t with h | h <;> rw [h]
  · exact hto
  · decide

/-- A command other than CREATE keeps INST, accepted or dropped. -/
theorem issue_inst {o : Opc} (ho : o ≠ .create) (s : State) : (issue P o s).inst = s.inst := by
  by_cases hs : s.seq = .idle
  · rw [issue_idle hs]; exact drive_inst (s := s.accept o) ho s.events
  · rw [issue_busy hs]; rfl

theorem Opc.ofInstr_ne_create {i : Instr} (h : i ≠ .create) : Opc.ofInstr i ≠ .create := by
  cases i with
  | create => exact absurd rfl h
  | encrypt => decide
  | decrypt => decide

/-- Settles O10: every single step's move keeps INST outside a CREATE's CHECK and ABORT, and a run of ENCRYPT or
DECRYPT never takes OPC to CREATE. -/
theorem onlyCreateAndResetChangeTheInstance : Obligations.OnlyCreateAndResetChangeTheInstance := by
  refine ⟨fun P s => tick_inst_changed, fun i s t hi h => ?_⟩
  rw [exec_eq_issue] at h
  cases h
  exact issue_inst (Opc.ofInstr_ne_create hi) s

end Sys2Proof.Machine
end

section
/-! The host port's maps over single steps (R64, R65, R67): a bus read and a bus write as one tick each, and what a
write does at each offset of the write map. -/

namespace Sys2Proof.Machine

variable {P : Params} {s : State} {off : Nat} {v : Word} {more : List Event}

/-! ## A bus access as a single step -/

theorem tick_read (h4 : off % 4 = 0) (he : s.events = .bus (.read .w32 off) :: more) :
    tick P s = { s with events := more, resp := some ⟨false, s.hostRead off⟩ } := by
  rw [tick_cons he]
  exact (hostAccess_events _ s more).trans (by rw [hostAccess_read h4])

theorem tick_write (h4 : off % 4 = 0) (he : s.events = .bus (.write .w32 off v) :: more) :
    tick P s = { s.hostWrite off v with events := more, resp := some ⟨false, 0⟩ } := by
  rw [tick_cons he]
  exact (hostAccess_events _ s more).trans (by rw [hostAccess_write h4])

/-! ## The write map (R65) -/

theorem staged_eq_ite (s t : State) : s.staged t = if s.seq ≠ .idle then { s with overrun := true } else t := by
  by_cases h : s.seq = .idle
  · rw [staged_idle h, if_neg (not_not.mpr h)]
  · rw [staged_busy h, if_pos h]; rfl

theorem hostWrite_key (h : 0x40 ≤ off) (h' : off ≤ 0x5C) :
    s.hostWrite off v = s.staged { s with keyStage := writeKeyWord s.keyStage ((off - 0x40) / 4) v } := by
  simp only [State.hostWrite, targetOf_key h h']

theorem hostWrite_inBuf (h : 0x10000 ≤ off) (h' : off < 0x10000 + s.bufBytes) :
    s.hostWrite off v = s.staged { s with inBuf := Memory.writeWord s.inBuf (off - 0x10000) v } := by
  simp only [State.hostWrite, targetOf_inBuf h h']

theorem hostWrite_reserved (h : targetOf s.bufBytes off = .reserved) : s.hostWrite off v = s := by
  simp only [State.hostWrite, h]

theorem hostWrite_outBuf {o : Nat} (h : targetOf s.bufBytes off = .outBuf o) : s.hostWrite off v = s := by
  simp only [State.hostWrite, h]

/-- The last line of the write map: an offset that none of its lines names is read only or reserved. -/
theorem hostWrite_no_effect (hcmd : off ≠ 0x00004) (hstatus : off ≠ 0x00008) (hirq : off ≠ 0x00024)
    (hstaging : ¬ (off = 0x00010 ∨ off = 0x00014 ∨ off = 0x00018 ∨ (0x00040 ≤ off ∧ off ≤ 0x0005C) ∨
      (0x10000 ≤ off ∧ off < 0x10000 + s.bufBytes))) : s.hostWrite off v = s := by
  simp only [not_or] at hstaging
  obtain ⟨hkeyLen, hivSize, hinLen, hkey, hin⟩ := hstaging
  by_cases hro : off = 0x00000 ∨ off = 0x0000C ∨ off = 0x0001C ∨ off = 0x00020 ∨ off = 0x00028
  · rcases hro with rfl | rfl | rfl | rfl | rfl <;> rfl
  · simp only [not_or] at hro
    obtain ⟨hid, herr, houtLen, hinst, hcap⟩ := hro
    have ht := targetOf_beyond (n := s.bufBytes) hid hcmd hstatus herr hkeyLen hivSize hinLen houtLen hinst hirq hcap
    rw [if_neg hkey, if_neg hin] at ht
    obtain ⟨-, ho⟩ | ⟨-, hr⟩ := ite_eq_cases ht.symm
    · exact hostWrite_outBuf ho.symm
    · exact hostWrite_reserved hr.symm

/-! ## The statements -/

/-- Settles O32: at most 0x28 a multiple of 4 is one of eleven registers, and beyond it the windows are told apart in the
order of the map, OUT after IN. -/
theorem hostReadMap : Obligations.HostReadMap := by
  refine ⟨fun s off h4 _ => ?_, fun _ _ => rfl, fun P s off more h4 _ he => tick_read h4 he⟩
  by_cases hreg : off ≤ 0x00028
  · have hoff : off = 0x00000 ∨ off = 0x00004 ∨ off = 0x00008 ∨ off = 0x0000C ∨ off = 0x00010 ∨ off = 0x00014 ∨
        off = 0x00018 ∨ off = 0x0001C ∨ off = 0x00020 ∨ off = 0x00024 ∨ off = 0x00028 := by omega
    rcases hoff with rfl | rfl | rfl | rfl | rfl | rfl | rfl | rfl | rfl | rfl | rfl <;> rfl
  · have ht := targetOf_beyond (n := s.bufBytes) (off := off) (by omega) (by omega) (by omega) (by omega) (by omega)
      (by omega) (by omega) (by omega) (by omega) (by omega) (by omega)
    iterate 11 rw [if_neg (by omega)]
    split
    case isTrue hkey => exact hostRead_key (targetOf_key hkey.1 hkey.2)
    case isFalse hkey =>
    split
    case isTrue hin => exact hostRead_inBuf (targetOf_inBuf hin.1 hin.2)
    case isFalse hin =>
    rw [if_neg hkey, if_neg hin] at ht
    split
    case isTrue hout =>
      rw [hostRead_outBuf (ht.trans (if_pos hout))]
      exact if_congr (by rw [State.busy, bne_iff_ne]) rfl rfl
    case isFalse hout => exact hostRead_reserved (ht.trans (if_neg hout))

/-- Settles O33: one case per line of the write map, the dropped write of the staging lines once in `staged_eq_ite`. -/
theorem hostWriteMap : Obligations.HostWriteMap := by
  intro P s off v more h4 _ he
  rw [tick_write h4 he]
  by_cases hcmd : off = 0x00004
  · subst hcmd
    rw [if_pos rfl, ← ite_not, ← staged_eq_ite]; rfl
  by_cases hstatus : off = 0x00008
  · subst hstatus; rfl
  by_cases hirq : off = 0x00024
  · subst hirq; rfl
  rw [if_neg hcmd, if_neg hstatus, if_neg hirq]
  split
  case isFalse hstaging => rw [hostWrite_no_effect hcmd hstatus hirq hstaging]
  case isTrue hstaging =>
    rw [← staged_eq_ite]
    rcases hstaging with rfl | rfl | rfl | ⟨hk, hk'⟩ | ⟨hb, hb'⟩
    · rfl
    · rfl
    · rfl
    · rw [hostWrite_key hk hk', if_neg (by omega), if_neg (by omega), if_neg (by omega), if_pos hk']
    · rw [hostWrite_inBuf hb hb', if_neg (by omega), if_neg (by omega), if_neg (by omega), if_neg (by omega)]; rfl

/-- Settles O36: each reserved range is a range of `targetOf_reserved`, and that target reads 0 and takes no write. -/
theorem reservedOffsetsReadZeroAndIgnoreWrites : Obligations.ReservedOffsetsReadZeroAndIgnoreWrites := by
  intro P s off v more _ h4 hoff
  have ht : targetOf s.bufBytes off = .reserved := targetOf_reserved h4 (by omega)
  exact ⟨hostRead_reserved ht, fun he => by rw [tick_write h4 he, hostWrite_reserved ht]⟩

end Sys2Proof.Machine
end

section
/-! The encoding of a command (R101, R102, R105, R106): the decoder accepts the encoder's words and no other, from the
fields up to the bus bytes. -/

namespace Sys2Proof

/-! ## Fields and words (R101, R102) -/

/-- A word is its two fields: nothing of it lies outside them. -/
theorem wordOfFields_fieldsOfWord (w : Word) : wordOfFields (fieldsOfWord w) = w := by
  apply BitVec.eq_of_getLsbD_eq
  intro i hi
  simp only [wordOfFields, fieldsOfWord, BitVec.getLsbD_append, BitVec.getLsbD_extractLsb']
  by_cases h : i < 4
  · simp [h]
  · have h28 : i - 4 < 28 := by omega
    have hsum : 4 + (i - 4) = i := by omega
    simp [h, h28, hsum]

theorem fieldsOfWord_encode (i : Instr) : fieldsOfWord (encode i) = i.fields := by
  have h : Laws.EncodedFields.Statement i := by
    cases i
    exacts [Laws.EncodedFields.create, Laws.EncodedFields.encrypt, Laws.EncodedFields.decrypt]
  obtain ⟨-, hfields, -⟩ := h
  exact hfields

theorem fieldsOfWord_eq_fields_iff {w : Word} {i : Instr} : fieldsOfWord w = i.fields ↔ w = encode i := by
  constructor
  · intro h; rw [encode, ← h, wordOfFields_fieldsOfWord]
  · rintro rfl; exact fieldsOfWord_encode i

/-! ## The decoder, from the fields up to the bus bytes (R102, R105) -/

theorem decodeFields_fields (i : Instr) : decodeFields i.fields = .ok i := by
  cases i <;> rfl

/-- The decoder accepts the fields of a command and no others. -/
theorem decodeFields_eq_ok_iff {f : CmdFields} {i : Instr} : decodeFields f = .ok i ↔ f = i.fields := by
  constructor
  · intro h
    unfold decodeFields at h
    split_ifs at h with hrsv h1 h2 h3 <;> cases h
    · exact congrArg₂ CmdFields.mk h1 (not_not.mp hrsv)
    · exact congrArg₂ CmdFields.mk h2 (not_not.mp hrsv)
    · exact congrArg₂ CmdFields.mk h3 (not_not.mp hrsv)
  · rintro rfl; exact decodeFields_fields i

theorem decodeWord_eq_ok_iff {w : Word} {i : Instr} : decodeWord w = .ok i ↔ w = encode i :=
  decodeFields_eq_ok_iff.trans fieldsOfWord_eq_fields_iff

theorem decodeWord_encode (i : Instr) : decodeWord (encode i) = .ok i := decodeWord_eq_ok_iff.mpr rfl

/-- The bytes of a word, and any bytes after them, decode as the word does. -/
theorem decode_wordBytes_append (w : Word) (rest : List Byte) :
    decode (wordBytes w ++ rest) = (decodeWord w).map (·, rest) := by
  simp only [wordBytes, List.cons_append, List.nil_append, decode, wordOfLanes_byteLane]
  cases decodeWord w <;> rfl

theorem forall_ne_encode_iff {w : Word} :
    (∀ i, w ≠ encode i) ↔ w ≠ 0x00000001 ∧ w ≠ 0x00000002 ∧ w ≠ 0x00000003 := by
  constructor
  · exact fun h => ⟨h .create, h .encrypt, h .decrypt⟩
  · rintro ⟨h1, h2, h3⟩ (_ | _ | _)
    exacts [h1, h2, h3]

/-- R102's mask keeps the whole word: a row takes its own command's word and no other. -/
theorem cmdRow_matches_iff {r : CmdRow} (hr : r ∈ cmdTable) (w : Word) :
    (w &&& r.mask == r.pattern) = true ↔ w = encode r.instr := by
  have hrow : ∀ r ∈ cmdTable, r.mask = BitVec.allOnes 32 ∧ r.pattern = encode r.instr := by decide
  obtain ⟨hmask, hpattern⟩ := hrow r hr
  rw [hmask, hpattern, BitVec.and_allOnes, beq_iff_eq]

end Sys2Proof

namespace Sys2Proof.Machine

/-! ## The machine's decoders of a command word (R102, R105) -/

theorem decodeCommand_eq_toOption (w : Word) : decodeCommand w = (decodeWord w).toOption := by
  have h := decode_wordBytes_append w []
  rw [List.append_nil] at h
  rw [decodeCommand, h]
  cases decodeWord w <;> rfl

theorem decodeCommand_eq_some_iff {w : Word} {i : Instr} : decodeCommand w = some i ↔ w = encode i := by
  rw [decodeCommand_eq_toOption, ← decodeWord_eq_ok_iff]
  cases decodeWord w <;> simp [Except.toOption]

/-- A word is ILLEGAL iff it is no command's encoding (R105). -/
theorem Opc.ofWord_eq_illegal_iff {w : Word} : Opc.ofWord w = .illegal ↔ ∀ i, w ≠ encode i := by
  simp only [ne_eq, ← decodeWord_eq_ok_iff]
  unfold Opc.ofWord
  cases decodeWord w with
  | ok i => cases i <;> simp [Opc.ofInstr]
  | error e => simp

/-- The first row of the table that takes a word is its command's row. -/
theorem decodeCommand_eq_table (w : Word) :
    decodeCommand w = (cmdTable.find? fun r => w &&& r.mask == r.pattern).map CmdRow.instr := by
  cases hf : cmdTable.find? fun r => w &&& r.mask == r.pattern with
  | some r =>
    have hm := List.find?_some hf
    exact decodeCommand_eq_some_iff.mpr ((cmdRow_matches_iff (List.mem_of_find?_eq_some hf) w).mp hm)
  | none =>
    have hrow : ∀ i, ∃ r ∈ cmdTable, r.instr = i := by intro i; cases i <;> decide
    rw [Option.map_none, Option.eq_none_iff_forall_ne_some]
    intro i hi
    obtain ⟨r, hr, rfl⟩ := hrow i
    exact List.find?_eq_none.mp hf r hr ((cmdRow_matches_iff hr w).mpr (decodeCommand_eq_some_iff.mp hi))

/-- Settles O2: a word is its two fields, and the decoder accepts the fields of the three commands and no others. -/
theorem everyWordIsOneCommandOrIllegal : Obligations.EveryWordIsOneCommandOrIllegal := by
  refine ⟨fun _ _ => decodeCommand_eq_some_iff, ⟨rfl, rfl, rfl⟩,
    fun _ => Opc.ofWord_eq_illegal_iff.trans forall_ne_encode_iff, decodeCommand_eq_table, fun i rest => ?_⟩
  rw [encodeBytes, decode_wordBytes_append, decodeWord_encode]
  rfl

end Sys2Proof.Machine
end

section
/-! The step at a CMD write (R105, R107, R225): it issues the word's OPC, and an accepted command whose CHECK fails is
over after the ABORT. -/

namespace Sys2Proof.Machine

variable {P : Params} {s : State} {w : Word} {more rest : List Event}

/-- The step at a CMD write issues the OPC of the word, legal or not. -/
theorem step_cmd (he : s.events = .bus (.write .w32 0x00004 w) :: more) :
    step s = .next (issue Config.machine (Opc.ofWord w) { s with events := more, resp := some ⟨false, 0⟩ }) := by
  have hf : fetch s = some (w, { s with events := more, resp := some .ordinary }) := by
    rw [fetch, he]; rfl
  rw [step, hf]
  dsimp only
  rw [decodeCommand_eq_toOption, Opc.ofWord]
  cases decodeWord w with
  | ok i => exact exec_eq_issue i _
  | error e => rfl

/-- The failure completion of a command that has only been accepted: nothing was sent, and only a CREATE touches the
instance (R226). -/
theorem abortStep_raise_accept (k : ErrorKind) (o : Opc) (s : State) :
    ((s.accept o).raise k).abortStep =
      s.completed (some k) (if o = .create then CipherInst.absent else s.inst) [] 0 [] s.events := by
  by_cases ho : o = .create
  · subst ho; simp [State.abortStep, State.completed, State.releaseEngine, Context.zero]
  · simp [State.abortStep, State.completed, State.releaseEngine, Context.zero, ho]

/-- An accepted command whose CHECK raises `k` is completed with `k` in the sequencer's two turns. -/
theorem issue_check_raises {o : Opc} {k : ErrorKind} (hs : s.seq = .idle)
    (hc : checkStep (s.accept o) = (s.accept o).raise k) (hev : s.Comes [] 2 rest) :
    issue P o s = s.completed (some k) (if o = .create then CipherInst.absent else s.inst) [] 0 [] rest := by
  obtain ⟨tail, hev, htail⟩ := hev.split
  rw [List.nil_append] at hev
  rw [issue_idle hs, hev]
  exact drive_check_turn
    (t := s.completed (some k) (if o = .create then CipherInst.absent else s.inst) [] 0 [] s.events)
    (State.accept_seq s o) (by rw [hc, State.raise_seq]) (by rw [hc, abortStep_raise_accept]) rfl htail

/-- Settles O4: the word's OPC is ILLEGAL, whose CHECK raises IllegalCommand. -/
theorem illegalWordFails : Obligations.IllegalWordFails := by
  refine ⟨rfl, fun s w more rest hs he hev h1 h2 h3 => ?_⟩
  have ho : Opc.ofWord w = .illegal := Opc.ofWord_eq_illegal_iff.mpr (forall_ne_encode_iff.mpr ⟨h1, h2, h3⟩)
  rw [step_cmd he, ho,
    issue_check_raises (s := { s with events := more, resp := some ⟨false, 0⟩ }) (k := .illegalCommand) hs rfl hev]
  rfl

/-- Settles O5: outside IDLE a command is dropped when it is issued, before its OPC is looked at. -/
theorem commandWhileBusyIsDropped : Obligations.CommandWhileBusyIsDropped := by
  refine ⟨fun i s hs => ?_, fun s w more hs he => ?_⟩
  · rw [exec_eq_issue, issue_busy hs]; rfl
  · rw [step_cmd he, issue_busy (s := { s with events := more, resp := some ⟨false, 0⟩ }) hs]; rfl

end Sys2Proof.Machine
end

section
/-! CREATE as a whole (R130 to R134): its three outcomes, and what a run of it leaves when it has failed. -/

namespace Sys2Proof.Machine

variable {P : Params} {s : State} {rest tail : List Event}

/-! ## The two checks on the staging registers (R131, R132) -/

theorem variantOf_keyLength_eq_none : variantOf s.keyLength = none ↔ s.keyLen ≠ 16 ∧ s.keyLen ≠ 32 := by
  simp only [variantOf_eq_none, State.keyLength, ne_eq, BitVec.toNat_eq]
  rfl

theorem ivSizeLegal_ivLength_eq_false :
    ivSizeLegal s.ivLength = false ↔ s.ivSize.toNat < 12 ∨ 16 < s.ivSize.toNat := by
  rw [← Bool.not_eq_true, ivSizeLegal_iff, State.ivLength]
  omega

/-! ## The outcomes of CREATE -/

theorem State.Comes.turn {k : Nat} (h : s.Comes [] (k + 1) rest) : ∃ tail, s.Turn tail := by
  obtain ⟨evs, hev, hturns⟩ := h.split
  rw [List.nil_append] at hev
  rcases hturns.succ with ⟨tail, rfl, -⟩ | ⟨rfl, -⟩
  · exact ⟨tail, .inl hev⟩
  · exact ⟨[], .inr ⟨hev, rfl⟩⟩

/-- A CREATE whose CHECK raises `k` completes with `k` and leaves no instance (R134, R226). -/
theorem exec_create_raises {k : ErrorKind} (hs : s.seq = .idle) (hev : s.Comes [] 2 rest)
    (hc : checkCreate (s.accept .create) = (s.accept .create).raise k) :
    exec .create s = .next (s.completed (some k) CipherInst.absent [] 0 [] rest) :=
  (exec_eq_issue .create s).trans (congrArg _ (issue_check_raises hs hc hev))

theorem exec_create_key (hs : s.seq = .idle) (hev : s.Comes [] 2 rest) (hk : variantOf s.keyLength = none) :
    exec .create s = .next (s.completed (some .invalidKeySize) CipherInst.absent [] 0 [] rest) :=
  exec_create_raises hs hev (checkCreate_key hk)

theorem exec_create_iv {v : Variant} (hs : s.seq = .idle) (hev : s.Comes [] 2 rest)
    (hk : variantOf s.keyLength = some v) (hi : ivSizeLegal s.ivLength = false) :
    exec .create s = .next (s.completed (some .invalidIvSize) CipherInst.absent [] 0 [] rest) :=
  exec_create_raises hs hev (checkCreate_iv hk hi)

/-- A CREATE that passes both checks is complete after the sequencer's first turn (R133, R227). -/
theorem exec_create_ok {v : Variant} (hs : s.seq = .idle) (hev : s.Turn tail)
    (hk : variantOf s.keyLength = some v) (hi : ivSizeLegal s.ivLength = true) :
    exec .create s = .next (s.completed none (s.stagedInst v) [] 0 [] tail) := by
  have hturn : seqTurn (s.accept .create) = s.completed none (s.stagedInst v) [] 0 [] s.events :=
    calc seqTurn (s.accept .create)
        = State.completeStep { s.accept .create with inst := s.stagedInst v } := seqTurn_create rfl rfl hk hi
      _ = _ := by simp [State.completeStep, State.completed, State.releaseEngine, Context.zero]
  have hturns : Turns 1 tail s.events := by
    rcases hev with hev | ⟨hev, rfl⟩
    · exact .inl hev
    · exact .inr ⟨rfl, 0, by omega, hev⟩
  rw [exec_eq_issue, Opc.ofInstr, issue_idle hs, drive_turn (.inl rfl) hturn rfl hturns]
  rfl

/-- The outcomes of a CREATE in IDLE, the key length first (R130). -/
theorem exec_create_cases (hs : s.seq = .idle) (hev : s.Comes [] 2 rest) :
    (variantOf s.keyLength = none ∧
      exec .create s = .next (s.completed (some .invalidKeySize) CipherInst.absent [] 0 [] rest)) ∨
    ∃ v, variantOf s.keyLength = some v ∧
      ((ivSizeLegal s.ivLength = false ∧
        exec .create s = .next (s.completed (some .invalidIvSize) CipherInst.absent [] 0 [] rest)) ∨
      (ivSizeLegal s.ivLength = true ∧
        ∃ tail, s.Turn tail ∧ exec .create s = .next (s.completed none (s.stagedInst v) [] 0 [] tail))) := by
  cases hk : variantOf s.keyLength with
  | none => exact .inl ⟨rfl, exec_create_key hs hev hk⟩
  | some v =>
    refine .inr ⟨v, rfl, ?_⟩
    cases hi : ivSizeLegal s.ivLength with
    | false => exact .inl ⟨rfl, exec_create_iv hs hev hk hi⟩
    | true =>
      obtain ⟨tail, hturn⟩ := hev.turn
      exact .inr ⟨rfl, tail, hturn, exec_create_ok hs hturn hk hi⟩

/-- Settles O7: of the outcomes of CREATE only the first reports InvalidKeySize, and it looks at KEY_LEN alone. -/
theorem createRejectsKeyLength : Obligations.CreateRejectsKeyLength := by
  refine ⟨rfl, fun s rest hs hev => ?_⟩
  have hfails (hk : s.keyLen ≠ 16 ∧ s.keyLen ≠ 32) := exec_create_key hs hev (variantOf_keyLength_eq_none.mpr hk)
  refine ⟨⟨?_, fun hk => ⟨_, hfails hk, rfl⟩⟩, fun h16 h32 => hfails ⟨h16, h32⟩⟩
  rintro ⟨t, ht, herr⟩
  rcases exec_create_cases hs hev with ⟨hk, -⟩ | ⟨v, -, ⟨-, he⟩ | ⟨-, tail, -, he⟩⟩
  · exact variantOf_keyLength_eq_none.mp hk
  · rw [he] at ht; cases ht; cases herr
  · rw [he] at ht; cases ht; cases herr

/-- Settles O8: a legal KEY_LEN rules the first outcome of CREATE out, and only the second reports InvalidIvSize. -/
theorem createRejectsIvSize : Obligations.CreateRejectsIvSize := by
  refine ⟨rfl, fun s rest hs hev hlen => ?_⟩
  have hlegal : variantOf s.keyLength ≠ none := fun hk => by
    obtain ⟨h16, h32⟩ := variantOf_keyLength_eq_none.mp hk
    exact hlen.elim h16 h32
  obtain ⟨v, hv⟩ := Option.ne_none_iff_exists'.mp hlegal
  have hfails (hi : s.ivSize.toNat < 12 ∨ 16 < s.ivSize.toNat) :=
    exec_create_iv hs hev hv (ivSizeLegal_ivLength_eq_false.mpr hi)
  refine ⟨⟨?_, fun hi => ⟨_, hfails hi, rfl⟩⟩, hfails⟩
  rintro ⟨t, ht, herr⟩
  rcases exec_create_cases hs hev with ⟨hk, -⟩ | ⟨_, -, ⟨hi, -⟩ | ⟨-, tail, -, he⟩⟩
  · exact absurd hk hlegal
  · exact ivSizeLegal_ivLength_eq_false.mp hi
  · rw [he] at ht; cases ht; cases herr

/-! ## A failed CREATE (R134) -/

/-- A state on the way of an accepted CREATE: in the command's CHECK or ABORT, or past its end, where an error means
that no instance is left. -/
def State.InCreate (s : State) : Prop :=
  ((s.seq = .check ∨ s.seq = .abort) ∧ s.ctx.opc = .create) ∨
    (s.seq = .idle ∧ (s.error = true → s.inst = CipherInst.absent))

theorem State.InCreate.phase (h : s.InCreate) : s.seq = .check ∨ s.seq = .abort ∨ s.seq = .idle := by
  rcases h with ⟨hs | hs, -⟩ | ⟨hs, -⟩
  exacts [.inl hs, .inr (.inl hs), .inr (.inr hs)]

theorem State.InCreate.opc (h : s.InCreate) (hs : s.seq ≠ .idle) : s.ctx.opc = .create := by
  rcases h with ⟨-, ho⟩ | ⟨hi, -⟩
  exacts [ho, absurd hi hs]

theorem State.InCreate.inst_of_error (h : s.InCreate) (hs : s.seq = .idle) (he : s.error = true) :
    s.inst = CipherInst.absent := by
  rcases h with ⟨hbusy, -⟩ | ⟨-, hi⟩
  · simp [hs] at hbusy
  · exact hi he

theorem checkTurn_inCreate (hs : s.seq = .check) (ho : s.ctx.opc = .create) : (seqTurn s).InCreate := by
  apply checkTurn_cases (Q := State.InCreate) s hs
  case hraise => exact fun _ => .inl ⟨.inr rfl, ho⟩
  case hcreate => exact fun _ _ _ _ => .inr ⟨by simp, by simp⟩
  case hencrypt => exact fun h => absurd (ho.symm.trans h) (by decide)
  case hdecrypt => exact fun h => absurd (ho.symm.trans h) (by decide)

theorem seqMove_inCreate (e : Event) (h : s.InCreate) : (seqMove P e s).InCreate := by
  have hphase := h.phase
  apply seqMove_cases (Q := State.InCreate) e s h
  case hcheck => exact fun hs _ => checkTurn_inCreate hs (h.opc (by simp [hs]))
  case habort =>
    intro hs _
    exact .inr ⟨rfl, fun _ => by rw [State.abortStep_inst, if_pos (h.opc (by simp [hs]))]⟩
  all_goals intro hs; simp [hs] at hphase

theorem issue_create_inCreate (hs : s.seq = .idle) : (issue P .create s).InCreate := by
  rw [issue_idle hs]
  exact drive_keeps (fun _ _ h => h) (fun e _ => seqMove_inCreate e) s.events _ (.inl ⟨.inl rfl, rfl⟩)

/-- Whatever events come, a CREATE that has ended with an error has left no instance. -/
theorem exec_create_failed_inst {t : State} (hs : s.seq = .idle) (h : exec .create s = .next t) (ht : t.seq = .idle)
    (herr : t.error = true) : t.inst = CipherInst.absent := by
  rw [exec_eq_issue] at h
  cases h
  exact (issue_create_inCreate hs).inst_of_error ht herr

/-- Without an instance ENCRYPT and DECRYPT complete with NoInstance (R181, R201). -/
theorem exec_noInstance {i : Instr} (hi : i ≠ .create) (hs : s.seq = .idle) (hv : s.inst.valid = false)
    (hev : s.Comes [] 2 rest) :
    exec i s = .next (s.completed (some .noInstance) s.inst [] 0 [] rest) := by
  have hc : checkStep (s.accept (.ofInstr i)) = (s.accept (.ofInstr i)).raise .noInstance := by
    cases i with
    | create => exact absurd rfl hi
    | encrypt => exact checkEncrypt_noInstance hv
    | decrypt => exact checkDecrypt_noInstance hv
  rw [exec_eq_issue, issue_check_raises hs hc hev, if_neg (Opc.ofInstr_ne_create hi)]

/-- Settles O9: a failed CREATE leaves the absent instance, which is not valid. -/
theorem failedCreateInvalidates : Obligations.FailedCreateInvalidates := by
  intro s t hs h ht herr
  have hinst : t.inst = CipherInst.absent := exec_create_failed_inst hs h ht herr
  rw [hinst]
  refine ⟨⟨rfl, rfl, rfl, rfl, rfl⟩, fun u rest hu hseq hev => ?_⟩
  have hv : u.inst.valid = false := by rw [hu]; rfl
  exact ⟨exec_noInstance (by decide) hseq hv hev, exec_noInstance (by decide) hseq hv hev⟩

end Sys2Proof.Machine
end

section
/-! A whole ENCRYPT or DECRYPT whose engine answers are all ok (R157, R159, R160): from acceptance to the start of the
stream, through its blocks to COMMIT, and what OUT then holds. -/

namespace Sys2Proof.Machine

variable {P : Params} {s t : State} {o : Opc} {n src dst : Nat} {iv : List Byte} {b : Block} {msgs : List PortMsg}
  {rest tail : List Event}

/-! ## The start of a stream -/

/-- The state in which a command accepted at `s` waits for the answer to `eng_init`, having sent `msgs` so far
(R157, R183, R203). -/
def State.streamStart (s : State) (o : Opc) (n src dst : Nat) (iv : List Byte) (msgs : List PortMsg) : State :=
  { s with
    seq := .initWait, done := false, error := false, errCode := none, outBuf := [], outLen := 0,
    ctx := { Context.zero with
      opc := o, n := n, src := src, dst := dst, nblk := blocks n, ivReg := pad iv, ctr := pad iv, initIssued := true },
    portLog := s.portLog ++ msgs }

/-- An ENCRYPT whose IV is the first INST_IVSIZE bytes of the draw `b`, waiting for `eng_init` (R183). -/
def State.encryptStart (s : State) (b : Block) : State :=
  s.streamStart .encrypt s.msgLength 0 s.inst.ivBytes (b.toList.take s.inst.ivBytes)
    [.rng s.inst.ivBytes, .engInit s.inst.variant s.inst.keyBytes]

/-- A DECRYPT whose IV is the first INST_IVSIZE bytes of IN, waiting for `eng_init` (R203). -/
def State.decryptStart (s : State) : State :=
  s.streamStart .decrypt (s.msgLength - s.inst.ivBytes) s.inst.ivBytes 0 (Memory.readBytes s.inBuf 0 s.inst.ivBytes)
    [.engInit s.inst.variant s.inst.keyBytes]

theorem answerRng_check_accept (hv : s.inst.valid = true) (hl : s.msgLength + s.inst.ivBytes ≤ s.bufBytes) :
    answerRng b (checkEncrypt (s.accept .encrypt)) = s.encryptStart b := by
  rw [checkEncrypt_ok (s := s.accept .encrypt) hv (Nat.not_lt.mpr hl)]
  simp [State.encryptStart, State.streamStart, answerRng, State.beginStream, State.send, State.accept,
    State.zeroizeOut, State.msgLength, Context.zero]

theorem checkDecrypt_accept (hv : s.inst.valid = true) (hl : s.msgLength ≤ s.bufBytes)
    (hl' : s.inst.ivBytes ≤ s.msgLength) : checkDecrypt (s.accept .decrypt) = s.decryptStart :=
  checkDecrypt_ok hv (Nat.not_lt.mpr hl) (Nat.not_lt.mpr hl')

theorem drive_encryptStart (hv : s.inst.valid = true) (hl : s.msgLength + s.inst.ivBytes ≤ s.bufBytes)
    (es : List Event) :
    drive P (.internal :: .rng b :: es) (s.accept .encrypt) = drive P es (s.encryptStart b) := by
  have hseq : (checkEncrypt (s.accept .encrypt)).seq = .rngWait :=
    congrArg State.seq (checkEncrypt_ok (s := s.accept .encrypt) hv (Nat.not_lt.mpr hl))
  have hturn : seqTurn (s.accept .encrypt) = checkEncrypt (s.accept .encrypt) :=
    seqTurn_check rfl fun hc => absurd (hseq.symm.trans hc) (by decide)
  rw [drive_enabled _ rfl, seqMove_internal, hturn, drive_enabled _ (by rw [hseq]; rfl), seqMove_rng hseq,
    answerRng_check_accept hv hl]

theorem drive_decryptStart (hv : s.inst.valid = true) (hl : s.msgLength ≤ s.bufBytes)
    (hl' : s.inst.ivBytes ≤ s.msgLength) (es : List Event) :
    drive P (.internal :: es) (s.accept .decrypt) = drive P es s.decryptStart := by
  have hcheck : checkStep (s.accept .decrypt) = s.decryptStart := checkDecrypt_accept hv hl hl'
  have hturn : seqTurn (s.accept .decrypt) = s.decryptStart :=
    (seqTurn_check rfl (by rw [hcheck]; exact Seq.noConfusion)).trans hcheck
  rw [drive_enabled _ rfl, seqMove_internal, hturn]

/-- The IV register holds the IV in its first INST_IVSIZE bytes (R150, R184). -/
theorem take_pad_of_length {k : Nat} (hk : iv.length = k) (h16 : k ≤ 16) : (pad iv).toList.take k = iv := by
  subst hk
  exact take_pad iv h16

theorem take_draw_length (b : Block) {k : Nat} (h16 : k ≤ 16) : (b.toList.take k).length = k := by
  simp [h16]

/-- A planned stream that has taken no block meets the stream's law. -/
theorem Streamed.start (hp : s.Planned) (hi : s.ctx.initIssued = true) (hj : s.ctx.j = 0) (hk : s.ctx.ksCount = 0)
    (hiv : s.ctx.ivReg = pad s.iv) (hctr : s.ctx.ctr = pad s.iv) (ho : s.outBuf = []) : s.Streamed P := by
  refine ⟨hp, hi, by simp [hj], by simp [hj, hk], hiv, by rw [hj]; exact hctr, fun a => ?_⟩
  rw [ho, hk, if_neg (by omega)]
  rfl

theorem streamStart_streamed (hp : (s.streamStart o n src dst iv msgs).Planned)
    (hiv : (s.streamStart o n src dst iv msgs).iv = iv) : (s.streamStart o n src dst iv msgs).Streamed P :=
  Streamed.start hp rfl rfl rfl (congrArg pad hiv.symm) (congrArg pad hiv.symm) rfl

theorem encryptStart_iv (h16 : s.inst.ivBytes ≤ 16) : (s.encryptStart b).iv = b.toList.take s.inst.ivBytes :=
  take_pad_of_length (take_draw_length b h16) h16

theorem decryptStart_iv (h16 : s.inst.ivBytes ≤ 16) :
    s.decryptStart.iv = Memory.readBytes s.inBuf 0 s.inst.ivBytes :=
  take_pad_of_length (Memory.readBytes_length ..) h16

theorem encryptStart_streamed (hv : s.inst.valid = true) (h16 : s.inst.ivBytes ≤ 16)
    (hl : s.msgLength + s.inst.ivBytes ≤ s.bufBytes) : (s.encryptStart b).Streamed P :=
  streamStart_streamed ⟨hv, rfl, rfl, rfl, rfl, rfl, hl⟩ (encryptStart_iv h16)

theorem decryptStart_streamed (hv : s.inst.valid = true) (h16 : s.inst.ivBytes ≤ 16)
    (hl : s.msgLength ≤ s.bufBytes) (hl' : s.inst.ivBytes ≤ s.msgLength) : s.decryptStart.Streamed P :=
  streamStart_streamed ⟨hv, rfl, rfl, rfl, rfl, rfl, hl', hl, decryptStart_iv h16⟩ (decryptStart_iv h16)

/-! ## OUT at COMMIT (R159, R160) -/

/-- Byte `a` of OUT after an ENCRYPT of the first `n` bytes of `m` under `iv`: IV, body, zeros (R159). -/
def encryptedByte (P : Params) (c : CipherInst) (m : Memory) (iv : List Byte) (n a : Nat) : Byte :=
  if a < c.ivBytes then iv.getD a 0
  else if a < c.ivBytes + n then
    Memory.readByte m (a - c.ivBytes) ^^^ keystreamByte P c.variant c.keyBytes iv (a - c.ivBytes)
  else 0

/-- Byte `a` of OUT after a DECRYPT of a body of `n` bytes, which follows the IV in `m`: plaintext, zeros (R160). -/
def decryptedByte (P : Params) (c : CipherInst) (m : Memory) (iv : List Byte) (n a : Nat) : Byte :=
  if a < n then Memory.readByte m (c.ivBytes + a) ^^^ keystreamByte P c.variant c.keyBytes iv a else 0

/-- OUT as ENCRYPT's COMMIT leaves it: the body as streamed, the IV written before it (R184). -/
def State.encryptOut (s : State) : Memory := Memory.writeBytes s.outBuf 0 s.iv

theorem State.iv_length (h16 : s.inst.ivBytes ≤ 16) : s.iv.length = s.inst.ivBytes := take_draw_length _ h16

theorem planned_encrypt_iff (ho : s.ctx.opc = .encrypt) :
    s.Planned ↔ s.inst.valid = true ∧ s.ctx.code = none ∧ s.ctx.nblk = blocks s.ctx.n ∧ s.ctx.n = s.msgLength ∧
      s.ctx.src = 0 ∧ s.ctx.dst = s.inst.ivBytes ∧ s.msgLength + s.inst.ivBytes ≤ s.bufBytes := by
  simp only [State.Planned, ho]

theorem planned_decrypt_iff (ho : s.ctx.opc = .decrypt) :
    s.Planned ↔ s.inst.valid = true ∧ s.ctx.code = none ∧ s.ctx.nblk = blocks s.ctx.n ∧
      s.ctx.n = s.msgLength - s.inst.ivBytes ∧ s.ctx.src = s.inst.ivBytes ∧ s.ctx.dst = 0 ∧
      s.inst.ivBytes ≤ s.msgLength ∧ s.msgLength ≤ s.bufBytes ∧
      s.iv = Memory.readBytes s.inBuf 0 s.inst.ivBytes := by
  simp only [State.Planned, ho]

theorem encryptOut_fits (h16 : s.inst.ivBytes ≤ 16) (hf : Memory.Fits s.outBuf n) (hl : s.inst.ivBytes ≤ n) :
    Memory.Fits s.encryptOut n :=
  Memory.fits_writeBytes hf (by rwa [State.iv_length h16, Nat.zero_add])

theorem Streamed.readByte_encryptOut (h : s.Streamed P) (ho : s.ctx.opc = .encrypt) (hj : s.ctx.j = s.ctx.nblk)
    (h16 : s.inst.ivBytes ≤ 16) (hwf : Memory.wf s.outBuf) (a : Nat) :
    Memory.readByte s.encryptOut a = encryptedByte P s.inst s.inBuf s.iv s.msgLength a := by
  have hk := Streamed.ksCount_full h hj
  obtain ⟨hp, -, -, -, -, -, hout⟩ := h
  obtain ⟨-, -, -, hn, hsrc, hdst, -⟩ := (planned_encrypt_iff ho).mp hp
  rw [State.encryptOut, Memory.readByte_writeBytes hwf, State.iv_length h16, hout, hk, hn, hsrc, hdst, encryptedByte]
  by_cases hiv : a < s.inst.ivBytes
  · rw [if_pos (by omega), if_pos hiv, Nat.sub_zero]
  · rw [if_neg (by omega), if_neg hiv, Nat.zero_add]
    exact if_congr (by omega) rfl rfl

theorem Streamed.readByte_decryptOut (h : s.Streamed P) (ho : s.ctx.opc = .decrypt) (hj : s.ctx.j = s.ctx.nblk)
    (a : Nat) :
    Memory.readByte s.outBuf a = decryptedByte P s.inst s.inBuf s.iv (s.msgLength - s.inst.ivBytes) a := by
  have hk := Streamed.ksCount_full h hj
  obtain ⟨hp, -, -, -, -, -, hout⟩ := h
  obtain ⟨-, -, -, hn, hsrc, hdst, -⟩ := (planned_decrypt_iff ho).mp hp
  rw [hout, hk, hn, hsrc, hdst, decryptedByte]
  exact if_congr (by omega) (by rw [Nat.sub_zero]) rfl

/-- At the end of the stream the length check of COMMIT passes (R158), and the command completes (R184, R204). -/
theorem commitStep_encrypt (h : s.Streamed P) (ho : s.ctx.opc = .encrypt) (hj : s.ctx.j = s.ctx.nblk) :
    commitStep s = State.completeStep
      { s with outBuf := s.encryptOut, outLen := BitVec.ofNat 32 (s.inst.ivBytes + s.ctx.n) } := by
  rw [commitStep, ho]
  exact commitEncrypt_ok (Streamed.ksCount_full h hj)

theorem commitStep_decrypt (h : s.Streamed P) (ho : s.ctx.opc = .decrypt) (hj : s.ctx.j = s.ctx.nblk) :
    commitStep s = State.completeStep { s with outLen := BitVec.ofNat 32 s.ctx.n } := by
  rw [commitStep, ho]
  exact commitDecrypt_ok (Streamed.ksCount_full h hj)

/-- Below `n` a keystream byte is an entry of R154's list of `n` bytes. -/
theorem encryptedByte_eq_keystream (c : CipherInst) (m : Memory) (iv : List Byte) (n a : Nat) :
    encryptedByte P c m iv n a =
      if a < c.ivBytes then iv.getD a 0
      else if a < c.ivBytes + n then
        Memory.readByte m (a - c.ivBytes) ^^^ (keystream P c.variant c.keyBytes iv n).getD (a - c.ivBytes) 0
      else 0 := by
  rw [encryptedByte]
  split_ifs
  · rfl
  · rw [keystream_getD _ _ _ _ _ _ (by omega)]
  · rfl

theorem decryptedByte_eq_keystream (c : CipherInst) (m : Memory) (iv : List Byte) (n a : Nat) :
    decryptedByte P c m iv n a =
      if a < n then Memory.readByte m (c.ivBytes + a) ^^^ (keystream P c.variant c.keyBytes iv n).getD a 0 else 0 := by
  rw [decryptedByte]
  split_ifs with ha
  · rw [keystream_getD _ _ _ _ _ _ ha]
  · rfl

/-! ## From the start to the completion -/

/-- All engine answers ok carry a stream from its start to COMMIT, with every counter block asked for in order. -/
theorem drive_streamStart (h : (s.streamStart o n src dst iv msgs).Streamed P)
    (hiv : (s.streamStart o n src dst iv msgs).iv = iv) (hn : dst + n ≤ s.bufBytes) :
    ∃ t : State,
      (∀ tail, drive P (.eng .ok :: (List.replicate (blocks n) (.eng .ok) ++ tail))
        (s.streamStart o n src dst iv msgs) = drive P tail t) ∧
      t.Streamed P ∧ Memory.Fits t.outBuf s.bufBytes ∧ t.seq = .commit ∧ t.ctx.j = t.ctx.nblk ∧
      (s.streamStart o n src dst iv msgs).StreamedTo t
        ((List.range (blocks n)).map fun j => .engBlock (counterBlock P (pad iv) j)) := by
  obtain ⟨t, hd, hst, hf, hj, hseq, hto⟩ := drive_stream (blocks n) rfl h (Memory.fits_nil _) hn rfl (Nat.le_refl _)
  refine ⟨t, hd, hst, hf, ?_, ?_, ?_⟩
  · rw [hseq]; exact if_neg (Nat.lt_irrefl _)
  · rw [hj, hto]; rfl
  · rw [hiv] at hto
    have hmin : min (blocks n + 1) (s.streamStart o n src dst iv msgs).ctx.nblk = blocks n :=
      Nat.min_eq_right (Nat.le_succ _)
    rw [hmin] at hto
    exact hto

/-- The success completion of a stream that began at `s`: only what a completion writes differs from `s` (R227). -/
theorem drive_commit_completes {more : List PortMsg} {out : Memory} {len : Word}
    (hto : (s.streamStart o n src dst iv msgs).StreamedTo t more) (hseq : t.seq = .commit)
    (hcommit : commitStep t = State.completeStep { t with outBuf := out, outLen := len }) (htail : Turns 1 rest tail) :
    drive P tail t = s.completed none s.inst out len (msgs ++ more ++ [.engRelease]) rest := by
  have hdone : State.completeStep { t with outBuf := out, outLen := len } =
      s.completed none s.inst out len (msgs ++ more ++ [.engRelease]) s.events := by
    rw [hto]
    simp [State.completeStep, State.completed, State.releaseEngine, State.streamStart, State.send]
  rw [drive_turn (.inr (.inl hseq)) ((seqTurn_commit hseq).trans (hcommit.trans hdone)) rfl htail]
  rfl

/-- An ENCRYPT whose inputs are a draw and ok answers to the end completes with IV and body in OUT (R159, R184). -/
theorem issue_encrypt_completes (hs : s.seq = .idle) (hv : s.inst.valid = true) (h16 : s.inst.ivBytes ≤ 16)
    (hl : s.msgLength + s.inst.ivBytes ≤ s.bufBytes) (hev : s.Comes (encryptOks b (blocks s.msgLength)) 1 rest) :
    ∃ out : Memory,
      issue P .encrypt s = s.completed none s.inst out (BitVec.ofNat 32 (s.inst.ivBytes + s.msgLength))
        (encryptMsgs P s.inst (b.toList.take s.inst.ivBytes) (blocks s.msgLength)) rest ∧
      Memory.Fits out s.bufBytes ∧
      ∀ a, Memory.readByte out a =
        encryptedByte P s.inst s.inBuf (b.toList.take s.inst.ivBytes) s.msgLength a := by
  obtain ⟨tail, hev, htail⟩ := hev.split
  have hiv := encryptStart_iv (b := b) h16
  obtain ⟨t, hd, hst, hf, hseq, hj, hto⟩ :=
    drive_streamStart (encryptStart_streamed (P := P) (b := b) hv h16 hl) hiv (by omega)
  have ht : t.inst = s.inst ∧ t.inBuf = s.inBuf ∧ t.iv = b.toList.take s.inst.ivBytes ∧ t.ctx.opc = .encrypt ∧
      t.ctx.n = s.msgLength ∧ t.msgLength = s.msgLength := by
    rw [hto]; exact ⟨rfl, rfl, hiv, rfl, rfl, rfl⟩
  obtain ⟨hinst, hin, htiv, ho, hn, hmsg⟩ := ht
  have hcommit : commitStep t = State.completeStep
      { t with outBuf := t.encryptOut, outLen := BitVec.ofNat 32 (s.inst.ivBytes + s.msgLength) } := by
    rw [← hinst, ← hn]
    exact commitStep_encrypt hst ho hj
  refine ⟨t.encryptOut, ?_, ?_, fun a => ?_⟩
  · rw [issue_idle hs, hev, encryptOks]
    exact (drive_encryptStart hv hl _).trans ((hd tail).trans (drive_commit_completes hto hseq hcommit htail))
  · exact encryptOut_fits (by rwa [hinst]) hf (by rw [hinst]; omega)
  · rw [Streamed.readByte_encryptOut hst ho hj (by rwa [hinst]) hf.1, hinst, hin, htiv, hmsg]

/-- A DECRYPT whose inputs are ok answers to the end completes with the plaintext in OUT (R160, R204). -/
theorem issue_decrypt_completes (hs : s.seq = .idle) (hv : s.inst.valid = true) (h16 : s.inst.ivBytes ≤ 16)
    (hl : s.msgLength ≤ s.bufBytes) (hl' : s.inst.ivBytes ≤ s.msgLength)
    (hev : s.Comes (decryptOks (blocks (s.msgLength - s.inst.ivBytes))) 1 rest) :
    ∃ out : Memory,
      issue P .decrypt s = s.completed none s.inst out (BitVec.ofNat 32 (s.msgLength - s.inst.ivBytes))
        (decryptMsgs P s.inst (Memory.readBytes s.inBuf 0 s.inst.ivBytes) (blocks (s.msgLength - s.inst.ivBytes)))
        rest ∧
      Memory.Fits out s.bufBytes ∧
      ∀ a, Memory.readByte out a =
        decryptedByte P s.inst s.inBuf (Memory.readBytes s.inBuf 0 s.inst.ivBytes) (s.msgLength - s.inst.ivBytes)
          a := by
  obtain ⟨tail, hev, htail⟩ := hev.split
  have hiv := decryptStart_iv (s := s) h16
  obtain ⟨t, hd, hst, hf, hseq, hj, hto⟩ :=
    drive_streamStart (decryptStart_streamed (P := P) hv h16 hl hl') hiv (by omega)
  have ht : t.inst = s.inst ∧ t.inBuf = s.inBuf ∧ t.iv = Memory.readBytes s.inBuf 0 s.inst.ivBytes ∧
      t.ctx.opc = .decrypt ∧ t.ctx.n = s.msgLength - s.inst.ivBytes ∧ t.msgLength = s.msgLength := by
    rw [hto]; exact ⟨rfl, rfl, hiv, rfl, rfl, rfl⟩
  obtain ⟨hinst, hin, htiv, ho, hn, hmsg⟩ := ht
  have hcommit : commitStep t = State.completeStep
      { t with outBuf := t.outBuf, outLen := BitVec.ofNat 32 (s.msgLength - s.inst.ivBytes) } := by
    rw [← hn]
    exact commitStep_decrypt hst ho hj
  refine ⟨t.outBuf, ?_, hf, fun a => ?_⟩
  · rw [issue_idle hs, hev, decryptOks]
    exact (drive_decryptStart hv hl hl' _).trans ((hd tail).trans (drive_commit_completes hto hseq hcommit htail))
  · rw [Streamed.readByte_decryptOut hst ho hj, hinst, hin, htiv, hmsg]

/-! ## The statements -/

/-- Settles O11: the run of an ENCRYPT whose answers are all ok, its keystream byte by byte as R154's list. -/
theorem encryptCompletesWithIvAndBody : Obligations.EncryptCompletesWithIvAndBody := by
  intro s b rest hs hok hv hcap hl hev
  obtain ⟨-, hbuf, -⟩ := hcap
  have h16 := (hok.bounds hv).2
  obtain ⟨out, hexec, hfits, hout⟩ := issue_encrypt_completes (P := Config.machine) hs hv h16 hl hev
  refine ⟨out, _, (exec_eq_issue .encrypt s).trans (congrArg _ hexec), ?_, hfits, fun a => ?_⟩
  · exact outLen_toNat (by simp only [State.msgLength, CipherInst.ivBytes]; omega)
  · rw [hout, encryptedByte_eq_keystream]
    exact if_ctx_congr Iff.rfl (fun ha => congrArg (Option.getD · 0) (List.getElem?_take_of_lt ha)) fun _ => rfl

/-- Settles O16: the run of a DECRYPT whose answers are all ok, its keystream byte by byte as R154's list. -/
theorem decryptCompletesWithPlaintext : Obligations.DecryptCompletesWithPlaintext := by
  intro s rest hs hok hv hcap hl' hl hev
  obtain ⟨-, hbuf, -⟩ := hcap
  have h16 := (hok.bounds hv).2
  obtain ⟨out, hexec, hfits, hout⟩ := issue_decrypt_completes (P := Config.machine) hs hv h16 hl hl' hev
  refine ⟨out, _, (exec_eq_issue .decrypt s).trans (congrArg _ hexec), ?_, hfits, fun a => ?_⟩
  · exact outLen_toNat (by simp only [State.msgLength, CipherInst.ivBytes]; omega)
  · exact (hout a).trans (decryptedByte_eq_keystream ..)

/-- Settles O23: byte by byte `pad` is the IV with zeros for what it lacks, and the spec's example is computed. -/
theorem paddingIsZeroOnTheRight : Obligations.PaddingIsZeroOnTheRight := by
  refine ⟨fun iv _ _ i => ?_, fun iv h => ?_, by decide⟩
  · rw [show (pad iv)[i] = iv.getD i.val 0 from pad_getElem iv i.val i.isLt]
    split
    case isTrue h => exact List.getD_eq_getElem _ _ h
    case isFalse h => exact List.getD_eq_default _ _ (Nat.not_lt.mp h)
  · have htake := take_pad iv h.le
    rwa [h, List.take_of_length_le (by simp)] at htake

end Sys2Proof.Machine
end

section
/-! The invariant through the sequencer's moves (R42, R158): the two completions, the moves of a command under
way, and so every move of the sequencer, keep it. -/

namespace Sys2Proof.Machine

variable {P : Params} {s t : State}

/-! ## The end of a command -/

/-- IDLE with a zero context meets the invariant when OUT ends at OUT_LEN and the flags agree. -/
theorem inv_of_idle (hs : s.seq = .idle) (hcap : CapOk s.bufBytes) (hinst : s.inst.Ok)
    (hin : Memory.Fits s.inBuf s.bufBytes) (hout : Memory.Fits s.outBuf s.bufBytes) (hctx : s.ctx = Context.zero)
    (herr : s.error = s.errCode.isSome) (hlen : s.outLen.toNat ≤ s.bufBytes)
    (hz : ∀ a, s.outLen.toNat ≤ a → Memory.readByte s.outBuf a = 0) (hfail : s.error = true → s.outLen = 0) :
    s.Inv P := by
  refine ⟨hcap, hinst, hin, hout, ?_, herr, fun _ => hs, ?_⟩
  · rw [hctx]; decide
  · simp only [State.PhaseOk, hs]
    exact ⟨hctx, hlen, hz, hfail⟩

theorem completeStep_inv (hcap : CapOk s.bufBytes) (hinst : s.inst.Ok) (hin : Memory.Fits s.inBuf s.bufBytes)
    (hout : Memory.Fits s.outBuf s.bufBytes) (hlen : s.outLen.toNat ≤ s.bufBytes)
    (hz : ∀ a, s.outLen.toNat ≤ a → Memory.readByte s.outBuf a = 0) : s.completeStep.Inv P := by
  apply inv_of_idle
  case hs | hctx | herr | hfail => simp
  all_goals simpa

theorem abortStep_inv (h : s.Inv P) (hs : s.seq = .abort) : s.abortStep.Inv P := by
  obtain ⟨-, hcode⟩ := h.at_abort hs
  apply inv_of_idle
  case hinst =>
    rw [State.abortStep_inst]
    split
    · decide
    · exact h.inst
  case herr => simpa [Option.isSome_iff_ne_none] using hcode
  case hcap => simpa using h.cap
  case hin => simpa using h.inFits
  case hout => simpa using Memory.fits_nil _
  all_goals simp

/-- A completion with OUT = `out` and OUT_LEN = `n`, nothing in `out` beyond `n`. -/
theorem completeStep_out_inv (h : s.Inv P) {out : Memory} {n : Nat} (hout : Memory.Fits out s.bufBytes)
    (hn : n ≤ s.bufBytes) (hz : ∀ a, n ≤ a → Memory.readByte out a = 0) :
    (State.completeStep { s with outBuf := out, outLen := BitVec.ofNat 32 n }).Inv P := by
  obtain ⟨-, hbuf, -⟩ := h.cap
  have hlen : (BitVec.ofNat 32 n).toNat = n := outLen_toNat (hn.trans hbuf)
  exact completeStep_inv h.cap h.inst h.inFits hout (hlen.trans_le hn) fun a ha => hz a (hlen.symm.trans_le ha)

/-- A COMMIT that stands in a run completes: the length check passes and OUT holds the whole stream (R158, R227). -/
theorem commitStep_inv (h : s.Inv P) (hs : s.seq = .commit) : (commitStep s).Inv P := by
  obtain ⟨-, hst, hj⟩ := h.at_commit hs
  have hin := Streamed.inside hst h.inst
  have h16 := (h.inst.bounds hst.1.1).2
  rcases hst.1.opc_cases with ho | ho
  · obtain ⟨-, -, -, hn, -, hdst, -⟩ := (planned_encrypt_iff ho).mp hst.1
    rw [commitStep_encrypt hst ho hj]
    refine completeStep_out_inv h (encryptOut_fits h16 h.outFits (by omega)) (by omega) fun a ha => ?_
    rw [Streamed.readByte_encryptOut hst ho hj h16 h.outFits.1, encryptedByte, if_neg (by omega), if_neg (by omega)]
  · obtain ⟨-, -, -, hn, -, hdst, -⟩ := (planned_decrypt_iff ho).mp hst.1
    rw [commitStep_decrypt hst ho hj]
    refine completeStep_out_inv h h.outFits (by omega) fun a ha => ?_
    exact (Streamed.readByte_decryptOut hst ho hj a).trans (if_neg (by omega))

/-! ## A command under way -/

/-- A move between busy phases: what it changes is the phase, OUT, the context and the port messages. -/
theorem State.Inv.move (h : s.Inv P) (hq : s.Quiet)
    (ht : t = { s with seq := t.seq, outBuf := t.outBuf, ctx := t.ctx, portLog := t.portLog })
    (hout : Memory.Fits t.outBuf s.bufBytes) (hfits : t.ctx.Fits) (hphase : t.Quiet → t.PhaseOk P) : t.Inv P := by
  have hquiet : t.Quiet := by rw [ht]; exact hq
  have herr : t.error = t.errCode.isSome := by rw [ht]; exact h.errorBit
  have hcap : t.bufBytes = s.bufBytes := by rw [ht]
  have hinst : t.inst = s.inst := by rw [ht]
  have hin : t.inBuf = s.inBuf := by rw [ht]
  refine ⟨hcap ▸ h.cap, hinst ▸ h.inst, hin ▸ hcap ▸ h.inFits, hcap ▸ hout, hfits, herr, ?_, hphase hquiet⟩
  exact fun hd => absurd (hquiet.1.symm.trans hd) (by decide)

theorem phaseOk_initWait (hs : s.seq = .initWait) (hst : s.Streamed P) (hj : s.ctx.j = 0) (hq : s.Quiet) :
    s.PhaseOk P := by
  simp only [State.PhaseOk, hs]
  exact ⟨hq, hst, hj⟩

theorem phaseOk_blkWait (hs : s.seq = .blkWait) (hst : s.Streamed P) (hj : s.ctx.j < s.ctx.nblk) (hq : s.Quiet) :
    s.PhaseOk P := by
  simp only [State.PhaseOk, hs]
  exact ⟨hq, hst, hj⟩

theorem phaseOk_commit (hs : s.seq = .commit) (hst : s.Streamed P) (hj : s.ctx.j = s.ctx.nblk) (hq : s.Quiet) :
    s.PhaseOk P := by
  simp only [State.PhaseOk, hs]
  exact ⟨hq, hst, hj⟩

/-- Acceptance keeps the invariant (R225). -/
theorem accept_inv (h : s.Inv P) (o : Opc) : (s.accept o).Inv P :=
  ⟨h.cap, h.inst, h.inFits, Memory.fits_nil _, (by decide : Context.zero.Fits), rfl, fun hd => absurd hd (by simp),
    ⟨rfl, rfl, rfl, rfl⟩, rfl, o, rfl⟩

theorem raise_inv (h : s.Inv P) (hq : s.Quiet) (k : ErrorKind) : (s.raise k).Inv P :=
  h.move hq rfl h.outFits h.fits fun hq => show s.Quiet ∧ some k ≠ none from ⟨hq, Option.some_ne_none k⟩

theorem blocks_lt {n : Nat} (h : n ≤ 65536) : blocks n < 2 ^ 13 := by
  simp only [blocks]; omega

/-- What a CREATE installs meets R37. -/
theorem stagedInst_ok {v : Variant} (hv : variantOf s.keyLength = some v) (hi : ivSizeLegal s.ivLength = true) :
    (s.stagedInst v).Ok := by
  have hkey : s.keyLength = 16 ∨ s.keyLength = 32 := (variantOf_eq_some hv).imp And.left And.left
  have hiv := (ivSizeLegal_iff _).mp hi
  have hkl : (s.stagedInst v).keyLen.toNat = s.keyLength := by
    rw [State.stagedInst, BitVec.toNat_ofNat, Nat.mod_eq_of_lt (by omega)]
  have hil : (s.stagedInst v).ivBytes = s.ivLength := by
    rw [State.stagedInst, CipherInst.ivBytes, BitVec.toNat_ofNat, Nat.mod_eq_of_lt (by omega)]
  rw [CipherInst.Ok, if_pos (show (s.stagedInst v).valid = true from rfl), hkl, hil]
  refine ⟨hkey.imp (congrArg (BitVec.ofNat 6)) (congrArg (BitVec.ofNat 6)), hiv.1, hiv.2, hv, fun i hi => ?_⟩
  simp [State.stagedInst, takeKey, hi]

/-- The CHECK of a run finds the state as acceptance left it (R225). -/
theorem State.Inv.accept_eq (h : s.Inv P) (hs : s.seq = .check) : s.accept s.ctx.opc = s := by
  obtain ⟨⟨hdone, herror, herr, hlen⟩, hout, o, hctx⟩ := h.at_check hs
  have hopc : s.ctx.opc = o := by rw [hctx]
  cases s
  simp_all [State.accept, State.zeroizeOut]

theorem checkEncrypt_inv (h : s.Inv P) (hs : s.seq = .check) (ho : s.ctx.opc = .encrypt)
    (hv : s.inst.valid = true) (hl : s.msgLength + s.inst.ivBytes ≤ s.bufBytes) : (checkEncrypt s).Inv P := by
  obtain ⟨hq, hout, o, hctx⟩ := h.at_check hs
  have h16 := (h.inst.bounds hv).2
  obtain ⟨-, hbuf, -⟩ := h.cap
  have hcode : s.ctx.code = none := by rw [hctx]; rfl
  have hinit : s.ctx.initIssued = false := by rw [hctx]; rfl
  have hn : s.msgLength ≤ 65536 := by omega
  rw [checkEncrypt_ok hv (by omega)]
  refine h.move hq rfl h.outFits ⟨?_, Nat.two_pow_pos 5, ?_, blocks_lt hn, Nat.two_pow_pos 13, Nat.two_pow_pos 17⟩
    fun hq => ⟨hq, hout, (planned_encrypt_iff (by exact ho)).mpr ⟨hv, hcode, rfl, rfl, rfl, rfl, hl⟩, ho, rfl, rfl,
      hinit⟩
  · exact (show s.msgLength < 2 ^ 17 by omega)
  · exact (show s.inst.ivBytes < 2 ^ 5 by omega)

theorem decryptStart_inv (h : s.Inv P) (hv : s.inst.valid = true) (hl : s.msgLength ≤ s.bufBytes)
    (hl' : s.inst.ivBytes ≤ s.msgLength) : s.decryptStart.Inv P := by
  have h16 := (h.inst.bounds hv).2
  obtain ⟨-, hbuf, -⟩ := h.cap
  have hn : s.msgLength - s.inst.ivBytes ≤ 65536 := by omega
  refine (accept_inv h .decrypt).move ⟨rfl, rfl, rfl, rfl⟩ rfl (Memory.fits_nil _)
    ⟨?_, ?_, Nat.two_pow_pos 5, blocks_lt hn, Nat.two_pow_pos 13, Nat.two_pow_pos 17⟩
    (phaseOk_initWait rfl (decryptStart_streamed hv h16 hl hl') rfl)
  · exact (show s.msgLength - s.inst.ivBytes < 2 ^ 17 by omega)
  · exact (show s.inst.ivBytes < 2 ^ 5 by omega)

theorem checkDecrypt_inv (h : s.Inv P) (hs : s.seq = .check) (ho : s.ctx.opc = .decrypt)
    (hv : s.inst.valid = true) (hl : s.msgLength ≤ s.bufBytes) (hl' : s.inst.ivBytes ≤ s.msgLength) :
    (checkDecrypt s).Inv P := by
  have haccept : s.accept .decrypt = s := ho ▸ h.accept_eq hs
  have hstart : checkDecrypt s = s.decryptStart := by
    rw [← checkDecrypt_accept hv hl hl', haccept]
  rw [hstart]
  exact decryptStart_inv h hv hl hl'

/-- The stream of an ENCRYPT begins when its IV has come, the padded IV in IVREG and CTR (R157, R183). -/
theorem beginStream_inv (h : s.Inv P) (hs : s.seq = .rngWait) (c : Block)
    (hc : pad (c.toList.take s.inst.ivBytes) = c) :
    (State.beginStream { s with ctx := { s.ctx with ivReg := c, ctr := c } }).Inv P := by
  obtain ⟨hq, hout, hp, ho, hj, hk, -⟩ := h.at_rngWait hs
  refine h.move hq rfl h.outFits h.fits (phaseOk_initWait rfl ?_ hj)
  exact Streamed.start ((planned_encrypt_iff (by exact ho)).mpr ((planned_encrypt_iff ho).mp hp)) rfl hj hk
    hc.symm hc.symm hout

theorem answerRng_inv (h : s.Inv P) (hs : s.seq = .rngWait) (b : Block) : (answerRng b s).Inv P := by
  obtain ⟨-, -, hp, -⟩ := h.at_rngWait hs
  have h16 := (h.inst.bounds hp.1).2
  exact beginStream_inv h hs _ (congrArg pad (take_pad_of_length (take_draw_length b h16) h16))

theorem answerInit_inv (h : s.Inv P) (hs : s.seq = .initWait) (a : EngAnswer) : (s.answerInit a).Inv P := by
  obtain ⟨hq, hst, hj⟩ := h.at_initWait hs
  have hnb := hst.1.nblk_le
  simp only [blocks] at hnb
  apply answerInit_cases (Q := State.Inv P) s a
  case hfail => exact fun _ => raise_inv h hq _
  case hempty =>
    intro _ hn
    exact h.move hq rfl h.outFits h.fits (phaseOk_commit rfl hst (show s.ctx.j = s.ctx.nblk by omega))
  case hfirst =>
    intro _ hn
    exact h.move hq rfl h.outFits h.fits (phaseOk_blkWait rfl hst (show s.ctx.j < s.ctx.nblk by omega))

theorem takeBlock_ctx_fits (h : s.Inv P) (hst : s.Streamed P) (hj : s.ctx.j < s.ctx.nblk) (k : Block) :
    (s.takeBlock P k).ctx.Fits := by
  obtain ⟨hn, hsrc, hdst, hnblk, -, -⟩ := h.fits
  obtain ⟨hk, -⟩ := Streamed.ksCount_eq hst hj
  refine ⟨hn, hsrc, hdst, hnblk, ?_, ?_⟩
  · exact (show s.ctx.j + 1 < 2 ^ 13 by omega)
  · exact (show s.ctx.ksCount + liveLanes s.ctx.n s.ctx.j < 2 ^ 17 by simp only [liveLanes]; omega)

theorem answerBlock_inv (h : s.Inv P) (hs : s.seq = .blkWait) (a : EngAnswer) : (s.answerBlock P a).Inv P := by
  obtain ⟨hq, hst, hj⟩ := h.at_blkWait hs
  have hst' := Streamed.takeBlock hst hj h.outFits.1
  have hout := takeBlock_fits (P := P) (P.bc s.inst.variant s.inst.keyBytes s.ctx.ctr) h.outFits
    (Streamed.inside hst h.inst) (Streamed.ksCount_eq hst hj).2
  have hfits := takeBlock_ctx_fits h hst hj (P.bc s.inst.variant s.inst.keyBytes s.ctx.ctr)
  apply answerBlock_cases (Q := State.Inv P) s a
  case hfail => exact fun _ => raise_inv h hq _
  case hlast =>
    exact fun _ hlast => h.move hq rfl hout hfits (phaseOk_commit rfl hst' (show s.ctx.j + 1 = s.ctx.nblk by omega))
  case hmore =>
    exact fun _ hmore => h.move hq rfl hout hfits (phaseOk_blkWait hs hst' hmore)

/-! ## Every move -/

theorem checkTurn_inv (h : s.Inv P) (hs : s.seq = .check) : (seqTurn s).Inv P := by
  obtain ⟨hq, hout, -⟩ := h.at_check hs
  apply checkTurn_cases (Q := State.Inv P) s hs
  case hraise => exact raise_inv h hq
  case hcreate =>
    intro _ v hv hi
    obtain ⟨-, -, -, hlen⟩ := hq
    refine completeStep_inv h.cap (stagedInst_ok hv hi) h.inFits h.outFits ?_ fun a _ => ?_
    · simp [hlen]
    · simp [hout]
  case hencrypt => exact checkEncrypt_inv h hs
  case hdecrypt => exact checkDecrypt_inv h hs

/-- Every move of the sequencer keeps the invariant, whatever the event. -/
theorem seqMove_inv (e : Event) (h : s.Inv P) : (seqMove P e s).Inv P := by
  apply seqMove_cases (Q := State.Inv P) e s h
  case hrst =>
    intro hs _
    obtain ⟨⟨-, -, -, hlen⟩, hctx, -, hout, -⟩ := h.at_rstClr hs
    refine inv_of_idle rfl h.cap h.inst h.inFits h.outFits hctx h.errorBit ?_ ?_ fun _ => hlen
    · simp [hlen]
    · simp [hout]
  case hcheck => exact fun hs _ => checkTurn_inv h hs
  case hcommit => exact fun hs _ => commitStep_inv h hs
  case habort => exact fun hs _ => abortStep_inv h hs
  case hrng => exact fun hs b _ => answerRng_inv h hs b
  case hinit => exact fun hs a _ => answerInit_inv h hs a
  case hblock => exact fun hs a _ => answerBlock_inv h hs a

end Sys2Proof.Machine
end

section
/-! How a command ends (R158, R164, R166): each move of a command in progress goes on with it or ends it, a stream ends
with success only through its COMMIT, and a DECRYPT undoes an ENCRYPT. -/

namespace Sys2Proof.Machine

variable {P : Params} {s t u : State} {o : Opc}

/-! ## The end of a command (R166) -/

/-- A command is in progress: the phases from CHECK to COMMIT or ABORT (R41). -/
def State.InCommand (s : State) : Prop := s.seq ≠ .idle ∧ s.seq ≠ .rstClr

/-- The command in progress at `s` is in progress at `t`. -/
def State.GoesOn (s t : State) : Prop := t.InCommand ∧ t.ctx.opc = s.ctx.opc

/-- `t` is what the step that ends the command in progress at `s` leaves: no context, and the engine released if it was
engaged (R166, R226, R227). -/
def State.EndsIn (s t : State) : Prop :=
  t.seq = .idle ∧ t.ctx = Context.zero ∧ t.done = true ∧
    t.portLog = s.portLog ++ (if s.ctx.initIssued then [.engRelease] else [])

theorem raise_goesOn (s : State) (k : ErrorKind) : s.GoesOn (s.raise k) :=
  ⟨⟨Seq.noConfusion, Seq.noConfusion⟩, rfl⟩

theorem completeStep_ends (s : State) : s.EndsIn s.completeStep := by simp [State.EndsIn]

theorem abortStep_ends (s : State) : s.EndsIn s.abortStep := by simp [State.EndsIn]

theorem checkEncrypt_goesOn (hv : s.inst.valid = true) (hl : s.msgLength + s.inst.ivBytes ≤ s.bufBytes) :
    s.GoesOn (checkEncrypt s) := by
  rw [checkEncrypt_ok hv (Nat.not_lt.mpr hl)]
  exact ⟨⟨Seq.noConfusion, Seq.noConfusion⟩, rfl⟩

theorem checkDecrypt_goesOn (hv : s.inst.valid = true) (hl : s.msgLength ≤ s.bufBytes)
    (hl' : s.inst.ivBytes ≤ s.msgLength) : s.GoesOn (checkDecrypt s) := by
  rw [checkDecrypt_ok hv (Nat.not_lt.mpr hl) (Nat.not_lt.mpr hl')]
  exact ⟨⟨Seq.noConfusion, Seq.noConfusion⟩, rfl⟩

theorem checkTurn_goesOn (hs : s.seq = .check) (ho : s.ctx.opc ≠ .create) : s.GoesOn (seqTurn s) := by
  apply checkTurn_cases (Q := s.GoesOn) s hs
  case hraise => exact raise_goesOn s
  case hcreate => exact fun h => absurd h ho
  case hencrypt => exact fun _ => checkEncrypt_goesOn
  case hdecrypt => exact fun _ => checkDecrypt_goesOn

theorem checkTurn_goesOn_or_ends (hs : s.seq = .check) : s.GoesOn (seqTurn s) ∨ s.EndsIn (seqTurn s) := by
  apply checkTurn_cases (Q := fun t => s.GoesOn t ∨ s.EndsIn t) s hs
  case hraise => exact fun k => .inl (raise_goesOn s k)
  case hcreate => exact fun _ v _ _ => .inr (completeStep_ends { s with inst := s.stagedInst v })
  case hencrypt => exact fun _ hv hl => .inl (checkEncrypt_goesOn hv hl)
  case hdecrypt => exact fun _ hv hl hl' => .inl (checkDecrypt_goesOn hv hl hl')

theorem commitStep_goesOn_or_ends (s : State) : s.GoesOn (commitStep s) ∨ s.EndsIn (commitStep s) := by
  apply commitStep_cases (Q := fun t => s.GoesOn t ∨ s.EndsIn t) s
  case hraise => exact fun k _ _ => .inl (raise_goesOn s k)
  case hplain => exact fun _ => .inr (completeStep_ends s)
  case hencrypt => exact fun _ _ => .inr (completeStep_ends { s with outBuf := s.encryptOut, outLen := _ })
  case hdecrypt => exact fun _ _ => .inr (completeStep_ends { s with outLen := _ })

theorem answerRng_goesOn (s : State) (b : Block) : s.GoesOn (answerRng b s) :=
  ⟨by simp [State.InCommand], by rw [State.answerRng_ctx]⟩

theorem answerInit_goesOn (s : State) (a : EngAnswer) : s.GoesOn (s.answerInit a) := by
  apply answerInit_cases (Q := s.GoesOn) s a
  case hfail => exact fun _ => raise_goesOn s _
  case hempty | hfirst => exact fun _ _ => ⟨⟨Seq.noConfusion, Seq.noConfusion⟩, rfl⟩

theorem answerBlock_goesOn (hs : s.InCommand) (a : EngAnswer) : s.GoesOn (s.answerBlock P a) := by
  apply answerBlock_cases (Q := s.GoesOn) s a
  case hfail => exact fun _ => raise_goesOn s _
  case hlast => exact fun _ _ => ⟨⟨Seq.noConfusion, Seq.noConfusion⟩, rfl⟩
  case hmore => exact fun _ _ => ⟨hs, rfl⟩

/-- Whatever the event, a move of a command in progress goes on with it or ends it. -/
theorem seqMove_goesOn_or_ends (e : Event) (hs : s.InCommand) :
    s.GoesOn (seqMove P e s) ∨ s.EndsIn (seqMove P e s) := by
  apply seqMove_cases (Q := fun t => s.GoesOn t ∨ s.EndsIn t) e s (.inl ⟨hs, rfl⟩)
  case hrst => exact fun h => absurd h hs.2
  case hcheck => exact fun h _ => checkTurn_goesOn_or_ends h
  case hcommit => exact fun _ _ => commitStep_goesOn_or_ends s
  case habort => exact fun _ _ => .inr (abortStep_ends s)
  case hrng => exact fun _ b _ => .inl (answerRng_goesOn s b)
  case hinit => exact fun _ a _ => .inl (answerInit_goesOn s a)
  case hblock => exact fun _ a _ => .inl (answerBlock_goesOn hs a)

/-- A host access leaves a command in progress alone: a busy block accepts nothing and drops what would be staged
(R233). -/
theorem hostAccess_goesOn (a : Access) (hs : s.InCommand) : s.GoesOn (s.hostAccess a) := by
  apply hostAccess_cases (Q := s.GoesOn) a s fun _ => ⟨hs, rfl⟩
  intro off v _ _
  apply hostWrite_cases (Q := fun t => s.GoesOn { t with resp := some ⟨false, 0⟩ }) off v s ⟨hs, rfl⟩
  case hdrop | hstatus | hirq => exact fun _ => ⟨hs, rfl⟩
  case hcmd => exact fun _ h => absurd h hs.1
  all_goals exact fun h => absurd h hs.1

/-- Every single step but a reset goes on with the command in progress or ends it. -/
theorem tick_goesOn_or_ends (hs : s.InCommand) (hreset : ∀ rest, s.events ≠ .reset :: rest) :
    s.GoesOn (tick P s) ∨ s.EndsIn (tick P s) := by
  apply tick_cases (Q := fun t => s.GoesOn t ∨ s.EndsIn t) s
  case hnil => exact fun _ => seqMove_goesOn_or_ends .internal hs
  case hmove => exact fun e es _ _ _ => seqMove_goesOn_or_ends (s := { s with events := es }) e hs
  case hbus => exact fun a es _ => .inl (hostAccess_goesOn (s := { s with events := es }) a hs)
  case hreset => exact fun es he => absurd he (hreset es)

/-- Settles O29: a single step that goes on with the command does not reach IDLE, and one that ends it does so by one of
the two completions. -/
theorem contextIsReleasedAtEveryEnd : Obligations.ContextIsReleasedAtEveryEnd := by
  intro P s hs hs' hreset hidle
  rcases tick_goesOn_or_ends (P := P) ⟨hs, hs'⟩ hreset with ⟨⟨hbusy, -⟩, -⟩ | ⟨-, hend⟩
  · exact absurd hidle hbusy
  · exact hend

/-- Settles O25: a wrong count makes COMMIT raise the command's error, and in a run the stream's law gives the count. -/
theorem lengthCheckAtCommit : Obligations.LengthCheckAtCommit := by
  refine ⟨rfl, rfl, fun P s rest hs hturn hk => ⟨fun ho => ?_, fun ho => ?_⟩, fun P s h hs _ => ?_⟩
  · rw [tick_turn hturn, seqTurn_commit hs, commitStep, ho]
    exact congrArg (fun t : State => { t with events := rest }) (commitEncrypt_bad hk)
  · rw [tick_turn hturn, seqTurn_commit hs, commitStep, ho]
    exact congrArg (fun t : State => { t with events := rest }) (commitDecrypt_bad hk)
  · obtain ⟨-, hst, hj⟩ := h.at_commit hs
    exact Streamed.ksCount_full hst hj

/-! ## A stream that ends with success (R158) -/

theorem checkTurn_operands (hs : s.seq = .check) : (seqTurn s).inBuf = s.inBuf ∧ (seqTurn s).inLen = s.inLen := by
  apply checkTurn_cases (Q := fun t => t.inBuf = s.inBuf ∧ t.inLen = s.inLen) s hs
  case hraise => exact fun _ => ⟨rfl, rfl⟩
  case hcreate => intros; simp
  case hencrypt => intro _ hv hl; rw [checkEncrypt_ok hv (by omega)]; exact ⟨rfl, rfl⟩
  case hdecrypt => intro _ hv hl hl'; rw [checkDecrypt_ok hv (by omega) (by omega)]; exact ⟨rfl, rfl⟩

/-- No move of the sequencer writes IN or IN_LEN. -/
theorem seqMove_operands (P : Params) (e : Event) (s : State) :
    (seqMove P e s).inBuf = s.inBuf ∧ (seqMove P e s).inLen = s.inLen := by
  apply seqMove_cases (Q := fun t => t.inBuf = s.inBuf ∧ t.inLen = s.inLen) e s ⟨rfl, rfl⟩
  case hrst => exact fun _ _ => ⟨rfl, rfl⟩
  case hcheck => exact fun hs _ => checkTurn_operands hs
  case hcommit =>
    intros
    apply commitStep_cases (Q := fun t => t.inBuf = s.inBuf ∧ t.inLen = s.inLen) s <;> intros <;> simp
  case habort => intros; simp
  case hrng => exact fun _ b _ => ⟨State.answerRng_inBuf s b, State.answerRng_inLen s b⟩
  case hinit =>
    exact fun _ a _ => answerInit_cases (Q := fun t => t.inBuf = s.inBuf ∧ t.inLen = s.inLen) s a
      (fun _ => ⟨rfl, rfl⟩) (fun _ _ => ⟨rfl, rfl⟩) (fun _ _ => ⟨rfl, rfl⟩)
  case hblock =>
    exact fun _ a _ => answerBlock_cases (Q := fun t => t.inBuf = s.inBuf ∧ t.inLen = s.inLen) s a
      (fun _ => ⟨rfl, rfl⟩) (fun _ _ => ⟨rfl, rfl⟩) (fun _ _ => ⟨rfl, rfl⟩)

/-- A move that ends an ENCRYPT or a DECRYPT with success is its COMMIT. -/
theorem seqMove_succeeds (h : s.Inv P) (e : Event) (hs : s.InCommand) (ho : s.ctx.opc ≠ .create)
    (hidle : (seqMove P e s).seq = .idle) (hok : (seqMove P e s).errCode = none) :
    s.seq = .commit ∧ seqMove P e s = commitStep s := by
  revert hidle hok
  apply seqMove_cases (Q := fun t => t.seq = .idle → t.errCode = none → s.seq = .commit ∧ t = commitStep s) e s
  case hself => exact fun hi => absurd hi hs.1
  case hrst => exact fun h => absurd h hs.2
  case hcommit => exact fun hc _ _ _ => ⟨hc, rfl⟩
  case hcheck => exact fun hc _ hi => absurd hi (checkTurn_goesOn hc ho).1.1
  case habort => exact fun ha _ _ hok => absurd hok (h.at_abort ha).2
  case hrng => exact fun _ b _ hi => absurd hi (answerRng_goesOn s b).1.1
  case hinit => exact fun _ a _ hi => absurd hi (answerInit_goesOn s a).1.1
  case hblock => exact fun _ a _ hi => absurd hi (answerBlock_goesOn hs a).1.1

/-! ## The round trip (R164) -/

/-- `t` is on the way of an ENCRYPT or DECRYPT accepted at `s`, whose operands are as they were. -/
structure State.Underway (P : Params) (o : Opc) (s t : State) : Prop where
  inv : t.Inv P
  inCommand : t.InCommand
  opc : t.ctx.opc = o
  inst : t.inst = s.inst
  inBuf : t.inBuf = s.inBuf
  inLen : t.inLen = s.inLen

/-- `t` is in IDLE past the command accepted at `s`; if it succeeded, its COMMIT, on its way at `u`, left OUT and
OUT_LEN. -/
def State.Past (P : Params) (o : Opc) (s t : State) : Prop :=
  t.seq = .idle ∧ (t.errCode = none → ∃ u, s.Underway P o u ∧ u.seq = .commit ∧
    t.outBuf = (commitStep u).outBuf ∧ t.outLen = (commitStep u).outLen)

theorem State.Underway.withEvents (h : s.Underway P o t) (es : List Event) :
    s.Underway P o { t with events := es } :=
  ⟨h.inv.withEvents es, h.inCommand, h.opc, h.inst, h.inBuf, h.inLen⟩

theorem State.Underway.move (h : s.Underway P o t) (ho : o ≠ .create) (e : Event) :
    s.Underway P o (seqMove P e t) ∨ s.Past P o (seqMove P e t) := by
  have hto : t.ctx.opc ≠ .create := h.opc ▸ ho
  rcases seqMove_goesOn_or_ends (P := P) e h.inCommand with ⟨hin, hopc⟩ | ⟨hidle, -⟩
  · obtain ⟨hbuf, hlen⟩ := seqMove_operands P e t
    have hinst : (seqMove P e t).inst = t.inst := seqMove_inst fun hc => hto hc.2.1
    exact .inl ⟨seqMove_inv e h.inv, hin, hopc.trans h.opc, hinst.trans h.inst, hbuf.trans h.inBuf,
      hlen.trans h.inLen⟩
  · refine .inr ⟨hidle, fun hok => ⟨t, h, ?_⟩⟩
    obtain ⟨hc, hstep⟩ := seqMove_succeeds h.inv e h.inCommand hto hidle hok
    exact ⟨hc, congrArg State.outBuf hstep, congrArg State.outLen hstep⟩

theorem seqMove_of_idle (hs : s.seq = .idle) (e : Event) : seqMove P e s = s := by
  apply seqMove_cases (Q := fun t => t = s) e s rfl
  all_goals intro h; simp [hs] at h

/-- An ENCRYPT or a DECRYPT that has ended with success, whatever events came, ended in its COMMIT. -/
theorem issue_succeeds (h : s.Inv P) (hs : s.seq = .idle) (ho : o ≠ .create) (hidle : (issue P o s).seq = .idle)
    (hok : (issue P o s).errCode = none) :
    ∃ u, s.Underway P o u ∧ u.seq = .commit ∧ (issue P o s).outBuf = (commitStep u).outBuf ∧
      (issue P o s).outLen = (commitStep u).outLen := by
  have hrun : s.Underway P o (issue P o s) ∨ s.Past P o (issue P o s) := by
    rw [issue_idle hs]
    apply drive_keeps (Q := fun t => s.Underway P o t ∨ s.Past P o t)
    case hev => exact fun _ es => Or.imp (·.withEvents es) id
    case hmove =>
      rintro e t (hunder | hpast)
      · exact hunder.move ho e
      · rw [seqMove_of_idle hpast.1]; exact .inr hpast
    case h => exact .inl ⟨accept_inv h o, ⟨Seq.noConfusion, Seq.noConfusion⟩, rfl, rfl, rfl, rfl⟩
  rcases hrun with hunder | ⟨-, hpast⟩
  · exact absurd hidle hunder.inCommand.1
  · exact hpast hok

/-- OUT after an ENCRYPT that has ended with success, whatever events came (R159). -/
theorem issue_encrypt_out (h : s.Inv P) (hs : s.seq = .idle) (hidle : (issue P .encrypt s).seq = .idle)
    (hok : (issue P .encrypt s).errCode = none) :
    ∃ iv : List Byte, iv.length = s.inst.ivBytes ∧
      (issue P .encrypt s).outLen.toNat = s.inst.ivBytes + s.msgLength ∧
      ∀ a, Memory.readByte (issue P .encrypt s).outBuf a = encryptedByte P s.inst s.inBuf iv s.msgLength a := by
  obtain ⟨u, hu, hc, hout, hlen⟩ := issue_succeeds h hs (by decide) hidle hok
  obtain ⟨-, hst, hj⟩ := hu.inv.at_commit hc
  obtain ⟨hv, -, -, hn, -, -, hl⟩ := (planned_encrypt_iff hu.opc).mp hst.1
  obtain ⟨-, hbuf, -⟩ := hu.inv.cap
  have h16 := (hu.inv.inst.bounds hv).2
  have hmsg : u.msgLength = s.msgLength := congrArg BitVec.toNat hu.inLen
  rw [commitStep_encrypt hst hu.opc hj, State.completeStep_outBuf] at hout
  rw [commitStep_encrypt hst hu.opc hj, State.completeStep_outLen] at hlen
  refine ⟨u.iv, hu.inst ▸ State.iv_length h16, ?_, fun a => ?_⟩
  · rw [hlen, ← hu.inst, ← hmsg, ← hn]
    exact outLen_toNat (by omega)
  · rw [hout, ← hu.inst, ← hu.inBuf, ← hmsg]
    exact Streamed.readByte_encryptOut hst hu.opc hj h16 hu.inv.outFits.1 a

/-- OUT after a DECRYPT that has ended with success, whatever events came (R160). -/
theorem issue_decrypt_out (h : s.Inv P) (hs : s.seq = .idle) (hidle : (issue P .decrypt s).seq = .idle)
    (hok : (issue P .decrypt s).errCode = none) :
    (issue P .decrypt s).outLen.toNat = s.msgLength - s.inst.ivBytes ∧
      ∀ a, Memory.readByte (issue P .decrypt s).outBuf a =
        decryptedByte P s.inst s.inBuf (Memory.readBytes s.inBuf 0 s.inst.ivBytes) (s.msgLength - s.inst.ivBytes) a := by
  obtain ⟨u, hu, hc, hout, hlen⟩ := issue_succeeds h hs (by decide) hidle hok
  obtain ⟨-, hst, hj⟩ := hu.inv.at_commit hc
  obtain ⟨-, -, -, hn, -, -, -, hl, hiv⟩ := (planned_decrypt_iff hu.opc).mp hst.1
  obtain ⟨-, hbuf, -⟩ := hu.inv.cap
  have hmsg : u.msgLength = s.msgLength := congrArg BitVec.toNat hu.inLen
  rw [commitStep_decrypt hst hu.opc hj, State.completeStep_outBuf] at hout
  rw [commitStep_decrypt hst hu.opc hj, State.completeStep_outLen] at hlen
  rw [← hu.inst, ← hu.inBuf, ← hmsg, hlen, hout, ← hiv]
  exact ⟨(outLen_toNat (by omega)).trans hn, Streamed.readByte_decryptOut hst hu.opc hj⟩

/-- Memory whose first bytes are those of `iv` reads back as `iv`. -/
theorem readBytes_eq_of_bytes {m : Memory} {iv : List Byte}
    (hm : ∀ a, a < iv.length → Memory.readByte m a = iv.getD a 0) : Memory.readBytes m 0 iv.length = iv := by
  apply List.ext_getElem (Memory.readBytes_length ..)
  intro i hi hi'
  rw [← List.getD_eq_getElem _ 0 hi, Memory.readBytes_getD _ _ _ _ hi', Nat.zero_add, hm i hi',
    List.getD_eq_getElem _ _ hi']

/-- Decrypting what an ENCRYPT left: the keystream under the same IV cancels (R164). -/
theorem decryptedByte_of_encrypted {c : CipherInst} {m m' : Memory} {iv : List Byte} {n a : Nat}
    (hm : ∀ i, i < c.ivBytes + n → Memory.readByte m' i = encryptedByte P c m iv n i) (ha : a < n) :
    decryptedByte P c m' iv n a = Memory.readByte m a := by
  rw [decryptedByte, if_pos ha, hm _ (by omega), encryptedByte, if_neg (by omega), if_pos (by omega),
    Nat.add_sub_cancel_left, BitVec.xor_assoc, BitVec.xor_self, BitVec.xor_zero]

/-- Settles O20: ENCRYPT's OUT is its IV and body, DECRYPT reads that IV back, and the two keystreams cancel. -/
theorem decryptUndoesEncrypt : Obligations.DecryptUndoesEncrypt := by
  intro P s u h hs hi hok hu hus hinst hlen hbytes hdi hdok
  obtain ⟨iv, hiv, houtLen, hout⟩ := issue_encrypt_out h hs hi hok
  obtain ⟨hdlen, hdout⟩ := issue_decrypt_out hu hus hdi hdok
  have hmsg : u.msgLength = s.inst.ivBytes + s.msgLength := (congrArg BitVec.toNat hlen).trans houtLen
  have hin (a : Nat) (ha : a < s.inst.ivBytes + s.msgLength) :
      Memory.readByte u.inBuf a = encryptedByte P s.inst s.inBuf iv s.msgLength a :=
    (hbytes a (ha.trans_eq hmsg.symm)).trans (hout a)
  have hreadIv : Memory.readBytes u.inBuf 0 s.inst.ivBytes = iv := by
    rw [← hiv]
    refine readBytes_eq_of_bytes fun a ha => ?_
    rw [hin a (by omega), encryptedByte, if_pos (by omega)]
  rw [hinst, hmsg, Nat.add_sub_cancel_left] at hdlen hdout
  rw [hreadIv] at hdout
  exact ⟨BitVec.eq_of_toNat_eq hdlen, fun a ha => (hdout a).trans (decryptedByte_of_encrypted hin ha)⟩

end Sys2Proof.Machine
end

section
/-! ENCRYPT up to the start of its stream (R180 to R183): its two preconditions, the request for an IV and the wait
for it, and the TRNG's answer. -/

namespace Sys2Proof.Machine

variable {P : Params} {s : State} {b : Block} {rest : List Event}

/-! ## The preconditions (R181) -/

/-- With an instance, a message that does not fit into OUT beside its IV completes with LengthOverflow (R181). -/
theorem exec_encrypt_overflow (hs : s.seq = .idle) (hv : s.inst.valid = true)
    (hl : s.bufBytes < s.msgLength + s.inst.ivBytes) (hev : s.Comes [] 2 rest) :
    exec .encrypt s = .next (s.completed (some .lengthOverflow) s.inst [] 0 [] rest) :=
  (exec_eq_issue .encrypt s).trans (congrArg _ (issue_check_raises hs (checkEncrypt_overflow hv hl) hev))

/-- Settles O12: CHECK raises NoInstance before it looks at IN_LEN, then LengthOverflow, and sends nothing before. -/
theorem encryptPreconditions : Obligations.EncryptPreconditions :=
  ⟨rfl, rfl, fun _ _ hs hev =>
    ⟨fun hv => exec_noInstance (by decide) hs hv hev, fun hv hl => exec_encrypt_overflow hs hv hl hev⟩⟩

/-! ## The request for an IV (R182) -/

/-- The state in which an ENCRYPT accepted at `s` waits for its IV (R182). -/
def State.encryptWait (s : State) : State :=
  { s with
    seq := .rngWait, done := false, error := false, errCode := none, outBuf := [], outLen := 0,
    ctx := { Context.zero with
      opc := .encrypt, n := s.msgLength, src := 0, dst := s.inst.ivBytes, nblk := blocks s.msgLength },
    portLog := s.portLog ++ [.rng s.inst.ivBytes] }

theorem seqTurn_accept_encrypt (hv : s.inst.valid = true) (hl : s.msgLength + s.inst.ivBytes ≤ s.bufBytes) :
    seqTurn (s.accept .encrypt) = s.encryptWait := by
  have hcheck : checkStep (s.accept .encrypt) = s.encryptWait :=
    checkEncrypt_ok (s := s.accept .encrypt) hv (Nat.not_lt.mpr hl)
  rw [seqTurn_check rfl (by rw [hcheck]; exact Seq.noConfusion), hcheck]

/-- A CHECK that ends in RNG_WAIT uses up the sequencer's turn, if one comes, and no more. -/
theorem drive_check_rngWait (hs : s.seq = .check) (hwait : (seqTurn s).seq = .rngWait) (hev : s.Turn rest) :
    drive P s.events s = drive P rest (seqTurn s) := by
  rcases hev with hev | ⟨hev, rfl⟩
  · rw [hev, drive_enabled rest (by rw [hs]; rfl), seqMove_internal]
  · rw [hev, drive_nil, drive_nil, seqTurn_wait (.inl hwait), seqTurn_wait (.inl hwait), seqTurn_wait (.inl hwait)]

/-- In RNG_WAIT a run stops at whatever is not an answer of the TRNG (R42, R242). -/
theorem drive_rngWait_stop (hs : s.seq = .rngWait) (hrest : ∀ b more, rest ≠ .rng b :: more) :
    drive P rest s = { s with events := rest } := by
  cases rest with
  | nil => rw [drive_nil, seqTurn_wait (.inl hs), seqTurn_wait (.inl hs), seqTurn_wait (.inl hs)]
  | cons e es =>
    refine drive_stop es (Bool.eq_false_iff.mpr fun he => ?_)
    rcases enabled_cases he with ⟨-, hq⟩ | ⟨b, rfl, -⟩ | ⟨-, -, hq⟩
    · simp [hs] at hq
    · exact hrest b es rfl
    · simp [hs] at hq

theorem exec_encrypt_waits (hs : s.seq = .idle) (hv : s.inst.valid = true)
    (hl : s.msgLength + s.inst.ivBytes ≤ s.bufBytes) (hev : s.Turn rest)
    (hrest : ∀ b more, rest ≠ .rng b :: more) :
    exec .encrypt s = .next { s.encryptWait with events := rest } := by
  have hturn := seqTurn_accept_encrypt hv hl
  have hwait : (seqTurn (s.accept .encrypt)).seq = .rngWait := congrArg State.seq hturn
  have hdrive : issue Config.machine .encrypt s = { s.encryptWait with events := rest } :=
    calc issue Config.machine .encrypt s
        = drive Config.machine s.events (s.accept .encrypt) := issue_idle hs .encrypt
      _ = drive Config.machine rest (seqTurn (s.accept .encrypt)) :=
          drive_check_rngWait (s := s.accept .encrypt) rfl hwait hev
      _ = { seqTurn (s.accept .encrypt) with events := rest } := drive_rngWait_stop hwait hrest
      _ = _ := by rw [hturn]
  exact (exec_eq_issue .encrypt s).trans (congrArg _ hdrive)

/-- With no input to come a wait stays as it is (R242). -/
theorem step_wait_nil (hs : s.seq = .rngWait ∨ s.seq = .initWait ∨ s.seq = .blkWait) (hev : s.events = []) :
    step s = .next s := by
  have hfetch : fetch s = none := by rw [fetch, hev]
  rw [step, hfetch]
  exact congrArg _ ((tick_nil hev).trans (seqTurn_wait hs))

/-- Settles O14: CHECK sends the one request and goes to RNG_WAIT, where the run stops at every other input. -/
theorem encryptRequestsOneIvAndWaits : Obligations.EncryptRequestsOneIvAndWaits := by
  intro s rest hs hv hl hev hrest
  exact ⟨_, exec_encrypt_waits hs hv hl hev hrest, rfl, rfl, rfl, fun hnil => step_wait_nil (.inl rfl) hnil⟩

/-! ## The TRNG's answer (R183) -/

theorem tick_rng {more : List Event} (hs : s.seq = .rngWait) (hev : s.events = .rng b :: more) :
    tick P s = answerRng b { s with events := more } :=
  (tick_cons hev).trans (seqMove_rng (s := { s with events := more }) hs)

/-- The padded IV of a draw: its first `k` bytes as they came, then zeros (R150, R183). -/
theorem pad_take_getElem (b : Block) (k : Nat) (i : Fin 16) :
    (pad (b.toList.take k))[i] = if i.val < k then b[i] else 0 := by
  have hpad : (pad (b.toList.take k))[i] = (b.toList.take k).getD i.val 0 := pad_getElem _ _ i.isLt
  rw [hpad]
  split
  case isTrue h => rw [List.getD_eq_getElem _ _ (by simp [h]), List.getElem_take]; rfl
  case isFalse h => exact List.getD_eq_default _ _ (by simp; omega)

/-- Settles O15: the answer is padded into IVREG and CTR, and what the invariant says of RNG_WAIT gives the lengths. -/
theorem trngAnswerStartsTheStream : Obligations.TrngAnswerStartsTheStream := by
  intro P s b more h hs hev
  obtain ⟨-, -, hp, ho, -⟩ := h.at_rngWait hs
  obtain ⟨-, -, -, hn, hsrc, hdst, -⟩ := (planned_encrypt_iff ho).mp hp
  refine ⟨pad (b.toList.take s.inst.ivSize.toNat), ?_, ?_, hsrc, hdst, hn⟩
  · rw [tick_rng hs hev]; rfl
  · exact pad_take_getElem b s.inst.ivSize.toNat

end Sys2Proof.Machine
end

section
/-! The CHECK of DECRYPT (R200 to R203) as a whole command: its three refusals in their order, the wait of a DECRYPT that
passes them, and the ciphertext that is an IV and nothing more. -/

namespace Sys2Proof.Machine

variable {P : Params} {s : State} {rest tail : List Event}

/-! ## The refusals (R201, R202) -/

/-- A DECRYPT whose CHECK raises `k` completes with `k`, and nothing was sent (R226). -/
theorem exec_decrypt_raises {k : ErrorKind} (hs : s.seq = .idle) (hev : s.Comes [] 2 rest)
    (hc : checkDecrypt (s.accept .decrypt) = (s.accept .decrypt).raise k) :
    exec .decrypt s = .next (s.completed (some k) s.inst [] 0 [] rest) :=
  (exec_eq_issue .decrypt s).trans (congrArg _ (issue_check_raises hs hc hev))

theorem exec_decrypt_overflow (hs : s.seq = .idle) (hev : s.Comes [] 2 rest) (hv : s.inst.valid = true)
    (hl : s.bufBytes < s.msgLength) :
    exec .decrypt s = .next (s.completed (some .lengthOverflow) s.inst [] 0 [] rest) :=
  exec_decrypt_raises hs hev (checkDecrypt_overflow hv hl)

theorem exec_decrypt_short (hs : s.seq = .idle) (hev : s.Comes [] 2 rest) (hv : s.inst.valid = true)
    (hl : s.msgLength ≤ s.bufBytes) (hshort : s.msgLength < s.inst.ivBytes) :
    exec .decrypt s = .next (s.completed (some .ciphertextTooShort) s.inst [] 0 [] rest) :=
  exec_decrypt_raises hs hev (checkDecrypt_short hv (Nat.not_lt.mpr hl) hshort)

/-- An IV fits into every legal IN buffer, so that a ciphertext too long for it is not too short (R201). -/
theorem ivBytes_le_bufBytes (hok : s.inst.Ok) (hv : s.inst.valid = true) (hcap : CapOk s.bufBytes) :
    s.inst.ivBytes ≤ s.bufBytes :=
  (hok.bounds hv).2.trans hcap.1

/-- Settles O17: CHECK raises NoInstance before it looks at IN_LEN, then LengthOverflow, and sends nothing before. -/
theorem decryptPreconditions : Obligations.DecryptPreconditions :=
  ⟨rfl, rfl, fun _ _ hs hev =>
    ⟨fun hv => exec_noInstance (by decide) hs hv hev, fun hv hl =>
      ⟨exec_decrypt_overflow hs hev hv hl, fun hok hcap =>
        Nat.not_lt.mpr ((ivBytes_le_bufBytes hok hv hcap).trans hl.le)⟩⟩⟩

/-! ## A CHECK that passes (R203) -/

/-- In INIT_WAIT a run stops at whatever is not an answer of the engine (R42, R242). -/
theorem drive_initWait_stop (hs : s.seq = .initWait) (htail : ∀ a more, tail ≠ .eng a :: more) :
    drive P tail s = { s with events := tail } := by
  cases tail with
  | nil => rw [drive_nil, seqTurn_wait (.inr (.inl hs)), seqTurn_wait (.inr (.inl hs)), seqTurn_wait (.inr (.inl hs))]
  | cons e es =>
    refine drive_stop es (Bool.eq_false_iff.mpr fun he => ?_)
    rcases enabled_cases he with ⟨-, hq⟩ | ⟨-, -, hq⟩ | ⟨a, rfl, -⟩
    · simp [hs] at hq
    · simp [hs] at hq
    · exact htail a es rfl

theorem seqTurn_accept_decrypt (hv : s.inst.valid = true) (hl : s.msgLength ≤ s.bufBytes)
    (hl' : s.inst.ivBytes ≤ s.msgLength) : seqTurn (s.accept .decrypt) = s.decryptStart := by
  have hcheck : checkStep (s.accept .decrypt) = s.decryptStart := checkDecrypt_accept hv hl hl'
  rw [seqTurn_check rfl (by rw [hcheck]; exact Seq.noConfusion), hcheck]

/-- A DECRYPT that passes its CHECK and gets turns of the sequencer only, no answer, is left waiting for `eng_init`. -/
theorem exec_decrypt_waits (hs : s.seq = .idle) (hev : s.Comes [] 2 rest) (hv : s.inst.valid = true)
    (hl : s.msgLength ≤ s.bufBytes) (hl' : s.inst.ivBytes ≤ s.msgLength) :
    ∃ tail, exec .decrypt s = .next { s.decryptStart with events := tail } := by
  obtain ⟨evs, hev, hturns⟩ := hev.split
  rw [List.nil_append] at hev
  rw [exec_eq_issue, Opc.ofInstr, issue_idle hs, hev]
  rcases hturns.succ with ⟨tail, rfl, hlast⟩ | ⟨rfl, -⟩
  · have htail : ∀ a more, tail ≠ .eng a :: more := by
      rcases hlast.succ with ⟨more, rfl, -⟩ | ⟨rfl, -⟩ <;> simp
    exact ⟨tail, by rw [drive_decryptStart hv hl hl', drive_initWait_stop rfl htail]⟩
  · have hwait : s.decryptStart.seq = .rngWait ∨ s.decryptStart.seq = .initWait ∨ s.decryptStart.seq = .blkWait :=
      .inr (.inl rfl)
    exact ⟨[], by rw [drive_nil, seqTurn_accept_decrypt hv hl hl', seqTurn_wait hwait, seqTurn_wait hwait]⟩

/-- With an instance, a DECRYPT that gets the sequencer's two turns and whose ciphertext holds an IV is refused as too
long or waits for the engine; either way ERR.CODE is not CiphertextTooShort. -/
theorem exec_decrypt_errCode {t : State} (hs : s.seq = .idle) (hev : s.Comes [] 2 rest) (hv : s.inst.valid = true)
    (hl' : s.inst.ivBytes ≤ s.msgLength) (ht : exec .decrypt s = .next t) :
    t.errCode ≠ some .ciphertextTooShort := by
  rcases Nat.lt_or_ge s.bufBytes s.msgLength with hlong | hl
  · rw [exec_decrypt_overflow hs hev hv hlong] at ht
    cases ht
    show some ErrorKind.lengthOverflow ≠ some .ciphertextTooShort
    decide
  · obtain ⟨tail, hwaits⟩ := exec_decrypt_waits hs hev hv hl hl'
    rw [hwaits] at ht
    cases ht
    exact (Option.some_ne_none _).symm

/-! ## The shortest ciphertext (R202) -/

theorem eq_nil_of_decryptedByte_empty {out m : Memory} {c : CipherInst} {iv : List Byte} (hwf : Memory.wf out)
    (hout : ∀ a, Memory.readByte out a = decryptedByte P c m iv 0 a) : out = [] :=
  Memory.ext_of_bytes hwf Memory.wf_nil fun a => (hout a).trans (if_neg (Nat.not_lt_zero a))

/-- A ciphertext that is its IV alone decrypts to the empty plaintext, with no block asked for (R202, R204). -/
theorem exec_decrypt_iv_only (hs : s.seq = .idle) (hv : s.inst.valid = true) (h16 : s.inst.ivBytes ≤ 16)
    (hl : s.msgLength ≤ s.bufBytes) (hlen : s.msgLength = s.inst.ivBytes) (hev : s.Comes [.internal, .eng .ok] 1 rest) :
    exec .decrypt s = .next (s.completed none s.inst [] 0
      (decryptMsgs Config.machine s.inst (Memory.readBytes s.inBuf 0 s.inst.ivBytes) 0) rest) := by
  have hzero : s.msgLength - s.inst.ivBytes = 0 := by omega
  have hev' : s.Comes (decryptOks (blocks (s.msgLength - s.inst.ivBytes))) 1 rest := by rw [hzero]; exact hev
  obtain ⟨out, hissue, hfits, hout⟩ := issue_decrypt_completes (P := Config.machine) hs hv h16 hl hlen.ge hev'
  rw [hzero] at hissue hout
  obtain rfl := eq_nil_of_decryptedByte_empty hfits.1 hout
  exact (exec_eq_issue .decrypt s).trans (congrArg _ hissue)

/-- Settles O18: a short ciphertext passes the two checks before and fails the third, any other never reports it, and
one as long as its IV has an empty body. -/
theorem decryptRejectsShortCiphertext : Obligations.DecryptRejectsShortCiphertext := by
  refine ⟨rfl, fun s rest hs hok hv hcap => ?_⟩
  have hfit := ivBytes_le_bufBytes hok hv hcap
  have hfails (hev : s.Comes [] 2 rest) (hshort : s.msgLength < s.inst.ivBytes) :=
    exec_decrypt_short hs hev hv (hshort.le.trans hfit) hshort
  refine ⟨fun hev => ⟨?_, fun hshort => ⟨_, hfails hev hshort, rfl⟩⟩, hfails, fun hev hlen => ?_⟩
  · rintro ⟨t, ht, herr⟩
    by_contra hlong
    exact exec_decrypt_errCode hs hev hv (Nat.not_lt.mp hlong) ht herr
  · exact exec_decrypt_iv_only hs hv (hok.bounds hv).2 (hfit.trans_eq' hlen.symm) hlen hev

end Sys2Proof.Machine
end

section
/-! The two completions (R226, R227): each written out as one record, and the sequencer's turn in COMMIT and in ABORT. -/

namespace Sys2Proof.Machine

variable {s : State}

/-! ## The completions as records -/

theorem releaseEngine_eq (s : State) :
    s.releaseEngine = { s with portLog := s.portLog ++ (if s.ctx.initIssued then [.engRelease] else []) } := by
  cases h : s.ctx.initIssued <;> simp [State.releaseEngine, State.send, h]

theorem completeStep_eq (s : State) :
    s.completeStep = { s with
      portLog := s.portLog ++ (if s.ctx.initIssued then [.engRelease] else []),
      errCode := none, error := false, ctx := Context.zero, seq := .idle, done := true } := by
  rw [State.completeStep, releaseEngine_eq]

theorem abortStep_eq (s : State) :
    s.abortStep = { s with
      inst := if s.ctx.opc = .create then CipherInst.absent else s.inst,
      outBuf := [], outLen := 0,
      portLog := s.portLog ++ (if s.ctx.initIssued then [.engRelease] else []),
      errCode := s.ctx.code, error := true, ctx := Context.zero, seq := .idle, done := true } := by
  simp only [State.abortStep, releaseEngine_eq]
  split <;> rfl

/-- Settles O27: the turn in ABORT is the failure completion, and ABORT is none of the three waits. -/
theorem failureCompletion : Obligations.FailureCompletion := by
  intro P s rest hs hturn
  refine ⟨by rw [State.outstanding, hs], ?_⟩
  rw [tick_turn hturn, seqTurn_abort hs, abortStep_eq]

/-! ## The commit actions (R130, R184, R204) -/

/-- The IV that ENCRYPT's COMMIT puts into OUT: the first bytes of IVREG, which has 16 (R184). -/
theorem readByte_encryptOut (h : Memory.wf s.outBuf) (a : Nat) :
    Memory.readByte s.encryptOut a =
      if a < min 16 s.inst.ivBytes then s.ctx.ivReg.toList.getD a 0 else Memory.readByte s.outBuf a := by
  have hlen : s.iv.length = min 16 s.inst.ivBytes := by simp [State.iv, Nat.min_comm]
  rw [State.encryptOut, Memory.readByte_writeBytes h, hlen]
  by_cases ha : a < min 16 s.inst.ivBytes
  · rw [if_pos (by omega), if_pos ha, Nat.sub_zero]
    exact congrArg (Option.getD · 0) (List.getElem?_take_of_lt (by omega))
  · rw [if_neg (by omega), if_neg ha]

/-- Settles O28: the commit step of each command is its own actions, then the success completion. -/
theorem successCompletion : Obligations.SuccessCompletion := by
  intro P s rest hs hturn
  rw [tick_turn hturn, seqTurn_commit hs, commitStep]
  refine ⟨fun ho => ?_, fun ho hk hwf => ⟨s.encryptOut, ?_, readByte_encryptOut hwf⟩, fun ho hk => ?_⟩ <;> rw [ho]
  · exact congrArg (fun t : State => { t with events := rest }) (completeStep_eq s)
  · dsimp only
    rw [commitEncrypt_ok hk, completeStep_eq]; rfl
  · dsimp only
    rw [commitDecrypt_ok hk, completeStep_eq]

end Sys2Proof.Machine
end

section
/-! What a host access does and does not (R225, R232, R233): acceptance in IDLE, the bus error, the dropped write, and
who may clear OVERRUN. -/

namespace Sys2Proof.Machine

variable {P : Params} {s : State} {off : Nat} {v : Word}

/-! ## Acceptance (R225) -/

/-- The table of R102 as a chain of tests, every other word being ILLEGAL (R105). -/
theorem Opc.ofWord_eq_ite (w : Word) :
    Opc.ofWord w = if w = 1 then .create else if w = 2 then .encrypt else if w = 3 then .decrypt else .illegal := by
  split_ifs with h1 h2 h3
  · subst h1; rfl
  · subst h2; rfl
  · subst h3; rfl
  · exact Opc.ofWord_eq_illegal_iff.mpr (forall_ne_encode_iff.mpr ⟨h1, h2, h3⟩)

/-- Settles O26: in IDLE the write to CMD is not dropped, and what it does is `State.accept` of the word's OPC. -/
theorem acceptanceOfACommand : Obligations.AcceptanceOfACommand := by
  intro P s w more hs he
  have hcmd : s.hostWrite 0x00004 w = s.accept (Opc.ofWord w) := staged_idle hs _
  rw [tick_write rfl he, hcmd, Opc.ofWord_eq_ite]
  rfl

/-! ## The response (R62, R232) -/

/-- An access that the bus serves is answered without an error. -/
theorem hostAccess_resp {a : Access} (hsize : a.sizeOk = true) (haligned : a.aligned = true) (s : State) :
    ∃ d, (s.hostAccess a).resp = some ⟨false, d⟩ := by
  have hwf : a.wf = true := by rw [Access.wf, hsize, haligned]; rfl
  rw [State.hostAccess.eq_def, if_pos hwf]
  cases a with
  | read sz off => exact ⟨s.hostRead off, rfl⟩
  | write sz off v => exact ⟨0, rfl⟩

/-- Settles O35: an ill-formed access stops at the error response, which is no input of irq_o. -/
theorem busErrorChangesNothing : Obligations.BusErrorChangesNothing := by
  intro P s a more he
  rw [tick_cons he]
  refine ⟨fun hbad => ?_, fun hsize haligned => hostAccess_resp hsize haligned _⟩
  have herr : deliver P (.bus a) { s with events := more } = { s with events := more, resp := some ⟨true, 0⟩ } :=
    hostAccess_error hbad
  rw [herr]
  exact ⟨rfl, rfl⟩

/-! ## OVERRUN (R24, R233) -/

/-- A busy block drops every write to CMD, a staging register, KEY or IN. -/
theorem hostWrite_dropped (hs : s.seq ≠ .idle)
    (hoff : off = 0x00004 ∨ off = 0x00010 ∨ off = 0x00014 ∨ off = 0x00018 ∨ (0x00040 ≤ off ∧ off ≤ 0x0005C) ∨
      (0x10000 ≤ off ∧ off < 0x10000 + s.bufBytes)) : s.hostWrite off v = s.dropWrite := by
  rcases hoff with rfl | rfl | rfl | rfl | ⟨hk, hk'⟩ | ⟨hb, hb'⟩
  · exact staged_busy hs _
  · exact staged_busy hs _
  · exact staged_busy hs _
  · exact staged_busy hs _
  · rw [hostWrite_key hk hk', staged_busy hs]
  · rw [hostWrite_inBuf hb hb', staged_busy hs]

/-- OVERRUN belongs to the host port: no move of the sequencer writes it. -/
theorem seqMove_overrun (P : Params) (e : Event) (s : State) : (seqMove P e s).overrun = s.overrun := by
  apply seqMove_cases (Q := fun t => t.overrun = s.overrun) e s rfl
  case hrst => exact fun _ _ => rfl
  case hcheck =>
    intro hs _
    apply checkTurn_cases (Q := fun t => t.overrun = s.overrun) s hs
    case hraise => exact fun _ => rfl
    case hcreate => intros; simp
    case hencrypt => intro _ hv hl; rw [checkEncrypt_ok hv (by omega)]; rfl
    case hdecrypt => intro _ hv hl hl'; rw [checkDecrypt_ok hv (by omega) (by omega)]; rfl
  case hcommit =>
    intros
    apply commitStep_cases (Q := fun t => t.overrun = s.overrun) s <;> intros <;> simp
  case habort => exact fun _ _ => State.abortStep_overrun s
  case hrng => exact fun _ b _ => State.answerRng_overrun s b
  case hinit =>
    exact fun _ a _ => answerInit_cases (Q := fun t => t.overrun = s.overrun) s a (fun _ => rfl) (fun _ _ => rfl)
      (fun _ _ => rfl)
  case hblock =>
    exact fun _ a _ => answerBlock_cases (Q := fun t => t.overrun = s.overrun) s a (fun _ => rfl) (fun _ _ => rfl)
      (fun _ _ => rfl)

/-- A write leaves OVERRUN set, but for one to STATUS with bit 3 set. -/
theorem hostWrite_keeps_overrun (off : Nat) (v : Word) (h : s.overrun = true) :
    (s.hostWrite off v).overrun = true ∨ (off = 0x00008 ∧ v.getLsbD 3 = true) := by
  apply hostWrite_cases (Q := fun t => t.overrun = true ∨ (off = 0x00008 ∧ v.getLsbD 3 = true)) off v s (.inl h)
  case hdrop => exact fun _ => .inl rfl
  case hstatus =>
    intro hoff
    cases hbit : v.getLsbD 3 with
    | true => exact .inr ⟨hoff, rfl⟩
    | false => left; rw [State.writeStatus_overrun, h, hbit]; rfl
  all_goals intros; exact .inl h

/-- R233: the host's clearing STATUS write and a reset are all that clears OVERRUN. -/
theorem tick_keeps_overrun (h : s.overrun = true) : (tick P s).overrun = true ∨
    (∃ rest, s.events = .reset :: rest) ∨
    ∃ (v : Word) (rest : List Event), s.events = .bus (.write .w32 0x00008 v) :: rest ∧ v.getLsbD 3 = true := by
  apply tick_cases (Q := fun t => t.overrun = true ∨ _) s
  case hnil => exact fun _ => .inl ((seqMove_overrun P .internal s).trans h)
  case hmove => exact fun e es _ _ _ => .inl ((seqMove_overrun P e { s with events := es }).trans h)
  case hreset => exact fun es he => .inr (.inl ⟨es, he⟩)
  case hbus =>
    intro a es he
    apply hostAccess_cases (Q := fun t => t.overrun = true ∨ _) a { s with events := es }
    case hself => exact fun _ => .inl h
    case hwrite =>
      rintro off v rfl -
      refine (hostWrite_keeps_overrun (s := { s with events := es }) off v h).imp_right ?_
      rintro ⟨rfl, hbit⟩
      exact .inr ⟨v, es, he, hbit⟩

/-- Settles O39: a busy block drops the write, the sequencer does not touch OVERRUN, and of the host's accesses only the
STATUS write clears it. -/
theorem overrunIsStickyAndOnlyAFlag : Obligations.OverrunIsStickyAndOnlyAFlag := by
  refine ⟨fun P s off v more hs h4 hoff he => ?_, fun P s hset hclear => ?_⟩
  · rw [tick_write h4 he, hostWrite_dropped hs hoff]; rfl
  · exact (tick_keeps_overrun hset).resolve_left (by rw [hclear]; decide)

end Sys2Proof.Machine
end

section
/-! No partial output (R223): what the host reads of OUT and OUT_LEN while a command runs and after it has failed. -/

namespace Sys2Proof.Machine

variable {P : Params} {s : State}

/-- From acceptance to the completion, and before the first command, no result is shown (R225, R268). -/
theorem State.Inv.quiet_of_busy (h : s.Inv P) (hs : s.seq ≠ .idle) : s.Quiet := by
  cases hq : s.seq with
  | rstClr => exact (h.at_rstClr hq).1
  | idle => exact absurd hq hs
  | check => exact (h.at_check hq).1
  | rngWait => exact (h.at_rngWait hq).1
  | initWait => exact (h.at_initWait hq).1
  | blkWait => exact (h.at_blkWait hq).1
  | commit => exact (h.at_commit hq).1
  | abort => exact (h.at_abort hq).1

/-- An error code stands only after the completion that reported it, which left OUT zero and OUT_LEN 0 (R226). -/
theorem State.Inv.out_zero_of_failed (h : s.Inv P) (hfail : s.errCode ≠ none) :
    s.outLen = 0 ∧ ∀ a, Memory.readByte s.outBuf a = 0 := by
  have hs : s.seq = .idle := by
    by_contra hbusy
    obtain ⟨-, -, hnone, -⟩ := h.quiet_of_busy hbusy
    exact hfail hnone
  obtain ⟨-, -, hbeyond, hlen⟩ := h.at_idle hs
  have herror : s.error = true := by rw [h.errorBit]; exact Option.isSome_iff_ne_none.mpr hfail
  have hzero := hlen herror
  exact ⟨hzero, fun a => hbeyond a (by simp [hzero])⟩

theorem readWord_eq_zero {m : Memory} (h : ∀ a, Memory.readByte m a = 0) (a : Nat) : Memory.readWord m a = 0 := by
  simp only [Memory.readWord, h]
  rfl

/-- In the window of OUT a host reads 0 beyond BUF_BYTES, and below it while the block is busy or OUT is zero (R64, R67). -/
theorem hostRead_out_window {off : Nat} (hcap : CapOk s.bufBytes) (h4 : off % 4 = 0) (hlo : 0x20000 ≤ off)
    (hout : s.seq ≠ .idle ∨ ∀ a, Memory.readByte s.outBuf a = 0) : s.hostRead off = 0 := by
  obtain ⟨-, hbuf, -⟩ := hcap
  by_cases hin : off < 0x20000 + s.bufBytes
  · rw [hostRead_outBuf (targetOf_outBuf hbuf hlo hin)]
    rcases hout with hbusy | hzero
    · rw [if_pos (by simpa [State.busy] using hbusy)]
    · rw [readWord_eq_zero hzero, ite_self]
  · exact hostRead_reserved (targetOf_reserved h4 (by omega))

/-- Settles O42: a busy block reads OUT as 0 and has OUT_LEN 0, and a failure has left OUT itself zero. -/
theorem noPartialOutputIsVisible : Obligations.NoPartialOutputIsVisible := by
  refine fun P s h => ⟨fun hcase => ?_, fun hfail => (h.out_zero_of_failed hfail).2⟩
  have hout : s.seq ≠ .idle ∨ ∀ a, Memory.readByte s.outBuf a = 0 :=
    hcase.imp_right fun hfail => (h.out_zero_of_failed hfail).2
  have hlen : s.outLen = 0 := by
    rcases hcase with hbusy | hfail
    · obtain ⟨-, -, -, hlen⟩ := h.quiet_of_busy hbusy
      exact hlen
    · exact (h.out_zero_of_failed hfail).1
  exact ⟨fun off h4 hlo _ => hostRead_out_window h.cap h4 hlo hout, hlen⟩

end Sys2Proof.Machine
end

section
/-! The invariant under every step (R24, R35, R42): what a host access and a reset leave meets it, so every single step
keeps it, and so does a step of the machine, which is a sequence of single steps (R71). -/

namespace Sys2Proof.Machine

variable {P : Params} {s t : State}

/-! ## The host port -/

/-- The flags a host writes in every phase (R24, R31) and the response are no part of what a phase says, as long as DONE
is not raised. -/
theorem State.Inv.withFlags (h : s.Inv P) {d : Bool} (hd : d = true → s.done = true) (o e : Bool)
    (r : Option Response) :
    ({ s with done := d, overrun := o, irqEn := e, resp := r } : State).Inv P := by
  refine ⟨h.cap, h.inst, h.inFits, h.outFits, h.fits, h.errorBit, fun hd' => h.doneIdle (hd hd'), ?_⟩
  by_cases hs : s.seq = .idle
  · simp only [State.PhaseOk, hs]
    exact h.at_idle hs
  · have hsame : d = s.done := by
      have hdone : s.done ≠ true := fun hdone => hs (h.doneIdle hdone)
      rw [Bool.eq_false_iff.mpr hdone, Bool.eq_false_iff]
      exact fun hd' => hdone (hd hd')
    rw [hsame]
    exact h.phase

theorem State.Inv.withResp (h : s.Inv P) (r : Option Response) : ({ s with resp := r } : State).Inv P :=
  h.withFlags id s.overrun s.irqEn r

/-- In IDLE the invariant says nothing of the staging registers but that IN fits (R26, R27, R28, R33, R34). -/
theorem State.Inv.restaged (h : s.Inv P) (hs : s.seq = .idle) (kl iv il : Word) (ks : KeyBytes) {m : Memory}
    (hm : Memory.Fits m s.bufBytes) :
    ({ s with keyLen := kl, ivSize := iv, inLen := il, keyStage := ks, inBuf := m } : State).Inv P := by
  obtain ⟨hctx, hlen, hz, hfail⟩ := h.at_idle hs
  exact inv_of_idle hs h.cap h.inst hm h.outFits hctx h.errorBit hlen hz hfail

/-- A word of the window of IN lies inside the buffer: BUF_BYTES is a multiple of 4 (R7, R61). -/
theorem writeWord_fits {m : Memory} {n off o : Nat} (hcap : CapOk n) (h4 : off % 4 = 0) (ht : targetOf n off = .inBuf o)
    (hm : Memory.Fits m n) (v : Word) : Memory.Fits (Memory.writeWord m o v) n := by
  obtain ⟨hlo, hhi, ho⟩ := targetOf_inBuf_inv ht
  obtain ⟨-, -, hn4⟩ := hcap
  have hin : o + (wordBytes v).length ≤ n := by rw [wordBytes_length]; omega
  exact Memory.fits_writeBytes hm hin

theorem hostWrite_inv {off : Nat} (h : s.Inv P) (h4 : off % 4 = 0) (v : Word) : (s.hostWrite off v).Inv P := by
  apply hostWrite_cases (Q := State.Inv P) off v s h
  case hdrop => exact fun _ => h.withFlags id true s.irqEn s.resp
  case hcmd => exact fun _ _ => accept_inv h _
  case hstatus => exact fun _ => h.withFlags (fun hd => (Bool.and_eq_true_iff.mp hd).1) _ s.irqEn s.resp
  case hirq => exact fun _ => h.withFlags id s.overrun _ s.resp
  case hkeyLen | hivSize | hinLen => exact fun hs => h.restaged hs _ _ _ _ h.inFits
  case hkey => exact fun hs _ => h.restaged hs _ _ _ _ h.inFits
  case hin => exact fun hs o ht => h.restaged hs _ _ _ _ (writeWord_fits h.cap h4 ht h.inFits v)

theorem hostAccess_inv (a : Access) (h : s.Inv P) : (s.hostAccess a).Inv P := by
  apply hostAccess_cases (Q := State.Inv P) a s h.withResp
  exact fun off v _ h4 => (hostWrite_inv h h4 v).withResp _

/-! ## Reset -/

/-- What a reset leaves meets the invariant, whatever state it abandons (R260). -/
theorem applyReset_inv (hcap : CapOk s.bufBytes) : s.applyReset.Inv P :=
  ⟨hcap, rfl, Memory.fits_nil _, Memory.fits_nil _, (by decide : Context.zero.Fits), rfl,
    fun hd => absurd hd Bool.false_ne_true, ⟨rfl, rfl, rfl, rfl⟩, rfl, rfl, rfl, rfl⟩

/-- Settles O52: the state after reset is its own reset, with the default capacity. -/
theorem resetMeetsTheInvariant : Obligations.ResetMeetsTheInvariant :=
  fun _ => applyReset_inv (s := State.reset) (by decide)

/-! ## Single steps -/

theorem tick_inv (h : s.Inv P) : (tick P s).Inv P := by
  apply tick_cases (Q := State.Inv P) s
  case hnil => exact fun _ => seqMove_inv _ h
  case hmove => exact fun e es _ _ _ => seqMove_inv e (h.withEvents es)
  case hbus => exact fun a es _ => hostAccess_inv a (h.withEvents es)
  case hreset => exact fun es _ => applyReset_inv h.cap

/-- Settles O53: the sequencer's move, a host access and a reset each keep the invariant. -/
theorem everySingleStepKeepsTheInvariant : Obligations.EverySingleStepKeepsTheInvariant :=
  fun _ _ => tick_inv

theorem iterate_tick_inv (h : s.Inv P) (k : Nat) : ((tick P)^[k] s).Inv P :=
  Function.Iterate.rec (State.Inv P) h (fun _ => tick_inv) k

/-! ## Steps of the machine -/

theorem fetch_eq_none (h : ∀ w more, s.events ≠ .bus (.write .w32 0x00004 w) :: more) : fetch s = none := by
  unfold fetch
  split
  next off w rest he => exact if_neg fun hoff => h w rest (by rw [he, hoff]; rfl)
  next => rfl

/-- A step that no CMD write comes to is a single step. -/
theorem step_other (h : ∀ w more, s.events ≠ .bus (.write .w32 0x00004 w) :: more) :
    step s = .next (tick Config.machine s) := by
  rw [step, fetch_eq_none h]; rfl

/-- The single step at a CMD write: dropped while busy, else acceptance (R65, R225, R233). -/
theorem tick_cmd {w : Word} {more : List Event} (he : s.events = .bus (.write .w32 0x00004 w) :: more) :
    tick P s = State.staged { s with events := more, resp := some ⟨false, 0⟩ }
      (State.accept (Opc.ofWord w) { s with events := more, resp := some ⟨false, 0⟩ }) := by
  rw [tick_write rfl he]
  by_cases hs : s.seq = .idle
  · rw [staged_idle (s := { s with events := more, resp := _ }) hs]
    exact congrArg (fun t : State => { t with events := more, resp := some ⟨false, 0⟩ }) (staged_idle hs _)
  · rw [staged_busy (s := { s with events := more, resp := _ }) hs]
    exact congrArg (fun t : State => { t with events := more, resp := some ⟨false, 0⟩ }) (staged_busy hs _)

/-- The run of a command that a CMD write issues: the write's own single step, then those of `drive`. -/
theorem issue_eq_ticks {w : Word} {more : List Event} (he : s.events = .bus (.write .w32 0x00004 w) :: more) :
    ∃ k, k ≤ more.length + 3 ∧
      issue P (Opc.ofWord w) { s with events := more, resp := some ⟨false, 0⟩ } = (tick P)^[k + 1] s := by
  simp only [Function.iterate_succ_apply, tick_cmd he]
  by_cases hs : s.seq = .idle
  · rw [issue_idle (s := { s with events := more, resp := _ }) hs,
      staged_idle (s := { s with events := more, resp := _ }) hs]
    exact drive_eq_ticks P more _
  · rw [issue_busy (s := { s with events := more, resp := _ }) hs,
      staged_busy (s := { s with events := more, resp := _ }) hs]
    exact ⟨0, Nat.zero_le _, rfl⟩

theorem step_eq_ticks (s : State) :
    ∃ k, step s = .next ((tick Config.machine)^[k] s) ∧ 1 ≤ k ∧ k ≤ s.events.length + 4 := by
  by_cases hcmd : ∀ w more, s.events ≠ .bus (.write .w32 0x00004 w) :: more
  · exact ⟨1, step_other hcmd, by omega, by omega⟩
  · push Not at hcmd
    obtain ⟨w, more, he⟩ := hcmd
    obtain ⟨k, hk, hrun⟩ := issue_eq_ticks (P := Config.machine) he
    refine ⟨k + 1, ?_, by omega, ?_⟩
    · rw [step_cmd he, hrun]
    · rw [he, List.length_cons]; omega

/-- Settles O55: a step at a CMD write is the write and the run of the command, any other step is one single step. -/
theorem stepIsASequenceOfSingleSteps : Obligations.StepIsASequenceOfSingleSteps := by
  intro s
  obtain ⟨k, hstep, hk⟩ := step_eq_ticks s
  exact ⟨k, _, hstep, rfl, hk⟩

/-- Settles O54: a step is a sequence of single steps, each of which keeps the invariant. -/
theorem everyStepKeepsTheInvariant : Obligations.EveryStepKeepsTheInvariant := by
  intro s t h hstep
  obtain ⟨k, hticks, -⟩ := step_eq_ticks s
  obtain rfl : (tick Config.machine)^[k] s = t := Host.Outcome.next.inj (hticks.symm.trans hstep)
  exact iterate_tick_inv h k

/-- Settles O3: a CMD write whose word decodes runs `exec` of the command, every other event is a single step. -/
theorem stepRunsTheDecodedCommand : Obligations.StepRunsTheDecodedCommand := by
  refine ⟨fun s w more i he hw => ?_, fun s => step_other⟩
  have hopc : Opc.ofWord w = .ofInstr i := by
    rw [Opc.ofWord, decodeWord_eq_ok_iff.mpr (decodeCommand_eq_some_iff.mp hw)]
  rw [step_cmd he, exec_eq_issue, hopc]

end Sys2Proof.Machine
end

section
/-! The registers as the host sees them (R24, R25, R30, R31, R63): the bits of STATUS, the codes of ERR, the fields of
INST, and what is written to a staging register or a buffer read back. -/

namespace Sys2Proof.Machine

variable {P : Params} {s : State} {off : Nat} {v : Word} {more : List Event}

/-! ## STATUS and IRQ_EN (R24, R31) -/

theorem bitWord_getLsbD (b : Bool) (i : Nat) : (bitWord b).getLsbD i = (decide (i = 0) && b) := by
  rw [bitWord, BitVec.getLsbD_setWidth]
  cases i with
  | zero => cases b <;> rfl
  | succ i => simp

/-- The bits of STATUS in their order, zeros above (R24). -/
theorem statusWord_getLsbD (s : State) (i : Nat) :
    s.statusWord.getLsbD i = [s.busy, s.done, s.error, s.overrun].getD i false := by
  simp only [State.statusWord, BitVec.getLsbD_or, BitVec.getLsbD_shiftLeft, bitWord_getLsbD]
  match i with
  | 0 | 1 | 2 | 3 => simp
  | i + 4 => simp

/-- Settles O38: the bits of STATUS as a list, and its write as one more update of DONE and OVERRUN. -/
theorem statusBitsReadAndClear : Obligations.StatusBitsReadAndClear := by
  refine ⟨fun s => ?_, fun P s v more he => ?_, fun P s v more he => ?_⟩
  · have hbit (i : Nat) : (s.hostRead 0x00008).getLsbD i = [s.busy, s.done, s.error, s.overrun].getD i false :=
      statusWord_getLsbD s i
    exact ⟨hbit 0, hbit 1, hbit 2, hbit 3, fun i hi => (hbit i).trans (List.getD_eq_default _ _ hi)⟩
  · exact ⟨s.done && !v.getLsbD 1, s.overrun && !v.getLsbD 3, tick_write rfl he, by simp, by simp⟩
  · have ht : tick P s = { s with irqEn := v.getLsbD 0, events := more, resp := some ⟨false, 0⟩ } := tick_write rfl he
    have hread (i : Nat) : ((tick P s).hostRead 0x00024).getLsbD i = (decide (i = 0) && v.getLsbD 0) := by
      rw [ht]; exact bitWord_getLsbD _ i
    exact ⟨ht, hread 0, fun i hi => by rw [hread, decide_eq_false (by omega), Bool.false_and]⟩

/-! ## ERR (R25, R221) -/

/-- Settles O31: a finite table, and ERR reads the byte of a kind or 0. -/
theorem errorCodeValues : Obligations.ErrorCodeValues := by
  refine ⟨rfl, rfl, fun a b h => ?_, fun s => ?_⟩
  · revert h; cases a <;> cases b <;> decide
  · rw [show s.hostRead 0x0000C = (codeByte s.errCode).setWidth 32 from rfl]
    cases s.errCode with
    | none => decide
    | some k => cases k <;> decide

/-! ## INST (R30) -/

/-- The six parts of INST, from bit 31 down (R30). -/
theorem view_of_valid {c : CipherInst} (hv : c.valid = true) :
    c.view = (0 : BitVec 8) ++ c.ivSize.setWidth 8 ++ c.keyLen.setWidth 8 ++ (0 : BitVec 6) ++ variantBit c.variant ++
      (1 : BitVec 1) := by
  rw [CipherInst.view, if_pos hv]

theorem view_valid_bit {c : CipherInst} (hv : c.valid = true) : c.view.getLsbD 0 = true := by
  rw [view_of_valid hv, BitVec.getLsbD_append]; rfl

theorem view_variant_bit {c : CipherInst} (hv : c.valid = true) : c.view.getLsbD 1 = true ↔ c.variant = .v256 := by
  have hbit : c.view.getLsbD 1 = (variantBit c.variant).getLsbD 0 := by
    rw [view_of_valid hv, BitVec.getLsbD_append, BitVec.getLsbD_append]; rfl
  rw [hbit]
  cases c.variant <;> decide

theorem view_rsv_low {c : CipherInst} (hv : c.valid = true) : c.view.extractLsb' 2 6 = 0 := by
  rw [view_of_valid hv, BitVec.extractLsb'_append_eq_of_le (by decide), BitVec.extractLsb'_append_eq_of_le (by decide)]
  exact BitVec.extractLsb'_append_eq_right

theorem view_keyLen {c : CipherInst} (hv : c.valid = true) : c.view.extractLsb' 8 8 = c.keyLen.setWidth 8 := by
  rw [view_of_valid hv, BitVec.extractLsb'_append_eq_of_le (by decide), BitVec.extractLsb'_append_eq_of_le (by decide),
    BitVec.extractLsb'_append_eq_of_le (by decide)]
  exact BitVec.extractLsb'_append_eq_right

theorem view_ivSize {c : CipherInst} (hv : c.valid = true) : c.view.extractLsb' 16 8 = c.ivSize.setWidth 8 := by
  rw [view_of_valid hv, BitVec.extractLsb'_append_eq_of_le (by decide), BitVec.extractLsb'_append_eq_of_le (by decide),
    BitVec.extractLsb'_append_eq_of_le (by decide), BitVec.extractLsb'_append_eq_of_le (by decide)]
  exact BitVec.extractLsb'_append_eq_right

theorem view_rsv_high {c : CipherInst} (hv : c.valid = true) : c.view.extractLsb' 24 8 = 0 := by
  rw [view_of_valid hv, BitVec.extractLsb'_append_eq_of_le (by decide), BitVec.extractLsb'_append_eq_of_le (by decide),
    BitVec.extractLsb'_append_eq_of_le (by decide), BitVec.extractLsb'_append_eq_of_le (by decide)]
  exact BitVec.extractLsb'_append_eq_left

/-- Settles O37: with an instance INST is its six parts in their places, without one 0. -/
theorem instViewFields : Obligations.InstViewFields := by
  refine ⟨fun s hv => ⟨view_valid_bit hv, view_variant_bit hv, view_rsv_low hv, ?_, ?_, view_rsv_high hv⟩,
    fun s hv => ?_, fun P s v more he => tick_write rfl he⟩
  · rw [hostRead_inst, view_keyLen hv, BitVec.toNat_setWidth_of_le (by decide)]
  · rw [hostRead_inst, view_ivSize hv, BitVec.toNat_setWidth_of_le (by decide)]
  · rw [hostRead_inst, CipherInst.view, hv]; rfl

/-! ## Staging (R26, R27, R28, R33, R34, R63) -/

theorem wordBytes_getD (v : Word) {i : Nat} (h : i < 4) : (wordBytes v).getD i 0 = byteLane v i := by
  match i, h with
  | 0, _ | 1, _ | 2, _ | 3, _ => rfl

/-- A stored word puts its lanes into its four bytes and leaves the others (R63). -/
theorem readByte_writeWord {m : Memory} (h : Memory.wf m) (o : Nat) (v : Word) (a : Nat) :
    Memory.readByte (Memory.writeWord m o v) a =
      if o ≤ a ∧ a < o + 4 then byteLane v (a - o) else Memory.readByte m a := by
  rw [Memory.writeWord, Memory.readByte_writeBytes h, wordBytes_length]
  exact if_ctx_congr Iff.rfl (fun ha => wordBytes_getD v (by omega)) fun _ => rfl

/-- A staging write in IDLE is not dropped (R65). -/
theorem tick_staging_inBuf (hs : s.seq = .idle) (h4 : off % 4 = 0) (he : s.events = .bus (.write .w32 off v) :: more)
    (hlo : 0x10000 ≤ off) (hhi : off < 0x10000 + s.bufBytes) :
    tick P s = { s with
      inBuf := Memory.writeWord s.inBuf (off - 0x10000) v, events := more, resp := some ⟨false, 0⟩ } := by
  rw [tick_write h4 he, hostWrite_inBuf hlo hhi, staged_idle hs]

theorem tick_staging_key {k : Nat} (hs : s.seq = .idle) (hk : k < 8)
    (he : s.events = .bus (.write .w32 (0x40 + 4 * k) v) :: more) :
    tick P s = { s with keyStage := writeKeyWord s.keyStage k v, events := more, resp := some ⟨false, 0⟩ } := by
  rw [tick_write (by omega) he, hostWrite_key (by omega) (by omega), staged_idle hs,
    show (0x40 + 4 * k - 0x40) / 4 = k by omega]

theorem writeKeyWord_getElem (key : KeyBytes) (k : Nat) (v : Word) (i : Fin 32) :
    (writeKeyWord key k v)[i] =
      if 4 * k ≤ i.val ∧ i.val < 4 * k + 4 then byteLane v (i.val - 4 * k) else key[i] := by
  have hget : (writeKeyWord key k v)[i] = if i.val / 4 = k then byteLane v (i.val % 4) else key[i] := by
    simp [writeKeyWord]
  rw [hget]
  exact if_ctx_congr (by omega) (fun h => congrArg (byteLane v) (by omega)) fun _ => rfl

/-- Settles O34: each staging write in IDLE is one update, and what it wrote is what a read of the offset names. -/
theorem stagingWritesReadBack : Obligations.StagingWritesReadBack := by
  intro P s off v more hs hwf hcap h4 he
  refine ⟨?_, fun hlo hhi a => ?_, fun k hk hoff => ?_⟩
  · rintro (rfl | rfl | rfl | ⟨hlo, hhi⟩)
    · rw [tick_write h4 he, show s.hostWrite 0x00010 v = { s with keyLen := v } from staged_idle hs _]; rfl
    · rw [tick_write h4 he, show s.hostWrite 0x00014 v = { s with ivSize := v } from staged_idle hs _]; rfl
    · rw [tick_write h4 he, show s.hostWrite 0x00018 v = { s with inLen := v } from staged_idle hs _]; rfl
    · have ht := tick_staging_inBuf (P := P) hs h4 he hlo hhi
      have htarget : targetOf (tick P s).bufBytes off = .inBuf (off - 0x10000) := by
        rw [ht]; exact targetOf_inBuf hlo hhi
      rw [hostRead_inBuf htarget, ht]
      exact Memory.readWord_writeWord hwf _ v
  · rw [tick_staging_inBuf hs h4 he hlo hhi]
    exact readByte_writeWord hwf _ v a
  · subst hoff
    rw [tick_staging_key hs hk he]
    exact ⟨writeKeyWord_getElem s.keyStage k v, hostRead_key (targetOf_key (by omega) (by omega))⟩

end Sys2Proof.Machine
end

section
/-! What a move of the sequencer may write (R42, R225 to R227): between phases the phase, OUT, the context and the port
messages, at the end of a command also the flags, OUT_LEN and the instance, and nothing else. So what a whole command
leaves alone, what it reports at its end, and when irq_o rises. -/

namespace Sys2Proof.Machine

variable {P : Params} {s t u : State} {o : Opc}

/-! ## The frame of a move -/

/-- From `s` to `t` only the phase, OUT, the context and the port messages change: a move within a command. -/
def State.MovesTo (s t : State) : Prop :=
  t = { s with seq := t.seq, outBuf := t.outBuf, ctx := t.ctx, portLog := t.portLog }

/-- From `s` to `t` only what a command may write changes: what a move within it writes, the flags, OUT_LEN and the
instance. -/
def State.RunsTo (s t : State) : Prop :=
  t = { s with
    seq := t.seq, done := t.done, error := t.error, errCode := t.errCode, outLen := t.outLen, outBuf := t.outBuf,
    inst := t.inst, ctx := t.ctx, portLog := t.portLog, events := t.events }

theorem State.MovesTo.runsTo (h : s.MovesTo t) : s.RunsTo t := by
  unfold State.MovesTo at h
  rw [State.RunsTo, h]

theorem State.RunsTo.trans (h : s.RunsTo t) (h' : t.RunsTo u) : s.RunsTo u := by
  unfold State.RunsTo at h h' ⊢
  rw [h', h]

theorem checkEncrypt_movesTo (hv : s.inst.valid = true) (hl : s.msgLength + s.inst.ivBytes ≤ s.bufBytes) :
    s.MovesTo (checkEncrypt s) := by
  rw [checkEncrypt_ok hv (Nat.not_lt.mpr hl)]; rfl

theorem checkDecrypt_movesTo (hv : s.inst.valid = true) (hl : s.msgLength ≤ s.bufBytes)
    (hl' : s.inst.ivBytes ≤ s.msgLength) : s.MovesTo (checkDecrypt s) := by
  rw [checkDecrypt_ok hv (Nat.not_lt.mpr hl) (Nat.not_lt.mpr hl')]; rfl

theorem answerRng_movesTo (b : Block) (s : State) : s.MovesTo (answerRng b s) := by
  unfold answerRng State.beginStream State.send
  rfl

theorem answerInit_movesTo (a : EngAnswer) (s : State) : s.MovesTo (s.answerInit a) :=
  answerInit_cases (Q := s.MovesTo) s a (fun _ => rfl) (fun _ _ => rfl) (fun _ _ => rfl)

theorem answerBlock_movesTo (a : EngAnswer) (s : State) : s.MovesTo (s.answerBlock P a) :=
  answerBlock_cases (Q := s.MovesTo) s a (fun _ => rfl) (fun _ _ => rfl) (fun _ _ => rfl)

/-- A move stays within the command, or it is one of the two completions; the only other move is that out of RST_CLR. -/
theorem seqMove_movesTo_or_ends (P : Params) (e : Event) (s : State) :
    s.MovesTo (seqMove P e s) ∨ (s.InCommand ∧ s.EndsIn (seqMove P e s)) := by
  apply seqMove_cases (Q := fun t => s.MovesTo t ∨ (s.InCommand ∧ s.EndsIn t)) e s (.inl rfl)
  case hrst => exact fun _ _ => .inl rfl
  case hcheck =>
    intro hs _
    apply checkTurn_cases (Q := fun t => s.MovesTo t ∨ (s.InCommand ∧ s.EndsIn t)) s hs
    case hraise => exact fun _ => .inl rfl
    case hcreate =>
      exact fun _ v _ _ => .inr ⟨by simp [State.InCommand, hs], completeStep_ends { s with inst := s.stagedInst v }⟩
    case hencrypt => exact fun _ hv hl => .inl (checkEncrypt_movesTo hv hl)
    case hdecrypt => exact fun _ hv hl hl' => .inl (checkDecrypt_movesTo hv hl hl')
  case hcommit =>
    intro hs _
    have hin : s.InCommand := by simp [State.InCommand, hs]
    apply commitStep_cases (Q := fun t => s.MovesTo t ∨ (s.InCommand ∧ s.EndsIn t)) s
    case hraise => exact fun _ _ _ => .inl rfl
    case hplain => exact fun _ => .inr ⟨hin, completeStep_ends s⟩
    case hencrypt => exact fun _ _ => .inr ⟨hin, completeStep_ends { s with outBuf := _, outLen := _ }⟩
    case hdecrypt => exact fun _ _ => .inr ⟨hin, completeStep_ends { s with outLen := _ }⟩
  case habort => exact fun hs _ => .inr ⟨by simp [State.InCommand, hs], abortStep_ends s⟩
  case hrng => exact fun _ b _ => .inl (answerRng_movesTo b s)
  case hinit => exact fun _ a _ => .inl (answerInit_movesTo a s)
  case hblock => exact fun _ a _ => .inl (answerBlock_movesTo a s)

theorem completeStep_runsTo (s : State) : s.RunsTo s.completeStep := by rw [completeStep_eq]; rfl

theorem abortStep_runsTo (s : State) : s.RunsTo s.abortStep := by rw [abortStep_eq]; rfl

theorem completeStep_runsTo_of (inst : CipherInst) (out : Memory) (len : Word) (s : State) :
    s.RunsTo (State.completeStep { s with inst := inst, outBuf := out, outLen := len }) := by
  rw [completeStep_eq]; rfl

/-- The frame of every move. -/
theorem seqMove_runsTo (P : Params) (e : Event) (s : State) : s.RunsTo (seqMove P e s) := by
  apply seqMove_cases (Q := s.RunsTo) e s rfl
  case hrst => exact fun _ _ => rfl
  case hcheck =>
    intro hs _
    apply checkTurn_cases (Q := s.RunsTo) s hs
    case hraise => exact fun _ => rfl
    case hcreate => exact fun _ v _ _ => completeStep_runsTo_of (s.stagedInst v) s.outBuf s.outLen s
    case hencrypt => exact fun _ hv hl => (checkEncrypt_movesTo hv hl).runsTo
    case hdecrypt => exact fun _ hv hl hl' => (checkDecrypt_movesTo hv hl hl').runsTo
  case hcommit =>
    intro _ _
    apply commitStep_cases (Q := s.RunsTo) s
    case hraise => exact fun _ _ _ => rfl
    case hplain => exact fun _ => completeStep_runsTo s
    case hencrypt => exact fun _ _ => completeStep_runsTo_of s.inst _ _ s
    case hdecrypt => exact fun _ _ => completeStep_runsTo_of s.inst s.outBuf _ s
  case habort => exact fun _ _ => abortStep_runsTo s
  case hrng => exact fun _ b _ => (answerRng_movesTo b s).runsTo
  case hinit => exact fun _ a _ => (answerInit_movesTo a s).runsTo
  case hblock => exact fun _ a _ => (answerBlock_movesTo a s).runsTo

theorem accept_runsTo (o : Opc) (s : State) : s.RunsTo (s.accept o) := rfl

/-- The frame of a command that is accepted, whatever events come. -/
theorem issue_runsTo (hs : s.seq = .idle) (o : Opc) : s.RunsTo (issue P o s) := by
  rw [issue_idle hs]
  refine drive_keeps (Q := s.RunsTo) (fun t es h => ?_) (fun e t h => h.trans (seqMove_runsTo P e t)) s.events _
    (accept_runsTo o s)
  exact h.trans rfl

/-! ## What a command leaves alone -/

/-- From `s` to `t` nothing was sent, and the engine is not engaged, so that the end of the command releases nothing
(R80). -/
def State.Silent (s t : State) : Prop := t.portLog = s.portLog ∧ (t.seq ≠ .idle → t.ctx.initIssued = false)

theorem seqMove_silent (e : Event) (hin : t.InCreate) (h : s.Silent t) : s.Silent (seqMove P e t) := by
  obtain ⟨hlog, hinit⟩ := id h
  have hphase := hin.phase
  apply seqMove_cases (Q := s.Silent) e t h
  case hcheck =>
    intro hs _
    have hbusy : t.seq ≠ .idle := by simp [hs]
    have hopc := hin.opc hbusy
    apply checkTurn_cases (Q := s.Silent) t hs
    case hraise => exact fun _ => ⟨hlog, fun _ => hinit hbusy⟩
    case hcreate => intros; simp [State.Silent, hinit hbusy, hlog]
    case hencrypt | hdecrypt => exact fun ho => absurd (hopc.symm.trans ho) (by decide)
  case habort =>
    intro hs _
    have hbusy : t.seq ≠ .idle := by simp [hs]
    simp [State.Silent, hinit hbusy, hlog]
  all_goals intro hs; simp [hs] at hphase

theorem issue_create_portLog (s : State) : (issue P .create s).portLog = s.portLog := by
  by_cases hs : s.seq = .idle
  · have hsilent : (issue P .create s).InCreate ∧ s.Silent (issue P .create s) := by
      rw [issue_idle hs]
      exact drive_keeps (Q := fun t => t.InCreate ∧ s.Silent t) (fun _ _ h => h)
        (fun e _ h => ⟨seqMove_inCreate e h.1, seqMove_silent e h.1 h.2⟩) s.events _
        ⟨.inl ⟨.inl rfl, rfl⟩, rfl, fun _ => rfl⟩
    obtain ⟨-, hlog, -⟩ := hsilent
    exact hlog
  · rw [issue_busy hs]; rfl

/-- A command issued in any phase writes what a run may write, or is dropped. -/
theorem issue_frame (o : Opc) (s : State) :
    s.RunsTo (issue P o s) ∨ (s.seq ≠ .idle ∧ issue P o s = { s with overrun := true }) := by
  by_cases hs : s.seq = .idle
  · exact .inl (issue_runsTo hs o)
  · exact .inr ⟨hs, issue_busy hs o⟩

/-- Settles O45: the frame of a run, or of a dropped write; INST and the port messages by the kind of command. -/
theorem commandFrame : Obligations.CommandFrame := by
  intro i s t h
  rw [exec_eq_issue] at h
  cases h
  have hinst : i ≠ .create → (issue Config.machine (.ofInstr i) s).inst = s.inst :=
    fun hi => issue_inst (Opc.ofInstr_ne_create hi) s
  have hlog : i = .create → (issue Config.machine (.ofInstr i) s).portLog = s.portLog := by
    rintro rfl; exact issue_create_portLog s
  rcases issue_frame (P := Config.machine) (.ofInstr i) s with hrun | ⟨hs, hdrop⟩
  · refine ⟨fun a => ?_, ?_, ?_, ?_, ?_, ?_, ?_, ?_, ?_, fun _ => ?_, hinst, hlog⟩ <;> rw [hrun]
  · refine ⟨fun a => ?_, ?_, ?_, ?_, ?_, ?_, ?_, ?_, ?_, fun hidle => absurd hidle hs, hinst, hlog⟩ <;> rw [hdrop]

/-! ## What a command reports at its end (R226, R227) -/

/-- While the command runs nothing is reported, and an error is pending in ABORT; past its end the flags agree with
ERR.CODE, and an error leaves no output. -/
def State.Reports (s : State) : Prop :=
  (s.InCommand ∧ s.Quiet ∧ (s.seq = .abort → s.ctx.code ≠ none)) ∨
    (s.seq = .idle ∧ s.done = true ∧ s.error = s.errCode.isSome ∧ (s.error = true → s.outBuf = [] ∧ s.outLen = 0))

theorem State.MovesTo.quiet (h : s.MovesTo t) (hq : s.Quiet) : t.Quiet := by
  rw [h]; exact hq

theorem State.MovesTo.reports (h : s.MovesTo t) (hq : s.Quiet) (hin : t.InCommand) (ha : t.seq ≠ .abort) : t.Reports :=
  .inl ⟨hin, h.quiet hq, fun hs => absurd hs ha⟩

theorem raise_reports (hq : s.Quiet) (k : ErrorKind) : (s.raise k).Reports :=
  .inl ⟨⟨Seq.noConfusion, Seq.noConfusion⟩, hq, fun _ => Option.some_ne_none k⟩

theorem completeStep_reports (s : State) : s.completeStep.Reports := by
  right; simp

theorem checkTurn_reports (hs : s.seq = .check) (hq : s.Quiet) : (seqTurn s).Reports := by
  apply checkTurn_cases (Q := State.Reports) s hs
  case hraise => exact raise_reports hq
  case hcreate => exact fun _ _ _ _ => completeStep_reports _
  case hencrypt =>
    intro _ hv hl
    refine (checkEncrypt_movesTo hv hl).reports hq (checkEncrypt_goesOn hv hl).1 ?_
    rw [checkEncrypt_ok hv (Nat.not_lt.mpr hl)]; exact Seq.noConfusion
  case hdecrypt =>
    intro _ hv hl hl'
    refine (checkDecrypt_movesTo hv hl hl').reports hq (checkDecrypt_goesOn hv hl hl').1 ?_
    rw [checkDecrypt_ok hv (Nat.not_lt.mpr hl) (Nat.not_lt.mpr hl')]; exact Seq.noConfusion

theorem answerInit_reports (hq : s.Quiet) (a : EngAnswer) : (s.answerInit a).Reports := by
  apply answerInit_cases (Q := State.Reports) s a
  case hfail => exact fun _ => raise_reports hq _
  case hempty | hfirst => exact fun _ _ => .inl ⟨⟨Seq.noConfusion, Seq.noConfusion⟩, hq, Seq.noConfusion⟩

theorem answerBlock_reports (hs : s.seq = .blkWait) (hq : s.Quiet) (a : EngAnswer) : (s.answerBlock P a).Reports := by
  apply answerBlock_cases (Q := State.Reports) s a
  case hfail => exact fun _ => raise_reports hq _
  case hlast => exact fun _ _ => .inl ⟨⟨Seq.noConfusion, Seq.noConfusion⟩, hq, Seq.noConfusion⟩
  case hmore => exact fun _ _ => .inl ⟨by simp [State.InCommand, hs], hq, fun h => absurd (hs.symm.trans h) (by decide)⟩

theorem seqMove_reports (e : Event) (h : s.Reports) : (seqMove P e s).Reports := by
  rcases id h with ⟨hin, hq, hcode⟩ | ⟨hidle, -⟩
  case inr => rwa [seqMove_of_idle hidle]
  apply seqMove_cases (Q := State.Reports) e s h
  case hrst => exact fun hs => absurd hs hin.2
  case hcheck => exact fun hs _ => checkTurn_reports hs hq
  case hcommit =>
    intro _ _
    apply commitStep_cases (Q := State.Reports) s
    case hraise => exact fun k _ _ => raise_reports hq k
    all_goals intros; exact completeStep_reports _
  case habort =>
    intro hs _
    have hsome : s.ctx.code.isSome = true := Option.isSome_iff_ne_none.mpr (hcode hs)
    right; simp [hsome]
  case hrng => exact fun _ b _ => (answerRng_movesTo b s).reports hq (answerRng_goesOn s b).1 (by simp)
  case hinit => exact fun _ a _ => answerInit_reports hq a
  case hblock => exact fun hs a _ => answerBlock_reports hs hq a

theorem issue_reports (hs : s.seq = .idle) (o : Opc) : (issue P o s).Reports := by
  rw [issue_idle hs]
  exact drive_keeps (fun _ _ h => h) (fun e _ => seqMove_reports e) s.events _
    (.inl ⟨⟨Seq.noConfusion, Seq.noConfusion⟩, ⟨rfl, rfl, rfl, rfl⟩, Seq.noConfusion⟩)

/-- Settles O30: every move from acceptance on keeps the flags quiet, or is a completion that reports. -/
theorem everyCompletionReports : Obligations.EveryCompletionReports := by
  intro i s t hs h
  rw [exec_eq_issue] at h
  cases h
  rcases issue_reports (P := Config.machine) hs (.ofInstr i) with ⟨hin, hq, -⟩ | ⟨hidle, hrep⟩
  · exact ⟨fun hidle => absurd hidle hin.1, fun _ => hq⟩
  · exact ⟨fun _ => hrep, fun hbusy => absurd hidle hbusy⟩

/-! ## irq_o (R229) -/

theorem irqO_iff : s.irqO = true ↔ s.done = true ∧ s.irqEn = true := Bool.and_eq_true_iff

theorem irqO_of_done_false (h : s.done = false) : s.irqO = false := by rw [State.irqO, h]; rfl

/-- A move of the sequencer raises irq_o only at the end of a command. -/
theorem seqMove_irqO (e : Event) (h : (seqMove P e s).irqO = true) :
    s.irqO = true ∨ (s.irqEn = true ∧ s.seq ≠ .idle ∧ (seqMove P e s).seq = .idle) := by
  rcases seqMove_movesTo_or_ends P e s with hmove | ⟨hin, hidle, -⟩
  · rw [hmove] at h; exact .inl h
  · have hen : (seqMove P e s).irqEn = s.irqEn := by rw [seqMove_runsTo P e s]
    exact .inr ⟨hen ▸ (irqO_iff.mp h).2, hin.1, hidle⟩

/-- No write raises DONE. -/
theorem hostWrite_done {off : Nat} {v : Word} (h : (s.hostWrite off v).done = true) : s.done = true := by
  revert h
  apply hostWrite_cases (Q := fun t => t.done = true → s.done = true) off v s id
  case hcmd => exact fun _ _ h => absurd h Bool.false_ne_true
  case hstatus => exact fun _ h => (Bool.and_eq_true_iff.mp h).1
  case hkey => exact fun _ _ => id
  case hin => exact fun _ _ _ => id
  all_goals exact fun _ => id

/-- The write to IRQ_EN alone sets EN. -/
theorem hostWrite_irqEn {off : Nat} {v : Word} (h : (s.hostWrite off v).irqEn = true) :
    s.irqEn = true ∨ (off = 0x00024 ∧ v.getLsbD 0 = true) := by
  revert h
  apply hostWrite_cases (Q := fun t => t.irqEn = true → s.irqEn = true ∨ (off = 0x00024 ∧ v.getLsbD 0 = true)) off v s
    .inl
  case hirq => exact fun hoff hbit => .inr ⟨hoff, hbit⟩
  case hcmd => exact fun _ _ => .inl
  case hkey => exact fun _ _ => .inl
  case hin => exact fun _ _ _ => .inl
  all_goals exact fun _ => .inl

/-- The single step from `s` to `t` may raise irq_o: it ends a command while EN is 1, or sets EN while DONE is 1. -/
def State.MayRaise (s t : State) : Prop :=
  (s.irqEn = true ∧ s.seq ≠ .idle ∧ t.seq = .idle) ∨
    (s.done = true ∧ ∃ (v : Word) (rest : List Event),
      s.events = .bus (.write .w32 0x00024 v) :: rest ∧ v.getLsbD 0 = true)

theorem tick_irqO (h : (tick P s).irqO = true) : s.irqO = true ∨ s.MayRaise (tick P s) := by
  revert h
  apply tick_cases (Q := fun t => t.irqO = true → s.irqO = true ∨ s.MayRaise t) s
  case hnil => exact fun _ h => (seqMove_irqO .internal h).imp_right .inl
  case hmove => exact fun e es _ _ _ h => (seqMove_irqO (s := { s with events := es }) e h).imp_right .inl
  case hreset => exact fun es _ h => absurd ((irqO_of_done_false rfl).symm.trans h) (by decide)
  case hbus =>
    intro a es he
    apply hostAccess_cases (Q := fun t => t.irqO = true → s.irqO = true ∨ s.MayRaise t) a { s with events := es }
    case hself => exact fun _ h => .inl h
    case hwrite =>
      rintro off v rfl - h
      obtain ⟨hdone, hen⟩ := irqO_iff.mp h
      have hsdone : s.done = true := hostWrite_done (s := { s with events := es }) hdone
      rcases hostWrite_irqEn (s := { s with events := es }) hen with hen | ⟨rfl, hbit⟩
      · exact .inl (irqO_iff.mpr ⟨hsdone, hen⟩)
      · exact .inr (.inr ⟨hsdone, v, es, he, hbit⟩)

/-- Settles O40: the sequencer raises irq_o only by ending a command, the host only by enabling it. -/
theorem interruptIsDoneAndEnabled : Obligations.InterruptIsDoneAndEnabled := by
  refine ⟨fun s => irqO_iff, fun P s hlow hhigh => ?_, fun P s v more he hbit => ?_, fun P s w more hs he => ?_,
    fun P s v more he hbit => ?_⟩
  · exact (tick_irqO hhigh).resolve_left (by rw [hlow]; decide)
  · have hdone : (tick P s).done = (s.done && !v.getLsbD 1) := by rw [tick_write rfl he]; rfl
    exact irqO_of_done_false (by rw [hdone, hbit, Bool.not_true, Bool.and_false])
  · have hdone : (tick P s).done = false := by rw [acceptanceOfACommand P s w more hs he]
    exact irqO_of_done_false hdone
  · have ht : tick P s = { s with irqEn := v.getLsbD 0, events := more, resp := some ⟨false, 0⟩ } := tick_write rfl he
    rw [ht, State.irqO, hbit]
    exact ⟨Bool.and_false _, rfl⟩

/-! ## Waits (R242) and reset (R260, R262) -/

/-- The command under way at `s` stands at `t` where it stood: its phase, context, OUT and messages, and no DONE. -/
def State.StandsAt (s t : State) : Prop :=
  t.seq = s.seq ∧ t.ctx = s.ctx ∧ (t.done = true → s.done = true) ∧ t.outBuf = s.outBuf ∧ t.portLog = s.portLog

/-- While the block is busy a host access of any kind lets the command stand. -/
theorem hostAccess_standsAt (a : Access) (hs : s.seq ≠ .idle) : s.StandsAt (s.hostAccess a) := by
  apply hostAccess_cases (Q := s.StandsAt) a s fun _ => ⟨rfl, rfl, id, rfl, rfl⟩
  intro off v _ _
  apply hostWrite_cases (Q := fun t => s.StandsAt { t with resp := _ }) off v s ⟨rfl, rfl, id, rfl, rfl⟩
  case hdrop | hirq => exact fun _ => ⟨rfl, rfl, id, rfl, rfl⟩
  case hstatus => exact fun _ => ⟨rfl, rfl, fun h => (Bool.and_eq_true_iff.mp h).1, rfl, rfl⟩
  case hcmd => exact fun _ h => absurd h hs
  all_goals exact fun h => absurd h hs

/-- An event that is neither a bus access, a reset nor the awaited answer leaves a wait as it is. -/
theorem seqMove_wait (hs : s.seq = .rngWait ∨ s.seq = .initWait ∨ s.seq = .blkWait) (e : Event)
    (hrng : ∀ b, e = .rng b → s.seq ≠ .rngWait) (heng : ∀ a, e = .eng a → s.seq = .rngWait) : seqMove P e s = s := by
  apply seqMove_cases (Q := fun t => t = s) e s rfl
  case hrng => exact fun h b he => absurd h (hrng b he)
  case hinit | hblock => exact fun h a he => absurd ((heng a he).symm.trans h) (by decide)
  all_goals intro h; simp [h] at hs

/-- Settles O49: in a wait the sequencer has no step of its own and ignores the other port, and a busy block drops what
a host writes. -/
theorem waitingChangesNothing : Obligations.WaitingChangesNothing := by
  refine fun s hs => ⟨step_wait_nil hs, fun P e more he hreset hrng heng => ?_⟩
  have hbusy : s.seq ≠ .idle := by rcases hs with h | h | h <;> simp [h]
  apply tick_cases (Q := s.StandsAt) s
  case hnil => exact fun h => absurd (he.symm.trans h) (by simp)
  case hmove =>
    intro e' es he' _ _
    obtain ⟨rfl, rfl⟩ := List.cons.inj (he.symm.trans he')
    rw [seqMove_wait (s := { s with events := more }) hs e hrng heng]
    exact ⟨rfl, rfl, id, rfl, rfl⟩
  case hbus => exact fun a es _ => hostAccess_standsAt (s := { s with events := es }) a hbusy
  case hreset => exact fun es h => absurd (List.cons.inj (he.symm.trans h)).1 hreset

/-- An answer with no request outstanding is ignored (R262, V8). -/
theorem deliver_unawaited {e : Event} (h : e = .stale ∨ ((∃ b, e = .rng b) ∧ s.seq ≠ .rngWait) ∨
    ((∃ a, e = .eng a) ∧ s.seq ≠ .initWait ∧ s.seq ≠ .blkWait)) : deliver P e s = s := by
  rcases h with rfl | ⟨⟨b, rfl⟩, hs⟩ | ⟨⟨a, rfl⟩, hs, hs'⟩
  · rfl
  · exact seqMove_rng_ignored hs
  · exact seqMove_eng_ignored hs hs'

/-- Settles O50: a reset is `State.applyReset`, an unawaited answer is taken from the inputs and no more, and RST_CLR
takes one turn. -/
theorem resetAbandonsTheCommand : Obligations.ResetAbandonsTheCommand := by
  refine ⟨fun P s more he => tick_cons he, fun P s e more he hun => ?_, fun P s rest hs hturn => ?_⟩
  · rw [tick_cons he]
    exact deliver_unawaited hun
  · rw [tick_turn hturn, seqTurn_rstClr hs]

end Sys2Proof.Machine
end

section
/-! A command is atomic to the host (R71): while it runs, all that single steps change of what the host reads is OVERRUN
and IRQ_EN, which the host writes. -/

namespace Sys2Proof.Machine

variable {P : Params} {s t : State}

/-- `t` shows what `s` shows: of the registers the host reads only OVERRUN and IRQ_EN may differ, and OUT, which a busy
block hides (R64). -/
def State.ShowsAs (s t : State) : Prop :=
  t = { s with
    seq := t.seq, overrun := t.overrun, irqEn := t.irqEn, outBuf := t.outBuf, ctx := t.ctx, portLog := t.portLog,
    events := t.events, resp := t.resp }

theorem State.MovesTo.showsAs (h : s.MovesTo t) : s.ShowsAs t := by
  unfold State.MovesTo at h
  rw [State.ShowsAs, h]

/-! ## What the host reads -/

theorem busy_iff : s.busy = true ↔ s.seq ≠ .idle := by simp [State.busy]

theorem State.ShowsAs.statusWord (h : s.ShowsAs t) (hs : s.seq ≠ .idle) (ht : t.seq ≠ .idle) {i : Nat} (hi : i ≠ 3) :
    t.statusWord.getLsbD i = s.statusWord.getLsbD i := by
  have hbusy : t.busy = s.busy := (busy_iff.mpr ht).trans (busy_iff.mpr hs).symm
  have hdone : t.done = s.done := by rw [h]
  have herror : t.error = s.error := by rw [h]
  rw [statusWord_getLsbD, statusWord_getLsbD, hbusy, hdone, herror]
  match i, hi with
  | 0, _ | 1, _ | 2, _ | _ + 4, _ => rfl

theorem State.ShowsAs.statusWord_eq (h : s.ShowsAs t) (hs : s.seq ≠ .idle) (ht : t.seq ≠ .idle)
    (hover : t.overrun = s.overrun) : t.statusWord = s.statusWord := by
  apply BitVec.eq_of_getLsbD_eq
  intro i _
  by_cases hi : i = 3
  · subst hi
    exact (statusWord_getLsbD t 3).trans (hover.trans (statusWord_getLsbD s 3).symm)
  · exact h.statusWord hs ht hi

/-- A busy block that shows what another busy block shows is read alike, but for STATUS and IRQ_EN. -/
theorem State.ShowsAs.hostRead (h : s.ShowsAs t) (hs : s.seq ≠ .idle) (ht : t.seq ≠ .idle) {off : Nat}
    (h8 : off ≠ 0x00008) (h24 : off ≠ 0x00024) : t.hostRead off = s.hostRead off := by
  have hbuf : t.bufBytes = s.bufBytes := by rw [h]
  unfold State.hostRead
  rw [hbuf]
  cases htarget : targetOf s.bufBytes off with
  | status => exact absurd (targetOf_status_inv htarget) h8
  | irqEn => exact absurd (targetOf_irqEn_inv htarget) h24
  | outBuf o => exact (if_pos (busy_iff.mpr ht)).trans (if_pos (busy_iff.mpr hs)).symm
  | err => exact congrArg (fun c => (codeByte c).setWidth 32) (by rw [h])
  | inst => exact congrArg CipherInst.view (by rw [h])
  | inBuf o => exact congrArg (Memory.readWord · o) (by rw [h])
  | keyLen | ivSize | inLen | outLen => dsimp only; rw [h]
  | id | cmd | cap | key _ | reserved => rfl

/-! ## What a single step shows -/

/-- A move that does not end the command shows nothing new. -/
theorem seqMove_movesTo (e : Event) (hbusy : (seqMove P e s).seq ≠ .idle) : s.MovesTo (seqMove P e s) :=
  (seqMove_movesTo_or_ends P e s).resolve_right fun ⟨_, hidle, _⟩ => hbusy hidle

/-- A host access to a busy block shows nothing new: DONE is 0 already, and what would be staged is dropped. -/
theorem hostAccess_showsAs (a : Access) (hs : s.seq ≠ .idle) (hdone : s.done = false) : s.ShowsAs (s.hostAccess a) := by
  apply hostAccess_cases (Q := s.ShowsAs) a s fun _ => rfl
  intro off v _ _
  apply hostWrite_cases (Q := fun t => s.ShowsAs { t with resp := some ⟨false, 0⟩ }) off v s rfl
  case hdrop | hirq => exact fun _ => rfl
  case hstatus =>
    intro _
    have hcleared : (s.done && !v.getLsbD 1) = s.done := by rw [hdone]; rfl
    simp only [State.ShowsAs, State.writeStatus, hcleared]
  case hcmd => exact fun _ h => absurd h hs
  all_goals exact fun h => absurd h hs

theorem tick_showsAs (h : s.Inv P) (hs : s.seq ≠ .idle) (hreset : ∀ rest, s.events ≠ .reset :: rest)
    (hbusy : (tick P s).seq ≠ .idle) : s.ShowsAs (tick P s) := by
  obtain ⟨hdone, -⟩ := h.quiet_of_busy hs
  revert hbusy
  apply tick_cases (Q := fun t => t.seq ≠ .idle → s.ShowsAs t) s
  case hnil => exact fun _ hb => (seqMove_movesTo .internal hb).showsAs
  case hmove =>
    intro e es _ _ _ hb
    have h := (seqMove_movesTo e hb).showsAs
    unfold State.ShowsAs at h ⊢
    exact h
  case hbus =>
    intro a es _ _
    have h := hostAccess_showsAs (s := { s with events := es }) a hs hdone
    unfold State.ShowsAs at h ⊢
    exact h
  case hreset => exact fun es he => absurd he (hreset es)

/-- A single step that is no host access nor a reset changes neither OVERRUN nor IRQ_EN. -/
theorem tick_keeps_flags (hbus : ∀ a rest, s.events ≠ .bus a :: rest) (hreset : ∀ rest, s.events ≠ .reset :: rest) :
    (tick P s).overrun = s.overrun ∧ (tick P s).irqEn = s.irqEn := by
  apply tick_cases (Q := fun t => t.overrun = s.overrun ∧ t.irqEn = s.irqEn) s
  case hnil => exact fun _ => by rw [seqMove_runsTo P .internal s]; exact ⟨rfl, rfl⟩
  case hmove => exact fun e es _ _ _ => by rw [seqMove_runsTo P e { s with events := es }]; exact ⟨rfl, rfl⟩
  case hbus => exact fun a es he => absurd he (hbus a es)
  case hreset => exact fun es he => absurd he (hreset es)

/-! ## A run of single steps -/

theorem tick_events (P : Params) (s : State) : (tick P s).events = s.events.tail := by
  cases he : s.events with
  | nil =>
    rw [tick_nil he]
    exact (congrArg State.events (seqTurn_events s s.events)).trans he
  | cons e es =>
    rw [tick_cons he, deliver_events]; rfl

/-- As long as no reset comes and the command has not ended, the host reads what it read before. -/
theorem iterate_tick_hostRead {off : Nat} (h8 : off ≠ 0x00008) (h24 : off ≠ 0x00024) (n : Nat) (h : s.Inv P)
    (hs : s.InCommand) (hreset : .reset ∉ s.events) (hbusy : ∀ k, k ≤ n → ((tick P)^[k] s).seq ≠ .idle) :
    ((tick P)^[n] s).hostRead off = s.hostRead off := by
  induction n generalizing s with
  | zero => rfl
  | succ n ih =>
    have hhead : ∀ rest, s.events ≠ .reset :: rest := fun rest he => hreset (by rw [he]; exact List.mem_cons_self)
    have hb : (tick P s).seq ≠ .idle := hbusy 1 (by omega)
    have hin : (tick P s).InCommand :=
      (tick_goesOn_or_ends hs hhead).elim (·.1) fun hend => absurd hend.1 hb
    have hreset' : .reset ∉ (tick P s).events := by
      rw [tick_events]; exact fun hmem => hreset (List.mem_of_mem_tail hmem)
    rw [Function.iterate_succ_apply, ih (tick_inv h) hin hreset' fun k hk => hbusy (k + 1) (by omega)]
    exact (tick_showsAs h hs.1 hhead hb).hostRead hs.1 hb h8 h24

/-- Settles O43: each single step shows nothing new, and so does a run of them from the acceptance on. -/
theorem commandIsObservationallyAtomic : Obligations.CommandIsObservationallyAtomic := by
  refine ⟨fun P s h hs hs' hreset hbusy => ?_, fun P s w more n h hs he hreset hbusy off _ h8 h24 => ?_⟩
  · have hshow := tick_showsAs h hs hreset hbusy
    refine ⟨fun off _ h8 h24 => hshow.hostRead hs hbusy h8 h24, fun i hi => hshow.statusWord hs hbusy hi, ?_,
      fun hbus => ?_⟩
    · exact (statusWord_getLsbD (tick P s) 0).trans (busy_iff.mpr hbusy)
    · obtain ⟨hover, hen⟩ := tick_keeps_flags (P := P) hbus hreset
      have hstatus : (tick P s).statusWord = s.statusWord := hshow.statusWord_eq hs hbusy hover
      have hdone : (tick P s).done = s.done := by rw [hshow]
      exact ⟨hstatus, congrArg bitWord hen, by rw [State.irqO, State.irqO, hdone, hen]⟩
  · have hidle := acceptanceOfACommand P s w more hs he
    have hin : (tick P s).InCommand := by rw [hidle]; exact ⟨Seq.noConfusion, Seq.noConfusion⟩
    have hmore : .reset ∉ (tick P s).events := by rw [hidle]; exact hreset
    exact iterate_tick_hostRead h8 h24 n (tick_inv h) hin hmore hbusy

end Sys2Proof.Machine
end

section
/-! The single steps of a command one by one (R42): the CHECK of each command (R130, R180, R200), and the engine's
answers (R157). -/

namespace Sys2Proof.Machine

variable {P : Params} {s : State} {rest more : List Event}

/-! ## CHECK and COMMIT command by command -/

theorem checkStep_illegal (h : s.ctx.opc = .illegal) : checkStep s = s.raise .illegalCommand := by rw [checkStep, h]

theorem checkStep_create (h : s.ctx.opc = .create) : checkStep s = checkCreate s := by rw [checkStep, h]

theorem checkStep_encrypt (h : s.ctx.opc = .encrypt) : checkStep s = checkEncrypt s := by rw [checkStep, h]

theorem checkStep_decrypt (h : s.ctx.opc = .decrypt) : checkStep s = checkDecrypt s := by rw [checkStep, h]

theorem commitStep_of_encrypt (h : s.ctx.opc = .encrypt) : commitStep s = commitEncrypt s := by rw [commitStep, h]

theorem commitStep_of_decrypt (h : s.ctx.opc = .decrypt) : commitStep s = commitDecrypt s := by rw [commitStep, h]

/-- Every other command commits with the plain completion (R227, log 16). -/
theorem commitStep_plain (h : s.ctx.opc = .illegal ∨ s.ctx.opc = .create) : commitStep s = s.completeStep := by
  rcases h with h | h <;> rw [commitStep, h]
  rfl

/-! ## A CHECK that fails -/

theorem tick_check_raises {k : ErrorKind} (hs : s.seq = .check) (hturn : s.Turn rest) (hc : checkStep s = s.raise k) :
    tick P s = { s with seq := .abort, events := rest, ctx := { s.ctx with code := some k } } := by
  rw [tick_turn hturn, seqTurn_check hs (by rw [hc]; exact Seq.noConfusion), hc]
  rfl

/-! ## CREATE (R130 to R133) -/

/-- A legal KEY_LEN selects its variant (R39). -/
theorem variantOf_keyLength (h : s.keyLen = 16 ∨ s.keyLen = 32) :
    variantOf s.keyLength = some (if s.keyLen = 16 then .v128 else .v256) := by
  rcases h with h | h <;> rw [State.keyLength, h] <;> rfl

theorem ivSizeLegal_ivLength (hlo : 12 ≤ s.ivSize.toNat) (hhi : s.ivSize.toNat ≤ 16) :
    ivSizeLegal s.ivLength = true := (ivSizeLegal_iff _).mpr ⟨hlo, hhi⟩

theorem takeKey_getElem (key : KeyBytes) (l : Nat) (i : Fin 32) :
    (takeKey key l)[i] = if i.val < l then key[i] else 0 := by
  simp [takeKey]

/-- The instance of legal staging registers, field by field (R133). -/
theorem stagedInst_fields (v : Variant) (hk : s.keyLen = 16 ∨ s.keyLen = 32) (hhi : s.ivSize.toNat ≤ 16) :
    (s.stagedInst v).valid = true ∧ (s.stagedInst v).keyLen.toNat = s.keyLen.toNat ∧
      (s.stagedInst v).ivSize.toNat = s.ivSize.toNat ∧ (s.stagedInst v).variant = v ∧
      ∀ i : Fin 32, (s.stagedInst v).key[i] = if i.val < s.keyLen.toNat then s.keyStage[i] else 0 := by
  have hlen : s.keyLen.toNat = 16 ∨ s.keyLen.toNat = 32 := hk.imp (congrArg BitVec.toNat) (congrArg BitVec.toNat)
  refine ⟨rfl, ?_, ?_, rfl, takeKey_getElem s.keyStage s.keyLen.toNat⟩
  · rw [State.stagedInst, BitVec.toNat_ofNat, State.keyLength, Nat.mod_eq_of_lt (by omega)]
  · rw [State.stagedInst, BitVec.toNat_ofNat, State.ivLength, Nat.mod_eq_of_lt (by omega)]

/-- Settles O56: one branch of CREATE's CHECK per clause, the last a turn that is a whole completion. -/
theorem checkStepOfCreateAndIllegal : Obligations.CheckStepOfCreateAndIllegal := by
  intro P s rest hs hturn
  refine ⟨fun ho => tick_check_raises hs hturn (checkStep_illegal ho), fun ho => ?_⟩
  have hcheck := checkStep_create ho
  refine ⟨fun h16 h32 => ?_, fun hk hiv => ?_, fun hk hlo hhi => ?_⟩
  · exact tick_check_raises hs hturn (hcheck.trans (checkCreate_key (variantOf_keyLength_eq_none.mpr ⟨h16, h32⟩)))
  · exact tick_check_raises hs hturn
      (hcheck.trans (checkCreate_iv (variantOf_keyLength hk) (ivSizeLegal_ivLength_eq_false.mpr hiv)))
  · have hv := variantOf_keyLength hk
    have hi := ivSizeLegal_ivLength hlo hhi
    refine ⟨_, hcheck.trans (checkCreate_ok hv hi), ?_, stagedInst_fields _ hk hhi⟩
    rw [tick_turn hturn, seqTurn_create hs ho hv hi, completeStep_eq]

/-- One turn is to come: it comes, or nothing does. -/
theorem State.Comes.turn_one (h : s.Comes [] 1 rest) : s.Turn rest := by
  obtain ⟨tail, hev, hturns⟩ := h.split
  rcases hturns.succ with ⟨tail', rfl, hlast⟩ | ⟨rfl, rfl⟩
  · exact .inl (by rw [hev, hlast.zero]; rfl)
  · exact .inr ⟨hev, rfl⟩

/-- Settles O6: legal staging registers make CREATE complete in its first turn, with the instance they describe. -/
theorem createInstallsTheStagedInstance : Obligations.CreateInstallsTheStagedInstance := by
  intro s rest hs hk hlo hhi hev
  exact ⟨_, exec_create_ok hs hev.turn_one (variantOf_keyLength hk) (ivSizeLegal_ivLength hlo hhi),
    stagedInst_fields _ hk hhi⟩

/-! ## ENCRYPT and DECRYPT (R180 to R182, R200 to R203) -/

/-- Settles O57: one branch of ENCRYPT's CHECK per clause. -/
theorem checkStepOfEncrypt : Obligations.CheckStepOfEncrypt := by
  intro P s rest hs ho hturn
  have hcheck := checkStep_encrypt ho
  refine ⟨fun hv => ?_, fun hv hl => ?_, fun hv hl => ?_⟩
  · exact tick_check_raises hs hturn (hcheck.trans (checkEncrypt_noInstance hv))
  · exact tick_check_raises hs hturn (hcheck.trans (checkEncrypt_overflow hv hl))
  · have hok := hcheck.trans (checkEncrypt_ok hv (Nat.not_lt.mpr hl))
    rw [tick_turn hturn, seqTurn_check hs (by rw [hok]; exact Seq.noConfusion), hok]
    rfl

/-- The padded IV of a ciphertext: the first `k` bytes of IN, then zeros (R150, R203). -/
theorem pad_readBytes_getElem (m : Memory) (k : Nat) (i : Fin 16) :
    (pad (Memory.readBytes m 0 k))[i] = if i.val < k then Memory.readByte m i.val else 0 := by
  have hpad : (pad (Memory.readBytes m 0 k))[i] = (Memory.readBytes m 0 k).getD i.val 0 := pad_getElem _ _ i.isLt
  rw [hpad]
  split
  case isTrue h => rw [Memory.readBytes_getD _ _ _ _ h, Nat.zero_add]
  case isFalse h => exact List.getD_eq_default _ _ (by rw [Memory.readBytes_length]; omega)

/-- Settles O58: one branch of DECRYPT's CHECK per clause; the IV is the start of IN, padded. -/
theorem checkStepOfDecrypt : Obligations.CheckStepOfDecrypt := by
  intro P s rest hs ho hturn
  have hcheck := checkStep_decrypt ho
  refine ⟨fun hv => ?_, fun hv hl => ?_, fun hv hl hl' => ?_, fun hv hl hl' => ?_⟩
  · exact tick_check_raises hs hturn (hcheck.trans (checkDecrypt_noInstance hv))
  · exact tick_check_raises hs hturn (hcheck.trans (checkDecrypt_overflow hv hl))
  · exact tick_check_raises hs hturn (hcheck.trans (checkDecrypt_short hv (Nat.not_lt.mpr hl) hl'))
  · have hok := hcheck.trans (checkDecrypt_ok hv (Nat.not_lt.mpr hl) (Nat.not_lt.mpr hl'))
    refine ⟨pad (Memory.readBytes s.inBuf 0 s.inst.ivBytes), ?_, fun i => ?_⟩
    · rw [tick_turn hturn, seqTurn_check hs (by rw [hok]; exact Seq.noConfusion), hok]
      rfl
    · exact pad_readBytes_getElem s.inBuf s.inst.ivBytes i

/-! ## The engine's answers (R157) -/

theorem tick_init {a : EngAnswer} (hs : s.seq = .initWait) (he : s.events = .eng a :: more) :
    tick P s = { s.answerInit a with events := more } := by
  rw [tick_cons he, deliver_events]
  exact congrArg (fun t : State => { t with events := more }) (seqMove_init hs)

theorem tick_block {a : EngAnswer} (hs : s.seq = .blkWait) (he : s.events = .eng a :: more) :
    tick P s = { s.answerBlock P a with events := more } := by
  rw [tick_cons he, deliver_events]
  exact congrArg (fun t : State => { t with events := more }) (seqMove_block hs)

/-- Settles O24: the answers of `State.answerInit` and `State.answerBlock`, OUT after a block as `readByte_takeBlock`
says. -/
theorem engineAnswersDriveTheStream : Obligations.EngineAnswersDriveTheStream := by
  intro P s a more he
  refine ⟨fun hs => ?_, fun hs hfail => ?_, fun hs hok hwf => ?_⟩
  · rw [tick_init hs he]
    cases a with
    | fail => rfl
    | ok =>
      rw [if_neg (by decide)]
      by_cases hn : s.ctx.n = 0
      · rw [answerInit_empty hn, if_pos hn]
      · rw [answerInit_first hn, if_neg hn]; rfl
  · subst hfail
    rw [tick_block hs he]; rfl
  · subst hok
    refine ⟨(s.takeBlock P (P.bc s.inst.variant s.inst.keyBytes s.ctx.ctr)).outBuf, ?_, readByte_takeBlock P _ s hwf⟩
    rw [tick_block hs he, answerBlock_ok]
    by_cases hj : s.ctx.j + 1 < s.ctx.nblk
    · rw [nextBlock_more (by exact hj), if_pos hj, if_pos hj, ← hs]; rfl
    · rw [nextBlock_last (by exact hj), if_neg hj, if_neg hj, List.append_nil]; rfl

end Sys2Proof.Machine
end

section
/-! A failing engine (R157, R185, R205): the run of an ENCRYPT or a DECRYPT to the failing answer, and the failure
completion after it. -/

namespace Sys2Proof.Machine

variable {P : Params} {s t : State} {o : Opc} {n src dst m : Nat} {iv : List Byte} {b : Block}
  {msgs more : List PortMsg} {rest tail : List Event} {k : ErrorKind}

/-- The failure completion of a stream that began at `s` (R226). -/
theorem drive_fail_completes (ho : o ≠ .create) (hto : (s.streamStart o n src dst iv msgs).StreamedTo t more)
    (hen : enabled t.seq (.eng .fail) = true) (hmove : seqMove P (.eng .fail) t = t.raise k)
    (htail : Turns 1 rest tail) :
    drive P (.eng .fail :: tail) t = s.completed (some k) s.inst [] 0 (msgs ++ more ++ [.engRelease]) rest := by
  have hdone : (t.raise k).abortStep = s.completed (some k) s.inst [] 0 (msgs ++ more ++ [.engRelease]) s.events := by
    rw [abortStep_eq, hto]
    simp [State.raise, State.completed, State.streamStart, ho]
  rw [drive_enabled _ hen, hmove, drive_turn (.inr (.inr rfl)) ((seqTurn_abort rfl).trans hdone) rfl htail]
  rfl

/-- A stream whose `eng_init` fails ends with CipherInitFailure. -/
theorem drive_init_fails (ho : o ≠ .create) (htail : Turns 1 rest tail) :
    drive P (.eng .fail :: tail) (s.streamStart o n src dst iv msgs) =
      s.completed (some .cipherInitFailure) s.inst [] 0 (msgs ++ [.engRelease]) rest := by
  have hto : (s.streamStart o n src dst iv msgs).StreamedTo (s.streamStart o n src dst iv msgs) [] := by
    rw [State.StreamedTo, List.append_nil]
  have h := drive_fail_completes (P := P) ho hto rfl (seqMove_init rfl) htail
  rwa [List.append_nil] at h

/-- A stream whose block request `m` fails ends with the failure of its command, having asked for blocks 0 to `m`. -/
theorem drive_block_fails (ho : o ≠ .create) (h : (s.streamStart o n src dst iv msgs).Streamed P)
    (hiv : (s.streamStart o n src dst iv msgs).iv = iv) (hn : dst + n ≤ s.bufBytes) (hm : m < blocks n)
    (htail : Turns 1 rest tail) :
    drive P (.eng .ok :: (List.replicate m (.eng .ok) ++ .eng .fail :: tail)) (s.streamStart o n src dst iv msgs) =
      s.completed (some (streamFailure o)) s.inst [] 0
        (msgs ++ ((List.range (m + 1)).map fun j => .engBlock (counterBlock P (pad iv) j)) ++ [.engRelease]) rest := by
  obtain ⟨t, hd, -, -, -, hseq, hto⟩ :=
    drive_stream (s := s.streamStart o n src dst iv msgs) m rfl h (Memory.fits_nil _) hn rfl hm.le
  have hnblk : (s.streamStart o n src dst iv msgs).ctx.nblk = blocks n := rfl
  have hmin : min (m + 1) (blocks n) = m + 1 := Nat.min_eq_left hm
  rw [hnblk, hmin, hiv] at hto
  rw [hnblk, if_pos hm] at hseq
  have hopc : t.ctx.opc = o := by rw [hto]; rfl
  rw [hd]
  refine drive_fail_completes ho hto (by rw [hseq]; rfl) ?_ htail
  rw [seqMove_block hseq, answerBlock_fail, hopc]

/-- Settles O13: the run of an ENCRYPT to the failing answer, its stream begun by the draw. -/
theorem encryptEngineFailures : Obligations.EncryptEngineFailures := by
  refine ⟨rfl, rfl, fun s b rest hs hok hv hl => ?_⟩
  have h16 := (hok.bounds hv).2
  have hfit : s.inst.ivBytes + s.msgLength ≤ s.bufBytes := (Nat.add_comm ..).trans_le hl
  refine ⟨fun hev => ?_, fun m hm hev => ?_⟩
  · obtain ⟨tail, hev, htail⟩ := hev.split
    rw [exec_eq_issue, Opc.ofInstr, issue_idle hs, hev]
    exact congrArg Host.Outcome.next ((drive_encryptStart hv hl _).trans (drive_init_fails (by decide) htail))
  · obtain ⟨tail, hev, htail⟩ := hev.split
    rw [exec_eq_issue, Opc.ofInstr, issue_idle hs, hev, encryptOks]
    simp only [List.append_assoc, List.cons_append, List.nil_append]
    exact congrArg Host.Outcome.next ((drive_encryptStart hv hl _).trans
      (drive_block_fails (by decide) (encryptStart_streamed hv h16 hl) (encryptStart_iv h16) hfit hm htail))

/-- Settles O19: the run of a DECRYPT to the failing answer, its stream begun by CHECK. -/
theorem decryptEngineFailures : Obligations.DecryptEngineFailures := by
  refine ⟨rfl, rfl, fun s rest hs hok hv hl' hl => ?_⟩
  have h16 := (hok.bounds hv).2
  have hfit : 0 + (s.msgLength - s.inst.ivBytes) ≤ s.bufBytes :=
    (Nat.zero_add _).trans_le ((Nat.sub_le ..).trans hl)
  refine ⟨fun hev => ?_, fun m hm hev => ?_⟩
  · obtain ⟨tail, hev, htail⟩ := hev.split
    rw [exec_eq_issue, Opc.ofInstr, issue_idle hs, hev]
    exact congrArg Host.Outcome.next ((drive_decryptStart hv hl hl' _).trans (drive_init_fails (by decide) htail))
  · obtain ⟨tail, hev, htail⟩ := hev.split
    rw [exec_eq_issue, Opc.ofInstr, issue_idle hs, hev, decryptOks]
    simp only [List.append_assoc, List.cons_append, List.nil_append]
    exact congrArg Host.Outcome.next ((drive_decryptStart hv hl hl' _).trans
      (drive_block_fails (by decide) (decryptStart_streamed hv h16 hl hl') (decryptStart_iv h16) hfit hm htail))

end Sys2Proof.Machine
end

section
/-! The default counter increment on bytes (R152, D20): plus one modulo 2^128 on the big-endian block, and how far the
carry reaches into the IV. -/

namespace Sys2Proof.Machine

/-! ## Plus one modulo 2^128 -/

theorem be128_ctrInc (c : Block) : be128 (Config.machine.ctrInc c) = (be128 c + 1) % 2 ^ 128 :=
  (be128_blk128 _).trans (Nat.mod_mod _ _)

theorem be128_counterBlock (c : Block) (j : Nat) :
    be128 (counterBlock Config.machine c j) = (be128 c + j) % 2 ^ 128 := by
  induction j with
  | zero => exact (Nat.mod_eq_of_lt (be128_lt c)).symm
  | succ j ih => rw [counterBlock, be128_ctrInc, ih, Nat.mod_add_mod, Nat.add_assoc]

/-- Settles O21: a block is the digits of its value, and the increment is defined on values. -/
theorem counterIncrementIsPlusOne : Obligations.CounterIncrementIsPlusOne :=
  ⟨fun n hn => (be128_blk128 n).trans (Nat.mod_eq_of_lt hn), blk128_be128, be128_ctrInc, be128_counterBlock⟩

/-! ## The carry (R153) -/

theorem blk128_getD (n : Nat) {i : Nat} (hi : i < 16) :
    (blk128 n).toList.getD i 0 = BitVec.ofNat 8 (n / 256 ^ (15 - i)) := by
  rw [List.getD_eq_getElem _ _ (by simpa using hi), Vector.getElem_toList]
  simp [blk128]

/-- The digits of a block do not see the wrap. -/
theorem ofNat_mod_div (x : Nat) {i : Nat} (hi : i < 16) :
    BitVec.ofNat 8 (x % 2 ^ 128 / 256 ^ (15 - i)) = BitVec.ofNat 8 (x / 256 ^ (15 - i)) := by
  have hsplit : (2 : Nat) ^ 128 = 256 ^ (15 - i) * 256 ^ (i + 1) := by
    rw [← pow_add, show 15 - i + (i + 1) = 16 by omega]; norm_num
  apply BitVec.eq_of_toNat_eq
  rw [BitVec.toNat_ofNat, BitVec.toNat_ofNat, hsplit, Nat.mod_mul_right_div_self]
  exact Nat.mod_mod_of_dvd _ (Dvd.intro_left (256 ^ i) (pow_succ 256 i).symm)

/-- Byte `i` of the counter block C_j is a digit of the first block's value plus `j`. -/
theorem counterBlock_getD (c : Block) (j : Nat) {i : Nat} (hi : i < 16) :
    (counterBlock Config.machine c j).toList.getD i 0 = BitVec.ofNat 8 ((be128 c + j) / 256 ^ (15 - i)) := by
  rw [← blk128_be128 (counterBlock Config.machine c j), blk128_getD _ hi, be128_counterBlock, ofNat_mod_div _ hi]

theorem beNat_append_zeros (l : List Byte) (k : Nat) : beNat (l ++ List.replicate k 0) = beNat l * 256 ^ k := by
  induction k with
  | zero => simp
  | succ k ih =>
    rw [List.replicate_succ', ← List.append_assoc, beNat_append, ih, pow_succ, Nat.mul_assoc]
    rfl

theorem pad_toList (iv : List Byte) (h : iv.length ≤ 16) :
    (pad iv).toList = iv ++ List.replicate (16 - iv.length) 0 := by
  apply List.ext_getElem
  · simp; omega
  · intro i h1 h2
    rw [Vector.getElem_toList, pad_getElem _ _ (by simpa using h1)]
    by_cases hi : i < iv.length
    · rw [List.getElem_append_left hi, List.getD_eq_getElem _ _ hi]
    · rw [List.getElem_append_right (by omega), List.getElem_replicate, List.getD_eq_default _ _ (by omega)]

/-- The IV is the high digits of the first counter block. -/
theorem be128_pad (iv : List Byte) (h : iv.length ≤ 16) : be128 (pad iv) = beNat iv * 256 ^ (16 - iv.length) := by
  rw [be128_eq, pad_toList iv h, beNat_append_zeros]

/-- Above the last `16 - |iv|` bytes the counter block C_j is the digits of the IV plus what has carried into it. -/
theorem counterBlock_pad_getD (iv : List Byte) (h : iv.length ≤ 16) (j : Nat) {i : Nat} (hi : i < iv.length) :
    (counterBlock Config.machine (pad iv) j).toList.getD i 0 =
      BitVec.ofNat 8 ((beNat iv + j / 256 ^ (16 - iv.length)) / 256 ^ (iv.length - 1 - i)) := by
  rw [counterBlock_getD _ _ (by omega), be128_pad iv h,
    show 15 - i = 16 - iv.length + (iv.length - 1 - i) by omega, pow_add, ← Nat.div_div_eq_div_mul, Nat.add_comm,
    Nat.add_mul_div_right _ _ (by positivity), Nat.add_comm]

theorem beNat_getD (iv : List Byte) {i : Nat} (hi : i < iv.length) :
    BitVec.ofNat 8 (beNat iv / 256 ^ (iv.length - 1 - i)) = iv.getD i 0 := by
  apply BitVec.eq_of_toNat_eq
  rw [BitVec.toNat_ofNat, List.getD_eq_getElem _ _ hi]
  exact beNat_digit iv i hi

/-- The counter stays out of an IV as long as it fits the bytes beside it. -/
theorem counterBlock_keeps_iv (iv : List Byte) (h : iv.length ≤ 16) {j i : Nat} (hj : j < 256 ^ (16 - iv.length))
    (hi : i < iv.length) : (counterBlock Config.machine (pad iv) j).toList.getD i 0 = iv.getD i 0 := by
  rw [counterBlock_pad_getD iv h j hi, Nat.div_eq_of_lt hj, Nat.add_zero, beNat_getD iv hi]

/-- Settles O22: an IV of `n` bytes sees the counter from C_j with j = 256^(16 - n) on, and then as plus one. -/
theorem counterCarriesIntoTheIv : Obligations.CounterCarriesIntoTheIv := by
  refine ⟨fun iv j h14 hj i hi => ?_, fun iv j h15 hj i hi => ?_, fun iv h15 _ => ?_, by decide⟩
  · have hroom : 256 ^ 2 ≤ 256 ^ (16 - iv.length) := Nat.pow_le_pow_right (by decide) (by omega)
    exact counterBlock_keeps_iv iv (by omega) (hj.trans_le hroom) hi
  · exact counterBlock_keeps_iv iv (by omega) (by rw [h15]; exact hj) (by omega)
  · rw [counterBlock_pad_getD iv (by omega) 256 (by omega), ← beNat_getD iv (by omega), h15]
    rw [show 256 / 256 ^ (16 - 15) = 1 by norm_num, show 256 ^ (15 - 1 - 14) = 1 by norm_num, Nat.div_one, Nat.div_one]
    exact BitVec.ofNat_add _ _

end Sys2Proof.Machine
end

section
/-! How many inputs a command takes (R273): each move of the sequencer's own lowers a bound on the moves left. -/

namespace Sys2Proof.Machine

variable {P : Params} {s t : State} {o : Opc}

/-- The answers of the engine to block requests and the turns after them, when block `j` of `nblk` is asked for. -/
def blocksLeft (nblk j : Nat) : Nat := max 1 (nblk - j) + 2

/-- The inputs of its own that the engine's answer to `eng_init` and what comes after it may take: no block is asked for
when N = 0 (R157). -/
def streamLeft (n nblk j : Nat) : Nat := if n = 0 then 3 else blocksLeft nblk j + 1

/-- The most inputs of its own that the command under way still takes; each way ends in COMMIT and ABORT at worst. -/
def State.movesLeft (s : State) : Nat :=
  match s.seq with
  | .rstClr => 1
  | .idle => 0
  | .check =>
    match s.ctx.opc with
    | .illegal => 2
    | .create => 2
    | .encrypt => blocks s.msgLength + 5
    | .decrypt => blocks (s.msgLength - s.inst.ivBytes) + 5
  | .rngWait => streamLeft s.ctx.n s.ctx.nblk s.ctx.j + 1
  | .initWait => streamLeft s.ctx.n s.ctx.nblk s.ctx.j
  | .blkWait => blocksLeft s.ctx.nblk s.ctx.j
  | .commit => 2
  | .abort => 1

theorem movesLeft_idle (h : s.seq = .idle) : s.movesLeft = 0 := by rw [State.movesLeft, h]

theorem movesLeft_check_ge (h : s.seq = .check) : 2 ≤ s.movesLeft := by
  rw [State.movesLeft, h]
  cases s.ctx.opc <;> dsimp only <;> omega

theorem movesLeft_completeStep : s.completeStep.movesLeft = 0 := movesLeft_idle (State.completeStep_seq s)

/-- A stream of `n` bytes from its start takes its blocks and three moves more. -/
theorem streamLeft_blocks (n : Nat) : streamLeft n (blocks n) 0 ≤ blocks n + 3 := by
  simp only [streamLeft, blocksLeft, blocks]
  split <;> omega

theorem checkTurn_movesLeft (hs : s.seq = .check) : (seqTurn s).movesLeft < s.movesLeft := by
  have hge := movesLeft_check_ge hs
  apply checkTurn_cases (Q := fun t => t.movesLeft < s.movesLeft) s hs
  case hraise => exact fun _ => hge
  case hcreate => intros; rw [movesLeft_completeStep]; omega
  case hencrypt =>
    intro ho hv hl
    have hstream := streamLeft_blocks s.msgLength
    have hleft : s.movesLeft = blocks s.msgLength + 5 := by rw [State.movesLeft, hs, ho]
    rw [checkEncrypt_ok hv (Nat.not_lt.mpr hl), hleft]
    exact (show streamLeft s.msgLength (blocks s.msgLength) 0 + 1 < blocks s.msgLength + 5 by omega)
  case hdecrypt =>
    intro ho hv hl hl'
    have hstream := streamLeft_blocks (s.msgLength - s.inst.ivBytes)
    have hleft : s.movesLeft = blocks (s.msgLength - s.inst.ivBytes) + 5 := by rw [State.movesLeft, hs, ho]
    rw [checkDecrypt_ok hv (Nat.not_lt.mpr hl) (Nat.not_lt.mpr hl'), hleft]
    exact (show streamLeft (s.msgLength - s.inst.ivBytes) (blocks (s.msgLength - s.inst.ivBytes)) 0 <
      blocks (s.msgLength - s.inst.ivBytes) + 5 by omega)

theorem commitStep_movesLeft (s : State) : (commitStep s).movesLeft < 2 := by
  apply commitStep_cases (Q := fun t => t.movesLeft < 2) s
  case hraise => exact fun _ _ _ => Nat.lt_succ_self 1
  all_goals intros; rw [movesLeft_completeStep]; omega

theorem answerInit_movesLeft (hs : s.seq = .initWait) (a : EngAnswer) : (s.answerInit a).movesLeft < s.movesLeft := by
  have hleft : s.movesLeft = streamLeft s.ctx.n s.ctx.nblk s.ctx.j := by rw [State.movesLeft, hs]
  have hge : 3 ≤ streamLeft s.ctx.n s.ctx.nblk s.ctx.j := by
    simp only [streamLeft, blocksLeft]; split <;> omega
  rw [hleft]
  apply answerInit_cases (Q := fun t => t.movesLeft < _) s a
  case hfail => exact fun _ => (show 1 < _ by omega)
  case hempty => exact fun _ _ => (show 2 < _ by omega)
  case hfirst =>
    intro _ hn
    rw [streamLeft, if_neg hn]
    exact Nat.lt_succ_self (blocksLeft s.ctx.nblk s.ctx.j)

theorem answerBlock_movesLeft (hs : s.seq = .blkWait) (a : EngAnswer) :
    (s.answerBlock P a).movesLeft < s.movesLeft := by
  have hleft : s.movesLeft = blocksLeft s.ctx.nblk s.ctx.j := by rw [State.movesLeft, hs]
  have hge : 3 ≤ blocksLeft s.ctx.nblk s.ctx.j := by simp only [blocksLeft]; omega
  rw [hleft]
  apply answerBlock_cases (Q := fun t => t.movesLeft < _) s a
  case hfail => exact fun _ => (show 1 < _ by omega)
  case hlast => exact fun _ _ => (show 2 < _ by omega)
  case hmore =>
    intro _ hj
    have hnext : ((s.takeBlock P (P.bc s.inst.variant s.inst.keyBytes s.ctx.ctr)).send
        (.engBlock (P.ctrInc s.ctx.ctr))).movesLeft = blocksLeft s.ctx.nblk (s.ctx.j + 1) := by
      rw [State.movesLeft, State.send_seq, State.takeBlock_seq, hs]; rfl
    rw [hnext]
    simp only [blocksLeft]
    omega

/-- A move that is enabled lowers the bound. -/
theorem seqMove_movesLeft {e : Event} (hen : enabled s.seq e = true) : (seqMove P e s).movesLeft < s.movesLeft := by
  rcases enabled_cases hen with ⟨rfl, hs | hs | hs | hs⟩ | ⟨b, rfl, hs⟩ | ⟨a, rfl, hs | hs⟩
  · rw [seqMove_internal, seqTurn_rstClr hs, State.movesLeft, State.movesLeft, hs]
    exact Nat.zero_lt_one
  · exact checkTurn_movesLeft hs
  · have hleft : s.movesLeft = 2 := by rw [State.movesLeft, hs]
    rw [seqMove_internal, seqTurn_commit hs, hleft]
    exact commitStep_movesLeft s
  · rw [seqMove_internal, seqTurn_abort hs, movesLeft_idle rfl, State.movesLeft, hs]
    exact Nat.zero_lt_one
  · have hleft : s.movesLeft = streamLeft s.ctx.n s.ctx.nblk s.ctx.j + 1 := by rw [State.movesLeft, hs]
    rw [seqMove_rng hs, hleft, State.movesLeft, State.answerRng_seq, State.answerRng_ctx]
    exact Nat.lt_succ_self _
  · rw [seqMove_init hs]; exact answerInit_movesLeft hs a
  · rw [seqMove_block hs]; exact answerBlock_movesLeft hs a

/-! ## Where a run stops -/

/-- IDLE and the three waits, the phases with no internal step (R42, R242). -/
def Seq.Rests (q : Seq) : Prop := q = .idle ∨ q = .rngWait ∨ q = .initWait ∨ q = .blkWait

theorem seqTurn_of_rests (h : s.seq.Rests) : seqTurn s = s := h.elim seqTurn_idle seqTurn_wait

/-- A turn leads to ABORT or to rest: CHECK and COMMIT follow each other in a CREATE only, within its one turn. -/
theorem seqTurn_abort_or_rests (s : State) : (seqTurn s).seq = .abort ∨ (seqTurn s).seq.Rests := by
  rcases Seq.eq_cases s.seq with hs | hs | hs | hs | hs | hs
  · rw [seqTurn_rstClr hs]; exact .inr (.inl rfl)
  · rw [seqTurn_idle hs]; exact .inr (.inl hs)
  · apply checkTurn_cases (Q := fun t => t.seq = .abort ∨ t.seq.Rests) s hs
    case hraise => exact fun _ => .inl rfl
    case hcreate => exact fun _ _ _ _ => .inr (.inl (State.completeStep_seq _))
    case hencrypt => intro _ hv hl; rw [checkEncrypt_ok hv (Nat.not_lt.mpr hl)]; exact .inr (.inr (.inl rfl))
    case hdecrypt =>
      intro _ hv hl hl'
      rw [checkDecrypt_ok hv (Nat.not_lt.mpr hl) (Nat.not_lt.mpr hl')]; exact .inr (.inr (.inr (.inl rfl)))
  · rw [seqTurn_commit hs]
    apply commitStep_cases (Q := fun t => t.seq = .abort ∨ t.seq.Rests) s
    case hraise => exact fun _ _ _ => .inl rfl
    all_goals intros; exact .inr (.inl (State.completeStep_seq _))
  · rw [seqTurn_abort hs]; exact .inr (.inl rfl)
  · rw [seqTurn_wait hs]; exact .inr (.inr hs)

theorem seqTurn_twice_rests (s : State) : (seqTurn (seqTurn s)).seq.Rests := by
  rcases seqTurn_abort_or_rests s with h | h
  · rw [seqTurn_abort h]; exact .inl rfl
  · rwa [seqTurn_of_rests h]

/-- With nothing to come a run ends at rest. -/
theorem drive_nil_rests (P : Params) (s : State) : (drive P [] s).seq.Rests := by
  have h := seqTurn_twice_rests s
  rw [drive_nil, seqTurn_of_rests h]
  exact h

/-- An input of the sequencer's own: its turn or a port's answer (R42). -/
def Event.Own (e : Event) : Prop := e = .internal ∨ (∃ b, e = .rng b) ∨ ∃ a, e = .eng a

theorem own_of_enabled {q : Seq} {e : Event} (h : enabled q e = true) : e.Own :=
  (enabled_cases h).imp And.left (Or.imp (fun ⟨b, hb, _⟩ => ⟨b, hb⟩) fun ⟨a, ha, _⟩ => ⟨a, ha⟩)

/-- The run that leaves `t` stopped for a reason: the command has ended, or the next input does not move it, or none is
to come and it waits for a port. -/
def State.Stopped (t : State) : Prop :=
  t.seq ≠ .idle → (∀ e more, t.events = e :: more → enabled t.seq e = false) ∧
    (t.events = [] → t.seq = .rngWait ∨ t.seq = .initWait ∨ t.seq = .blkWait)

/-- A run takes a bounded number of inputs, all its own, from the front of those to come. -/
theorem drive_takes (es : List Event) (s : State) : ∃ used, es = used ++ (drive P es s).events ∧
    used.length ≤ s.movesLeft ∧ (∀ e ∈ used, e.Own) ∧ (drive P es s).Stopped := by
  induction es generalizing s with
  | nil =>
    refine ⟨[], rfl, Nat.zero_le _, by simp, fun hbusy => ⟨fun e more he => ?_, fun _ => ?_⟩⟩
    · exact absurd he (by simp [drive_nil])
    · exact (drive_nil_rests P s).resolve_left hbusy
  | cons e es ih =>
    cases hen : enabled s.seq e with
    | false =>
      rw [drive_stop es hen]
      refine ⟨[], rfl, Nat.zero_le _, by simp, fun _ => ⟨?_, fun h => absurd h (by simp)⟩⟩
      intro e' more he
      rw [← (List.cons.inj he).1]
      exact hen
    | true =>
      obtain ⟨used, hsplit, hlen, hown, hstop⟩ := ih (seqMove P e s)
      have hdec := seqMove_movesLeft (P := P) hen
      rw [drive_enabled es hen]
      refine ⟨e :: used, congrArg (e :: ·) hsplit, by rw [List.length_cons]; omega, ?_, hstop⟩
      exact List.forall_mem_cons.mpr ⟨own_of_enabled hen, hown⟩

/-- Settles O48: the bound on the moves left at acceptance, each move taking one input. -/
theorem commandTakesBoundedSteps : Obligations.CommandTakesBoundedSteps := by
  intro i s t hs h
  rw [exec_eq_issue] at h
  cases h
  rw [issue_idle hs]
  obtain ⟨used, hsplit, hlen, hown, hstop⟩ := drive_takes (P := Config.machine) s.events (s.accept (.ofInstr i))
  refine ⟨used, hsplit, hlen.trans ?_, hown, hstop⟩
  cases i with
  | create => exact (show 2 ≤ 0 + 5 by omega)
  | encrypt | decrypt => exact Nat.le_refl _

end Sys2Proof.Machine
end

section
/-! What a command puts into OUT, whatever events come (R159, R160, R226): only bytes of its result. -/

namespace Sys2Proof.Machine

variable {P : Params} {s t : State} {o : Opc}

/-- The length of the result of the command under way (R184, R204). -/
def State.resultLen (s : State) : Nat :=
  match s.ctx.opc with
  | .illegal => 0
  | .create => 0
  | .encrypt => s.inst.ivBytes + s.msgLength
  | .decrypt => s.msgLength - s.inst.ivBytes

/-- Nothing of OUT at `t` lies beyond the result of the command under way at `s`. -/
def State.StoresWithin (s t : State) : Prop := ∀ a, s.resultLen ≤ a → Memory.readByte t.outBuf a = 0

/-- The body of the running stream ends where the result ends. -/
theorem State.Planned.body_end (h : s.Planned) : s.ctx.dst + s.ctx.n = s.resultLen := by
  rcases h.opc_cases with ho | ho
  · obtain ⟨-, -, -, hn, -, hdst, -⟩ := (planned_encrypt_iff ho).mp h
    rw [hn, hdst, State.resultLen, ho]
  · obtain ⟨-, -, -, hn, -, hdst, -⟩ := (planned_decrypt_iff ho).mp h
    rw [hn, hdst, State.resultLen, ho, Nat.zero_add]

/-! ## The moves that store -/

theorem takeBlock_storesWithin (h : s.Inv P) (hp : s.Planned) (k : Block) (ho : s.StoresWithin s) :
    s.StoresWithin (s.takeBlock P k) := by
  have hend := hp.body_end
  intro a ha
  rw [readByte_takeBlock P k s h.outFits.1, if_neg (by simp only [liveLanes]; omega), ho a ha]

theorem encryptOut_storesWithin (h : s.Inv P) (hopc : s.ctx.opc = .encrypt) (ho : s.StoresWithin s) (a : Nat)
    (ha : s.resultLen ≤ a) : Memory.readByte s.encryptOut a = 0 := by
  have hiv : ¬ a < min 16 s.inst.ivBytes := by
    rw [State.resultLen, hopc] at ha
    dsimp only at ha
    omega
  rw [readByte_encryptOut h.outFits.1, if_neg hiv, ho a ha]

theorem commitStep_storesWithin (h : s.Inv P) (ho : s.StoresWithin s) : s.StoresWithin (commitStep s) := by
  have hcomplete {u : State} (hu : s.StoresWithin u) : s.StoresWithin u.completeStep := fun a ha => by
    rw [State.completeStep_outBuf]; exact hu a ha
  apply commitStep_cases (Q := s.StoresWithin) s
  case hraise => exact fun _ _ _ => ho
  case hplain => exact fun _ => hcomplete ho
  case hencrypt => exact fun hopc _ => hcomplete (encryptOut_storesWithin h hopc ho)
  case hdecrypt => exact fun _ _ => hcomplete ho

/-- No move stores beyond the result. -/
theorem seqMove_storesWithin (h : s.Inv P) (e : Event) (ho : s.StoresWithin s) :
    s.StoresWithin (seqMove P e s) := by
  apply seqMove_cases (Q := s.StoresWithin) e s ho
  case hrst => exact fun _ _ => ho
  case hcheck =>
    intro hs _
    apply checkTurn_cases (Q := s.StoresWithin) s hs
    case hraise => exact fun _ => ho
    case hcreate => intro _ v _ _ a ha; rw [State.completeStep_outBuf]; exact ho a ha
    case hencrypt => intro _ hv hl; rw [checkEncrypt_ok hv (Nat.not_lt.mpr hl)]; exact ho
    case hdecrypt => intro _ hv hl hl'; rw [checkDecrypt_ok hv (Nat.not_lt.mpr hl) (Nat.not_lt.mpr hl')]; exact ho
  case hcommit => exact fun _ _ => commitStep_storesWithin h ho
  case habort => intro _ _ a _; rw [State.abortStep_outBuf]; rfl
  case hrng => intro _ b _ a ha; rw [State.answerRng_outBuf]; exact ho a ha
  case hinit =>
    exact fun _ a _ => answerInit_cases (Q := s.StoresWithin) s a (fun _ => ho) (fun _ _ => ho) (fun _ _ => ho)
  case hblock =>
    intro hs a _
    obtain ⟨-, hst, -⟩ := h.at_blkWait hs
    have hblock := takeBlock_storesWithin h hst.1 (P.bc s.inst.variant s.inst.keyBytes s.ctx.ctr) ho
    exact answerBlock_cases (Q := s.StoresWithin) s a (fun _ => ho) (fun _ _ => hblock) (fun _ _ => hblock)

/-! ## The run -/

/-- A move that goes on with the command leaves the length of its result. -/
theorem seqMove_resultLen (e : Event) (h : s.GoesOn (seqMove P e s)) : (seqMove P e s).resultLen = s.resultLen := by
  have hlen : (seqMove P e s).msgLength = s.msgLength := congrArg BitVec.toNat (seqMove_operands P e s).2
  by_cases ho : s.ctx.opc = .create
  · rw [State.resultLen, State.resultLen, h.2, ho]
  · have hinst : (seqMove P e s).inst = s.inst := seqMove_inst fun hc => ho hc.2.1
    rw [State.resultLen, State.resultLen, h.2, hlen, hinst]

/-- `t` is on the way of the command accepted at `s`, or in IDLE past it, and OUT ends where its result ends. -/
def State.Bounded (P : Params) (s t : State) : Prop :=
  t.Inv P ∧ s.StoresWithin t ∧ (t.seq = .idle ∨ (t.InCommand ∧ t.resultLen = s.resultLen))

theorem State.Bounded.move (h : s.Bounded P t) (e : Event) : s.Bounded P (seqMove P e t) := by
  obtain ⟨hinv, hout, hidle | ⟨hin, hlen⟩⟩ := id h
  · rwa [seqMove_of_idle hidle]
  · have hown : t.StoresWithin t := fun a ha => hout a (hlen ▸ ha)
    refine ⟨seqMove_inv e hinv, fun a ha => seqMove_storesWithin hinv e hown a (hlen.trans_le ha), ?_⟩
    rcases seqMove_goesOn_or_ends (P := P) e hin with hgo | hend
    · exact .inr ⟨hgo.1, (seqMove_resultLen e hgo).trans hlen⟩
    · exact .inl hend.1

theorem issue_storesWithin (h : s.Inv P) (hs : s.seq = .idle) (o : Opc) : (s.accept o).StoresWithin (issue P o s) := by
  have hrun : (s.accept o).Bounded P (issue P o s) := by
    rw [issue_idle hs]
    exact drive_keeps (Q := (s.accept o).Bounded P) (fun t es h => ⟨h.1.withEvents es, h.2⟩) (fun e _ h => h.move e)
      s.events _ ⟨accept_inv h o, fun _ _ => rfl, .inr ⟨⟨Seq.noConfusion, Seq.noConfusion⟩, rfl⟩⟩
  exact hrun.2.1

/-- Settles O46: no move on the way of a command stores beyond its result, and acceptance has zeroized OUT. -/
theorem outputFrame : Obligations.OutputFrame := by
  intro i s t h hs ht a ha
  rw [exec_eq_issue] at ht
  cases ht
  refine issue_storesWithin h hs (.ofInstr i) a ?_
  cases i with
  | create => exact Nat.zero_le a
  | encrypt | decrypt => exact ha

end Sys2Proof.Machine
end

section
/-! The port messages of a whole command (R80, R81, R82): those of one stream in their order, then one release. -/

namespace Sys2Proof.Machine

variable {P : Params} {s t u : State} {i : Instr}

/-- The requests of a command that has issued `eng_init` and `k` block requests (R81, R82). -/
def requests (P : Params) (o : Opc) (c : CipherInst) (iv : List Byte) (k : Nat) : List PortMsg :=
  (if o = .encrypt then [PortMsg.rng c.ivBytes] else []) ++ [PortMsg.engInit c.variant c.keyBytes] ++
    (List.range k).map fun j => PortMsg.engBlock (counterBlock P (pad iv) j)

theorem requests_succ (P : Params) (o : Opc) (c : CipherInst) (iv : List Byte) (k : Nat) :
    requests P o c iv (k + 1) = requests P o c iv k ++ [PortMsg.engBlock (counterBlock P (pad iv) k)] := by
  simp [requests, List.range_succ]

/-- With the release after them the requests are the traffic of a command (R80). -/
theorem requests_traffic {c : CipherInst} {iv : List Byte} {k nblk : Nat} (hi : i ≠ .create)
    (hiv : iv.length = c.ivBytes) (hk : k ≤ nblk) :
    CommandTraffic P i c nblk (requests P (.ofInstr i) c iv k ++ [PortMsg.engRelease]) := by
  refine .inr ⟨iv, k, hiv, hk, ?_⟩
  cases i with
  | create => exact absurd rfl hi
  | encrypt => exact .inl ⟨rfl, rfl⟩
  | decrypt => exact .inr ⟨rfl, rfl⟩

/-- The messages sent since `s` are the requests of the stream that runs at `t`, `k` of them for blocks. -/
def State.Requested (P : Params) (s t : State) (k : Nat) : Prop :=
  t.portLog = s.portLog ++ requests P t.ctx.opc t.inst t.iv k

/-- What a command accepted at `s` has sent, phase by phase. -/
def State.Sent (P : Params) (s t : State) : Prop :=
  match t.seq with
  | .rstClr => False
  | .idle => False
  | .check => t.portLog = s.portLog
  | .rngWait => t.portLog = s.portLog ++ [PortMsg.rng t.inst.ivBytes]
  | .initWait => s.Requested P t 0
  | .blkWait => s.Requested P t (t.ctx.j + 1)
  | .commit => s.Requested P t t.ctx.j
  | .abort =>
    (t.ctx.initIssued = false ∧ t.portLog = s.portLog) ∨
      (t.ctx.initIssued = true ∧ t.iv.length = t.inst.ivBytes ∧ ∃ k, k ≤ blocks t.msgLength ∧ s.Requested P t k)

/-- The command `i` accepted at `s` is over at `t`, and its messages are those of one command. -/
def State.SentAll (P : Params) (i : Instr) (s t : State) : Prop :=
  t.seq = .idle ∧ ∃ msgs, t.portLog = s.portLog ++ msgs ∧ CommandTraffic P i s.inst (blocks s.msgLength) msgs

/-! ## The moves that send -/

theorem Streamed.issued (h : t.Streamed P) : t.ctx.initIssued = true := by
  obtain ⟨-, hissued, -⟩ := h
  exact hissued

theorem Streamed.ctr_eq (h : t.Streamed P) : t.ctx.ctr = counterBlock P (pad t.iv) t.ctx.j := by
  obtain ⟨-, -, -, -, -, hctr, -⟩ := h
  exact hctr

/-- A stream has no more blocks than the whole message would have. -/
theorem State.Planned.nblk_le_message (h : t.Planned) : t.ctx.nblk ≤ blocks t.msgLength := by
  have hn : t.ctx.n ≤ t.msgLength := by
    rcases h.opc_cases with ho | ho
    · obtain ⟨-, -, -, hn, -⟩ := (planned_encrypt_iff ho).mp h; omega
    · obtain ⟨-, -, -, hn, -⟩ := (planned_decrypt_iff ho).mp h; omega
  rw [h.nblk_le]
  simp only [blocks]
  omega

/-- The message of a block request is the next of the stream's (R157). -/
theorem State.Requested.block {k : Nat} {c : Block} (h : s.Requested P t k) (hc : c = counterBlock P (pad t.iv) k) :
    s.Requested P (t.send (.engBlock c)) (k + 1) := by
  have hlog : (t.send (.engBlock c)).portLog = t.portLog ++ [PortMsg.engBlock c] := rfl
  rw [State.Requested, hlog, h, hc, List.append_assoc]
  exact congrArg (s.portLog ++ ·) (requests_succ P t.ctx.opc t.inst t.iv k).symm

/-- A stream is abandoned with `k` block requests sent (R157, R226). -/
theorem raise_sent {e : ErrorKind} {k : Nat} (h : t.Inv P) (hst : t.Streamed P) (hr : s.Requested P t k)
    (hk : k ≤ t.ctx.nblk) : s.Sent P (t.raise e) := by
  have h16 := (h.inst.bounds hst.1.1).2
  have hissued : t.ctx.initIssued = true := Streamed.issued hst
  exact .inr ⟨hissued, State.iv_length h16, k, hk.trans hst.1.nblk_le_message, hr⟩

theorem checkTurn_sent (h : t.Inv P) (hs : t.seq = .check) (ho : t.ctx.opc ≠ .create) (hlog : t.portLog = s.portLog) :
    s.Sent P (seqTurn t) := by
  obtain ⟨-, -, o, hctx⟩ := h.at_check hs
  have hinit : t.ctx.initIssued = false := by rw [hctx]; rfl
  apply checkTurn_cases (Q := s.Sent P) t hs
  case hraise => exact fun _ => .inl ⟨hinit, hlog⟩
  case hcreate => exact fun h => absurd h ho
  case hencrypt =>
    intro _ hv hl
    rw [checkEncrypt_ok hv (Nat.not_lt.mpr hl)]
    exact congrArg (· ++ [PortMsg.rng t.inst.ivBytes]) hlog
  case hdecrypt =>
    intro ho hv hl hl'
    rw [checkDecrypt_ok hv (Nat.not_lt.mpr hl) (Nat.not_lt.mpr hl')]
    simp [State.Sent, State.Requested, requests, ho, hlog]

theorem answerRng_sent (ho : t.ctx.opc = .encrypt) (hlog : t.portLog = s.portLog ++ [PortMsg.rng t.inst.ivBytes])
    (b : Block) : s.Sent P (answerRng b t) := by
  simp [State.Sent, State.Requested, requests, ho, hlog]

theorem answerInit_sent (h : t.Inv P) (hs : t.seq = .initWait) (hr : s.Requested P t 0) (a : EngAnswer) :
    s.Sent P (t.answerInit a) := by
  obtain ⟨-, hst, hj⟩ := h.at_initWait hs
  apply answerInit_cases (Q := s.Sent P) t a
  case hfail => exact fun _ => raise_sent h hst hr (Nat.zero_le _)
  case hempty =>
    intro _ _
    rw [← hj] at hr
    exact hr
  case hfirst =>
    intro _ _
    rw [← hj] at hr
    exact hr.block (Streamed.ctr_eq hst)

theorem answerBlock_sent (h : t.Inv P) (hs : t.seq = .blkWait) (hr : s.Requested P t (t.ctx.j + 1)) (a : EngAnswer) :
    s.Sent P (t.answerBlock P a) := by
  obtain ⟨-, hst, hj⟩ := h.at_blkWait hs
  have hst' := Streamed.takeBlock hst hj h.outFits.1
  apply answerBlock_cases (Q := s.Sent P) t a
  case hfail => exact fun _ => raise_sent h hst hr hj
  case hlast => exact fun _ _ => hr
  case hmore =>
    intro _ _
    have hnext : s.Requested P (t.takeBlock P (P.bc t.inst.variant t.inst.keyBytes t.ctx.ctr)) (t.ctx.j + 1) := hr
    have hblk : ((t.takeBlock P (P.bc t.inst.variant t.inst.keyBytes t.ctx.ctr)).send
        (.engBlock (P.ctrInc t.ctx.ctr))).seq = .blkWait := hs
    rw [State.Sent, hblk]
    exact hnext.block (Streamed.ctr_eq hst')

/-! ## The end of a command, and the run -/

/-- The end of a stream releases the engine: the messages are those of a whole command (R80, R166). -/
theorem State.Requested.ends {k : Nat} (hi : i ≠ .create) (hu : s.Underway P (.ofInstr i) t) (hend : t.EndsIn u)
    (hissued : t.ctx.initIssued = true) (hiv : t.iv.length = t.inst.ivBytes) (hk : k ≤ blocks t.msgLength)
    (hr : s.Requested P t k) : s.SentAll P i u := by
  obtain ⟨hidle, -, -, hlog⟩ := hend
  have hlen : t.msgLength = s.msgLength := congrArg BitVec.toNat hu.inLen
  rw [hu.inst] at hiv
  rw [hlen] at hk
  rw [State.Requested, hu.opc, hu.inst] at hr
  rw [hr, hissued, if_pos rfl, List.append_assoc] at hlog
  exact ⟨hidle, _, hlog, requests_traffic hi hiv hk⟩

theorem commitStep_sentAll (hi : i ≠ .create) (hu : s.Underway P (.ofInstr i) t) (hs : t.seq = .commit)
    (hr : s.Requested P t t.ctx.j) : s.SentAll P i (commitStep t) := by
  obtain ⟨-, hst, hj⟩ := hu.inv.at_commit hs
  have h16 := (hu.inv.inst.bounds hst.1.1).2
  have hend : t.EndsIn (commitStep t) := by
    rcases hst.1.opc_cases with ho | ho
    · rw [commitStep_encrypt hst ho hj]; exact completeStep_ends { t with outBuf := t.encryptOut, outLen := _ }
    · rw [commitStep_decrypt hst ho hj]; exact completeStep_ends { t with outLen := _ }
  exact hr.ends hi hu hend (Streamed.issued hst) (State.iv_length h16) (hj.trans_le hst.1.nblk_le_message)

theorem abortStep_sentAll (hi : i ≠ .create) (hu : s.Underway P (.ofInstr i) t)
    (hsent : (t.ctx.initIssued = false ∧ t.portLog = s.portLog) ∨ (t.ctx.initIssued = true ∧
      t.iv.length = t.inst.ivBytes ∧ ∃ k, k ≤ blocks t.msgLength ∧ s.Requested P t k)) :
    s.SentAll P i t.abortStep := by
  rcases hsent with ⟨hinit, hlog⟩ | ⟨hissued, hiv, k, hk, hr⟩
  · refine ⟨rfl, [], ?_, .inl rfl⟩
    rw [State.abortStep_portLog, hinit, hlog]; rfl
  · exact hr.ends hi hu (abortStep_ends t) hissued hiv hk

/-- Every move on the way of an ENCRYPT or a DECRYPT sends what is next, or ends the command with its traffic whole. -/
theorem seqMove_sent (hi : i ≠ .create) (hu : s.Underway P (.ofInstr i) t) (h : s.Sent P t) (e : Event) :
    s.Sent P (seqMove P e t) ∨ s.SentAll P i (seqMove P e t) := by
  have ho : t.ctx.opc ≠ .create := hu.opc ▸ Opc.ofInstr_ne_create hi
  have hinv := hu.inv
  apply seqMove_cases (Q := fun u => s.Sent P u ∨ s.SentAll P i u) e t (.inl h)
  case hrst => exact fun hs => absurd hs hu.inCommand.2
  case hcheck => intro hs _; rw [State.Sent, hs] at h; exact .inl (checkTurn_sent hinv hs ho h)
  case hcommit => intro hs _; rw [State.Sent, hs] at h; exact .inr (commitStep_sentAll hi hu hs h)
  case habort => intro hs _; rw [State.Sent, hs] at h; exact .inr (abortStep_sentAll hi hu h)
  case hrng =>
    intro hs b _
    obtain ⟨-, -, -, henc, -⟩ := hinv.at_rngWait hs
    rw [State.Sent, hs] at h
    exact .inl (answerRng_sent henc h b)
  case hinit => intro hs a _; rw [State.Sent, hs] at h; exact .inl (answerInit_sent hinv hs h a)
  case hblock => intro hs a _; rw [State.Sent, hs] at h; exact .inl (answerBlock_sent hinv hs h a)

/-- An ENCRYPT or a DECRYPT that has ended, whatever events came, has sent the messages of one command. -/
theorem issue_sentAll (hi : i ≠ .create) (h : s.Inv P) (hs : s.seq = .idle)
    (hidle : (issue P (.ofInstr i) s).seq = .idle) : s.SentAll P i (issue P (.ofInstr i) s) := by
  have hrun : (s.Underway P (.ofInstr i) (issue P (.ofInstr i) s) ∧ s.Sent P (issue P (.ofInstr i) s)) ∨
      s.SentAll P i (issue P (.ofInstr i) s) := by
    rw [issue_idle hs]
    apply drive_keeps (Q := fun t => (s.Underway P (.ofInstr i) t ∧ s.Sent P t) ∨ s.SentAll P i t)
    case hev => exact fun t es => Or.imp (fun h => ⟨h.1.withEvents es, h.2⟩) id
    case hmove =>
      rintro e t (⟨hu, hsent⟩ | hall)
      · rcases seqMove_sent hi hu hsent e with hnext | hdone
        · rcases hu.move (Opc.ofInstr_ne_create hi) e with hu' | hpast
          · exact .inl ⟨hu', hnext⟩
          · rw [State.Sent, hpast.1] at hnext; exact hnext.elim
        · exact .inr hdone
      · rw [seqMove_of_idle hall.1]; exact .inr hall
    case h => exact .inl ⟨⟨accept_inv h _, ⟨Seq.noConfusion, Seq.noConfusion⟩, rfl, rfl, rfl, rfl⟩, rfl⟩
  rcases hrun with ⟨hu, -⟩ | hall
  · exact absurd hidle hu.inCommand.1
  · exact hall

/-- Settles O47: a CREATE sends nothing, and a stream its requests in order and one release. -/
theorem portTrafficOfACommand : Obligations.PortTrafficOfACommand := by
  intro i s t h hs ht hidle
  rw [exec_eq_issue] at ht
  cases ht
  by_cases hi : i = .create
  · subst hi
    exact ⟨[], by rw [List.append_nil]; exact issue_create_portLog s, .inl rfl⟩
  · exact (issue_sentAll hi h hs hidle).2

end Sys2Proof.Machine
end

section
/-! What the result of an ENCRYPT or a DECRYPT depends on (R159, R160): two runs whose instance, IN_LEN, BUF_BYTES,
inputs and first IN_LEN bytes of IN agree go the same way, move by move. -/

namespace Sys2Proof.Machine

variable {P : Params} {s t x : State} {f g : State → State} {o : Opc}

/-- `s` in other surroundings: what ENCRYPT and DECRYPT do not read is taken from `x`, and `l` was sent before. -/
def State.reframe (s x : State) (l : List PortMsg) : State :=
  { s with
    overrun := x.overrun, keyLen := x.keyLen, ivSize := x.ivSize, irqEn := x.irqEn, keyStage := x.keyStage,
    inBuf := x.inBuf, resp := x.resp, portLog := l }

/-- `f` acts at `s` as it does in the surroundings of `x`, and sends the same messages. -/
def Mirrors (f : State → State) (s x : State) : Prop :=
  ∃ msgs, (f s).portLog = s.portLog ++ msgs ∧ ∀ l, f (s.reframe x l) = (f s).reframe x (l ++ msgs)

/-- The move of the sequencer on an event in a phase, the same for every state in that phase (R42). -/
def moveOf (P : Params) (e : Event) (q : Seq) : State → State :=
  match e, q with
  | .internal, .rstClr => fun s => { s with seq := .idle }
  | .internal, .check => seqTurn
  | .internal, .commit => commitStep
  | .internal, .abort => State.abortStep
  | .rng b, .rngWait => answerRng b
  | .eng a, .initWait => State.answerInit a
  | .eng a, .blkWait => State.answerBlock P a
  | _, _ => id

theorem moveOf_cases {R : (State → State) → Prop} {e : Event} {q : Seq} (hself : R id)
    (hrst : q = .rstClr → e = .internal → R fun s => { s with seq := .idle })
    (hcheck : q = .check → e = .internal → R seqTurn) (hcommit : q = .commit → e = .internal → R commitStep)
    (habort : q = .abort → e = .internal → R State.abortStep)
    (hrng : q = .rngWait → ∀ b, e = .rng b → R (answerRng b))
    (hinit : q = .initWait → ∀ a, e = .eng a → R (State.answerInit a))
    (hblock : q = .blkWait → ∀ a, e = .eng a → R (State.answerBlock P a)) : R (moveOf P e q) := by
  unfold moveOf
  split
  · exact hrst rfl rfl
  · exact hcheck rfl rfl
  · exact hcommit rfl rfl
  · exact habort rfl rfl
  · exact hrng rfl _ rfl
  · exact hinit rfl _ rfl
  · exact hblock rfl _ rfl
  · exact hself

theorem seqMove_eq_moveOf (P : Params) (e : Event) (s : State) : seqMove P e s = moveOf P e s.seq s := by
  cases e with
  | bus a | stale | reset => rfl
  | internal =>
    rw [seqMove_internal]
    rcases Seq.eq_cases s.seq with hs | hs | hs | hs | hs | hs
    · rw [seqTurn_rstClr hs, hs]; rfl
    · rw [seqTurn_idle hs, hs]; rfl
    · rw [hs]; rfl
    · rw [seqTurn_commit hs, hs]; rfl
    · rw [seqTurn_abort hs, hs]; rfl
    · rw [seqTurn_wait hs]; rcases hs with hs | hs | hs <;> rw [hs] <;> rfl
  | rng b | eng a => cases hs : s.seq <;> simp only [seqMove, hs, moveOf, id]

/-- The operands in IN agree: its first IN_LEN bytes. -/
def State.SameInput (s x : State) : Prop :=
  ∀ a, a < s.msgLength → Memory.readByte s.inBuf a = Memory.readByte x.inBuf a

theorem Mirrors.comp (hf : Mirrors f s x) (hg : Mirrors g (f s) x) : Mirrors (fun u => g (f u)) s x := by
  obtain ⟨fmsgs, hflog, hfeq⟩ := hf
  obtain ⟨gmsgs, hglog, hgeq⟩ := hg
  refine ⟨fmsgs ++ gmsgs, ?_, fun l => ?_⟩
  · rw [hglog, hflog, List.append_assoc]
  · dsimp only
    rw [hfeq, hgeq, List.append_assoc]

/-- An operation that sends nothing and touches nothing of the surroundings. -/
theorem mirrors_silent (hlog : (f s).portLog = s.portLog) (heq : ∀ l, f (s.reframe x l) = (f s).reframe x l) :
    Mirrors f s x :=
  ⟨[], by rw [hlog, List.append_nil], fun l => by rw [heq, List.append_nil]⟩

theorem Mirrors.congr (h : Mirrors g s x) (hs : f s = g s)
    (hx : ∀ l, f (s.reframe x l) = g (s.reframe x l)) : Mirrors f s x := by
  obtain ⟨msgs, hlog, heq⟩ := h
  exact ⟨msgs, by rw [hs, hlog], fun l => by rw [hx, hs, heq]⟩

/-! ## The moves -/

theorem raise_mirrors (k : ErrorKind) : Mirrors (State.raise k) s x := mirrors_silent rfl fun _ => rfl

theorem completeStep_mirrors : Mirrors State.completeStep s x :=
  ⟨if s.ctx.initIssued then [.engRelease] else [], State.completeStep_portLog s, fun l => by
    rw [completeStep_eq, completeStep_eq]; rfl⟩

theorem abortStep_mirrors : Mirrors State.abortStep s x :=
  ⟨if s.ctx.initIssued then [.engRelease] else [], State.abortStep_portLog s, fun l => by
    rw [abortStep_eq, abortStep_eq]; rfl⟩

theorem checkEncrypt_mirrors : Mirrors checkEncrypt s x := by
  cases hv : s.inst.valid with
  | false =>
    exact (raise_mirrors .noInstance).congr (checkEncrypt_noInstance hv)
      fun l => checkEncrypt_noInstance (s := s.reframe x l) hv
  | true =>
    by_cases hl : s.bufBytes < s.msgLength + s.inst.ivBytes
    · exact (raise_mirrors .lengthOverflow).congr (checkEncrypt_overflow hv hl)
        fun l => checkEncrypt_overflow (s := s.reframe x l) hv hl
    · refine ⟨[.rng s.inst.ivBytes], ?_, fun l => ?_⟩
      · rw [checkEncrypt_ok hv hl]; rfl
      · rw [checkEncrypt_ok hv hl, checkEncrypt_ok (s := s.reframe x l) hv hl]; rfl

theorem readBytes_congr {m m' : Memory} {n : Nat} (h : ∀ a, a < n → Memory.readByte m a = Memory.readByte m' a) :
    Memory.readBytes m 0 n = Memory.readBytes m' 0 n :=
  List.map_congr_left fun i hi => by rw [Nat.zero_add]; exact h i (List.mem_range.mp hi)

theorem checkDecrypt_mirrors (hin : s.SameInput x) : Mirrors checkDecrypt s x := by
  cases hv : s.inst.valid with
  | false =>
    exact (raise_mirrors .noInstance).congr (checkDecrypt_noInstance hv)
      fun l => checkDecrypt_noInstance (s := s.reframe x l) hv
  | true =>
    by_cases hl : s.bufBytes < s.msgLength
    · exact (raise_mirrors .lengthOverflow).congr (checkDecrypt_overflow hv hl)
        fun l => checkDecrypt_overflow (s := s.reframe x l) hv hl
    · by_cases hl' : s.msgLength < s.inst.ivBytes
      · exact (raise_mirrors .ciphertextTooShort).congr (checkDecrypt_short hv hl hl')
          fun l => checkDecrypt_short (s := s.reframe x l) hv hl hl'
      · have hiv : Memory.readBytes s.inBuf 0 s.inst.ivBytes = Memory.readBytes x.inBuf 0 s.inst.ivBytes :=
          readBytes_congr fun a ha => hin a (by omega)
        refine ⟨[.engInit s.inst.variant s.inst.keyBytes], ?_, fun l => ?_⟩
        · rw [checkDecrypt_ok hv hl hl']; rfl
        · rw [checkDecrypt_ok hv hl hl', checkDecrypt_ok (s := s.reframe x l) hv hl hl', hiv]; rfl

theorem checkStep_mirrors (ho : s.ctx.opc ≠ .create) (hin : s.SameInput x) : Mirrors checkStep s x := by
  cases hopc : s.ctx.opc with
  | create => exact absurd hopc ho
  | illegal =>
    exact (raise_mirrors .illegalCommand).congr (checkStep_illegal hopc)
      fun l => checkStep_illegal (s := s.reframe x l) hopc
  | encrypt =>
    exact checkEncrypt_mirrors.congr (checkStep_encrypt hopc) fun l => checkStep_encrypt (s := s.reframe x l) hopc
  | decrypt =>
    exact (checkDecrypt_mirrors hin).congr (checkStep_decrypt hopc) fun l => checkStep_decrypt (s := s.reframe x l) hopc

theorem checkTurn_mirrors (hs : s.seq = .check) (ho : s.ctx.opc ≠ .create) (hin : s.SameInput x) :
    Mirrors seqTurn s x := by
  have hcheck := checkStep_mirrors ho hin
  have hseq : (checkStep s).seq ≠ .commit := by
    apply checkStep_cases (Q := fun t => t.seq ≠ .commit) s
    case hraise => exact fun _ => Seq.noConfusion
    case hcreate => exact fun h => absurd h ho
    case hencrypt => intro _ hv hl; rw [checkEncrypt_ok hv (Nat.not_lt.mpr hl)]; exact Seq.noConfusion
    case hdecrypt =>
      intro _ hv hl hl'; rw [checkDecrypt_ok hv (Nat.not_lt.mpr hl) (Nat.not_lt.mpr hl')]; exact Seq.noConfusion
  refine hcheck.congr (seqTurn_check hs hseq) fun l => seqTurn_check (s := s.reframe x l) hs ?_
  obtain ⟨msgs, -, heq⟩ := hcheck
  rw [heq]; exact hseq

/-- A completion with OUT = `out` and OUT_LEN = `len`. -/
theorem completeStep_out_mirrors (out : Memory) (len : Word) :
    Mirrors (fun u => State.completeStep { u with outBuf := out, outLen := len }) s x :=
  completeStep_mirrors (s := { s with outBuf := out, outLen := len })

theorem commitEncrypt_mirrors : Mirrors commitEncrypt s x := by
  by_cases hk : s.ctx.ksCount = s.ctx.n
  · exact (completeStep_out_mirrors s.encryptOut (BitVec.ofNat 32 (s.inst.ivBytes + s.ctx.n))).congr
      (commitEncrypt_ok hk) fun l => commitEncrypt_ok (s := s.reframe x l) hk
  · exact (raise_mirrors .encryptionFailure).congr (commitEncrypt_bad hk)
      fun l => commitEncrypt_bad (s := s.reframe x l) hk

theorem commitDecrypt_mirrors : Mirrors commitDecrypt s x := by
  by_cases hk : s.ctx.ksCount = s.ctx.n
  · exact (completeStep_out_mirrors s.outBuf (BitVec.ofNat 32 s.ctx.n)).congr (commitDecrypt_ok hk)
      fun l => commitDecrypt_ok (s := s.reframe x l) hk
  · exact (raise_mirrors .decryptionFailure).congr (commitDecrypt_bad hk)
      fun l => commitDecrypt_bad (s := s.reframe x l) hk

theorem commitStep_mirrors : Mirrors commitStep s x := by
  cases hopc : s.ctx.opc with
  | illegal =>
    exact completeStep_mirrors.congr (commitStep_plain (.inl hopc))
      fun l => commitStep_plain (s := s.reframe x l) (.inl hopc)
  | create =>
    exact completeStep_mirrors.congr (commitStep_plain (.inr hopc))
      fun l => commitStep_plain (s := s.reframe x l) (.inr hopc)
  | encrypt =>
    exact commitEncrypt_mirrors.congr (commitStep_of_encrypt hopc)
      fun l => commitStep_of_encrypt (s := s.reframe x l) hopc
  | decrypt =>
    exact commitDecrypt_mirrors.congr (commitStep_of_decrypt hopc)
      fun l => commitStep_of_decrypt (s := s.reframe x l) hopc

theorem answerRng_mirrors (b : Block) : Mirrors (answerRng b) s x := by
  refine ⟨[.engInit s.inst.variant s.inst.keyBytes], State.answerRng_portLog s b, fun l => ?_⟩
  unfold answerRng State.beginStream State.send
  rfl

theorem answerInit_mirrors (a : EngAnswer) : Mirrors (State.answerInit a) s x := by
  cases a with
  | fail => exact raise_mirrors .cipherInitFailure
  | ok =>
    by_cases hn : s.ctx.n = 0
    · exact mirrors_silent (by rw [answerInit_empty hn])
        fun l => by rw [answerInit_empty hn, answerInit_empty (s := s.reframe x l) hn]; rfl
    · refine ⟨[.engBlock s.ctx.ctr], by rw [answerInit_first hn]; rfl, fun l => ?_⟩
      rw [answerInit_first hn, answerInit_first (s := s.reframe x l) hn]; rfl

/-- The lanes of the running stream lie below IN_LEN (R156). -/
theorem State.Planned.input_end (h : s.Planned) : s.ctx.src + s.ctx.n ≤ s.msgLength := by
  rcases h.opc_cases with ho | ho
  · obtain ⟨-, -, -, hn, hsrc, -⟩ := (planned_encrypt_iff ho).mp h; omega
  · obtain ⟨-, -, -, hn, hsrc, -, hl, -⟩ := (planned_decrypt_iff ho).mp h; omega

theorem takeBlock_mirrors (hp : s.Planned) (hin : s.SameInput x) (k : Block) : Mirrors (State.takeBlock P k) s x := by
  refine mirrors_silent rfl fun l => ?_
  have hend := hp.input_end
  have hlanes : xorLanes x.inBuf (s.ctx.src + 16 * s.ctx.j) (liveLanes s.ctx.n s.ctx.j) k =
      xorLanes s.inBuf (s.ctx.src + 16 * s.ctx.j) (liveLanes s.ctx.n s.ctx.j) k := by
    refine List.map_congr_left fun i hi => ?_
    have hlane := List.mem_range.mp hi
    rw [hin _ (by simp only [liveLanes] at hlane; omega)]
  unfold State.takeBlock
  simp only [State.reframe, hlanes]

theorem nextBlock_mirrors : Mirrors State.nextBlock s x := by
  by_cases hj : s.ctx.j < s.ctx.nblk
  · refine ⟨[.engBlock s.ctx.ctr], by rw [nextBlock_more hj]; rfl, fun l => ?_⟩
    rw [nextBlock_more hj, nextBlock_more (s := s.reframe x l) hj]; rfl
  · exact mirrors_silent (by rw [nextBlock_last hj])
      fun l => by rw [nextBlock_last hj, nextBlock_last (s := s.reframe x l) hj]; rfl

theorem answerBlock_mirrors (hp : s.Planned) (hin : s.SameInput x) (a : EngAnswer) :
    Mirrors (State.answerBlock P a) s x := by
  cases a with
  | fail => exact raise_mirrors (streamFailure s.ctx.opc)
  | ok => exact (takeBlock_mirrors hp hin (P.bc s.inst.variant s.inst.keyBytes s.ctx.ctr)).comp nextBlock_mirrors

/-- Every move acts alike in two states whose operands agree. -/
theorem seqMove_mirrors (h : s.Inv P) (ho : s.ctx.opc ≠ .create) (hin : s.SameInput x) (e : Event) :
    Mirrors (seqMove P e) s x := by
  have hmove : Mirrors (moveOf P e s.seq) s x := by
    apply moveOf_cases (R := fun f => Mirrors f s x)
    case hself => exact mirrors_silent rfl fun _ => rfl
    case hrst => exact fun _ _ => mirrors_silent rfl fun _ => rfl
    case hcheck => exact fun hs _ => checkTurn_mirrors hs ho hin
    case hcommit => exact fun _ _ => commitStep_mirrors
    case habort => exact fun _ _ => abortStep_mirrors
    case hrng => exact fun _ b _ => answerRng_mirrors b
    case hinit => exact fun _ a _ => answerInit_mirrors a
    case hblock => exact fun hs a _ => answerBlock_mirrors (h.at_blkWait hs).2.1.1 hin a
  exact hmove.congr (seqMove_eq_moveOf P e s) fun l => seqMove_eq_moveOf P e (s.reframe x l)

/-! ## The run -/

/-- On the way of an ENCRYPT or a DECRYPT whose operands are those of `x`. -/
structure State.Matches (P : Params) (x s : State) : Prop where
  inv : s.Inv P
  opc : s.ctx.opc ≠ .create
  input : s.SameInput x

theorem State.Matches.mirrors (h : x.Matches P s) (e : Event) : Mirrors (seqMove P e) s x :=
  seqMove_mirrors h.inv h.opc h.input e

theorem State.Matches.move (h : x.Matches P s) (e : Event) : x.Matches P (seqMove P e s) := by
  obtain ⟨hbuf, hlen⟩ := seqMove_operands P e s
  refine ⟨seqMove_inv e h.inv, ?_, fun a ha => ?_⟩
  · rcases seqMove_opc P e s with ho | ho
    · rw [ho]; exact h.opc
    · rw [ho]; exact Opc.noConfusion
  · rw [hbuf]
    rw [State.msgLength, hlen] at ha
    exact h.input a ha

theorem setEvents_mirrors (es : List Event) : Mirrors (fun u => { u with events := es }) s x :=
  mirrors_silent rfl fun _ => rfl

/-- A run goes the same way in two states whose operands agree. -/
theorem drive_mirrors (es : List Event) (h : x.Matches P s) : Mirrors (drive P es) s x := by
  induction es generalizing s with
  | nil =>
    have hturn {u : State} (hu : x.Matches P u) : Mirrors seqTurn u x := hu.mirrors .internal
    have hnext {u : State} (hu : x.Matches P u) : x.Matches P (seqTurn u) := hu.move .internal
    exact (((hturn h).comp (hturn (hnext h))).comp (hturn (hnext (hnext h)))).comp (setEvents_mirrors [])
  | cons e es ih =>
    cases hen : enabled s.seq e with
    | false =>
      exact (setEvents_mirrors (e :: es)).congr (drive_stop es hen) fun l => drive_stop (s := s.reframe x l) es hen
    | true =>
      exact ((h.mirrors e).comp (ih (h.move e))).congr (drive_enabled es hen)
        fun l => drive_enabled (s := s.reframe x l) es hen

/-- Settles O44: `t` is `s` in other surroundings, and the run of the command mirrors. -/
theorem resultDependsOnlyOnOperands : Obligations.ResultDependsOnlyOnOperands := by
  intro i s t s' t' hi hs ht hsi hti hinst hlen hcap hev hbytes hs' ht'
  rw [exec_eq_issue, issue_idle hsi] at hs'
  rw [exec_eq_issue, issue_idle hti] at ht'
  cases hs'
  cases ht'
  have hframe : t.accept (.ofInstr i) = (s.accept (.ofInstr i)).reframe t t.portLog := by
    simp only [State.accept, State.zeroizeOut, State.reframe, hinst, hlen, hcap, hev]
  obtain ⟨msgs, hlog, heq⟩ := drive_mirrors (P := Config.machine) (x := t) s.events
    (s := s.accept (.ofInstr i)) ⟨accept_inv hs _, Opc.ofInstr_ne_create hi, hbytes⟩
  rw [← hev, hframe, heq]
  exact ⟨rfl, rfl, rfl, rfl, rfl, rfl, rfl, rfl, msgs, hlog, rfl⟩

end Sys2Proof.Machine
end

section
/-! Key bytes stay inside (R33, R36): two states that differ in them alone are read alike, and every single step that
does not use the key for the engine leaves two states that again differ in them alone. -/

namespace Sys2Proof.Machine

variable {P : Params} {s t : State} {f g : State → State}

/-- `s` with other key bytes, staged and installed. -/
def State.rekeyed (s : State) (ks k : KeyBytes) : State := { s with keyStage := ks, inst := { s.inst with key := k } }

theorem State.keyBlind.eq_rekeyed (h : s.keyBlind t) : t = s.rekeyed t.keyStage t.inst.key := h

/-- `f` acts at `s` as it does under other keys, but for the keys. -/
def Blind (f : State → State) (s : State) : Prop := ∀ ks k, (f s).keyBlind (f (s.rekeyed ks k))

theorem Blind.of_keyBlind (hf : Blind f s) (h : s.keyBlind t) : (f s).keyBlind (f t) := by
  rw [h.eq_rekeyed]; exact hf _ _

theorem Blind.comp (hf : Blind f s) (hg : Blind g (f s)) : Blind (fun u => g (f u)) s :=
  fun ks k => hg.of_keyBlind (hf ks k)

theorem Blind.congr (h : Blind g s) (hs : f s = g s) (hk : ∀ ks k, f (s.rekeyed ks k) = g (s.rekeyed ks k)) :
    Blind f s := fun ks k => by rw [hs, hk]; exact h ks k

/-! ## What the host reads -/

theorem hostRead_rekeyed (s : State) (ks k : KeyBytes) (off : Nat) :
    (s.rekeyed ks k).hostRead off = s.hostRead off := rfl

theorem State.keyBlind.looksLike (h : s.keyBlind t) : s.looksLike t := by
  rw [h.eq_rekeyed]
  exact ⟨fun off _ => (hostRead_rekeyed s _ _ off).symm, rfl⟩

/-! ## The moves that do not use the key -/

theorem raise_blind (k : ErrorKind) : Blind (State.raise k) s := fun _ _ => rfl

theorem completeStep_blind : Blind State.completeStep s := fun ks k => by
  rw [completeStep_eq, completeStep_eq]; rfl

theorem abortStep_blind : Blind State.abortStep s := fun ks k => by
  rw [abortStep_eq, abortStep_eq]
  by_cases ho : s.ctx.opc = .create
  · rw [if_pos ho, if_pos (show (s.rekeyed ks k).ctx.opc = .create from ho)]; rfl
  · rw [if_neg ho, if_neg (show (s.rekeyed ks k).ctx.opc ≠ .create from ho)]; rfl

theorem checkCreate_blind : Blind checkCreate s := by
  cases hv : variantOf s.keyLength with
  | none =>
    exact (raise_blind .invalidKeySize).congr (checkCreate_key hv)
      fun ks k => checkCreate_key (s := s.rekeyed ks k) hv
  | some v =>
    cases hi : ivSizeLegal s.ivLength with
    | false =>
      exact (raise_blind .invalidIvSize).congr (checkCreate_iv hv hi)
        fun ks k => checkCreate_iv (s := s.rekeyed ks k) hv hi
    | true =>
      intro ks k
      rw [checkCreate_ok hv hi, checkCreate_ok (s := s.rekeyed ks k) hv hi]; rfl

theorem checkEncrypt_blind : Blind checkEncrypt s := by
  cases hv : s.inst.valid with
  | false =>
    exact (raise_blind .noInstance).congr (checkEncrypt_noInstance hv)
      fun ks k => checkEncrypt_noInstance (s := s.rekeyed ks k) hv
  | true =>
    by_cases hl : s.bufBytes < s.msgLength + s.inst.ivBytes
    · exact (raise_blind .lengthOverflow).congr (checkEncrypt_overflow hv hl)
        fun ks k => checkEncrypt_overflow (s := s.rekeyed ks k) hv hl
    · intro ks k
      rw [checkEncrypt_ok hv hl, checkEncrypt_ok (s := s.rekeyed ks k) hv hl]; rfl

theorem checkStep_blind (ho : s.ctx.opc ≠ .decrypt) : Blind checkStep s := by
  cases hopc : s.ctx.opc with
  | decrypt => exact absurd hopc ho
  | illegal =>
    exact (raise_blind .illegalCommand).congr (checkStep_illegal hopc)
      fun ks k => checkStep_illegal (s := s.rekeyed ks k) hopc
  | create =>
    exact checkCreate_blind.congr (checkStep_create hopc) fun ks k => checkStep_create (s := s.rekeyed ks k) hopc
  | encrypt =>
    exact checkEncrypt_blind.congr (checkStep_encrypt hopc) fun ks k => checkStep_encrypt (s := s.rekeyed ks k) hopc

theorem commitEncrypt_blind : Blind commitEncrypt s := by
  by_cases hk : s.ctx.ksCount = s.ctx.n
  · intro ks k
    rw [commitEncrypt_ok hk, commitEncrypt_ok (s := s.rekeyed ks k) hk, completeStep_eq, completeStep_eq]; rfl
  · exact (raise_blind .encryptionFailure).congr (commitEncrypt_bad hk)
      fun ks k => commitEncrypt_bad (s := s.rekeyed ks k) hk

theorem commitDecrypt_blind : Blind commitDecrypt s := by
  by_cases hk : s.ctx.ksCount = s.ctx.n
  · intro ks k
    rw [commitDecrypt_ok hk, commitDecrypt_ok (s := s.rekeyed ks k) hk, completeStep_eq, completeStep_eq]; rfl
  · exact (raise_blind .decryptionFailure).congr (commitDecrypt_bad hk)
      fun ks k => commitDecrypt_bad (s := s.rekeyed ks k) hk

theorem commitStep_blind : Blind commitStep s := by
  cases hopc : s.ctx.opc with
  | illegal =>
    exact completeStep_blind.congr (commitStep_plain (.inl hopc))
      fun ks k => commitStep_plain (s := s.rekeyed ks k) (.inl hopc)
  | create =>
    exact completeStep_blind.congr (commitStep_plain (.inr hopc))
      fun ks k => commitStep_plain (s := s.rekeyed ks k) (.inr hopc)
  | encrypt =>
    exact commitEncrypt_blind.congr (commitStep_of_encrypt hopc)
      fun ks k => commitStep_of_encrypt (s := s.rekeyed ks k) hopc
  | decrypt =>
    exact commitDecrypt_blind.congr (commitStep_of_decrypt hopc)
      fun ks k => commitStep_of_decrypt (s := s.rekeyed ks k) hopc

theorem seqInternal_blind (ho : s.seq = .check → s.ctx.opc ≠ .decrypt) : Blind seqInternal s := by
  rcases Seq.eq_cases s.seq with hs | hs | hs | hs | hs | hs
  · intro ks k
    rw [seqInternal_rstClr hs, seqInternal_rstClr (s := s.rekeyed ks k) hs]; rfl
  · intro ks k
    rw [seqInternal_idle hs, seqInternal_idle (s := s.rekeyed ks k) hs]; rfl
  · exact (checkStep_blind (ho hs)).congr (seqInternal_check hs) fun ks k => seqInternal_check (s := s.rekeyed ks k) hs
  · exact commitStep_blind.congr (seqInternal_commit hs) fun ks k => seqInternal_commit (s := s.rekeyed ks k) hs
  · exact abortStep_blind.congr (seqInternal_abort hs) fun ks k => seqInternal_abort (s := s.rekeyed ks k) hs
  · intro ks k
    rw [seqInternal_wait hs, seqInternal_wait (s := s.rekeyed ks k) hs]; rfl

theorem State.keyBlind.seq_eq (h : s.keyBlind t) : t.seq = s.seq := by rw [h]

/-- The sequencer's turn is one internal step or two, in both states alike. -/
theorem seqTurn_blind (ho : s.seq = .check → s.ctx.opc ≠ .decrypt) : Blind seqTurn s := by
  have hfirst := seqInternal_blind ho
  by_cases hc : s.seq = .check ∧ (seqInternal s).seq = .commit
  · have hsecond : Blind seqInternal (seqInternal s) :=
      seqInternal_blind fun h => absurd (hc.2.symm.trans h) (by decide)
    refine (hfirst.comp hsecond).congr (if_pos hc) fun ks k => if_pos ⟨hc.1, ?_⟩
    exact ((hfirst ks k).seq_eq).trans hc.2
  · refine hfirst.congr (if_neg hc) fun ks k => if_neg fun h => hc ⟨h.1, ?_⟩
    exact ((hfirst ks k).seq_eq).symm.trans h.2

theorem answerInit_blind (a : EngAnswer) : Blind (State.answerInit a) s := by
  cases a with
  | fail => exact raise_blind .cipherInitFailure
  | ok =>
    intro ks k
    by_cases hn : s.ctx.n = 0
    · rw [answerInit_empty hn, answerInit_empty (s := s.rekeyed ks k) hn]; rfl
    · rw [answerInit_first hn, answerInit_first (s := s.rekeyed ks k) hn]; rfl

/-- The move on `e` uses the key, or leads to its use: DECRYPT's CHECK and the TRNG's answer send it with `eng_init`,
and a block of the engine is enciphered under it (R77, R78). -/
def State.UsesKey (s : State) (e : Event) : Prop :=
  (s.seq = .check ∧ s.ctx.opc = .decrypt ∧ e = .internal) ∨ (s.seq = .rngWait ∧ ∃ b, e = .rng b) ∨
    (s.seq = .blkWait ∧ e = .eng .ok)

/-- Every other move is blind to the keys. -/
theorem seqMove_blind {e : Event} (h : ¬ s.UsesKey e) : Blind (seqMove P e) s := by
  have hmove : Blind (moveOf P e s.seq) s := by
    apply moveOf_cases (R := fun f => Blind f s)
    case hself => exact fun _ _ => rfl
    case hrst => exact fun _ _ _ _ => rfl
    case hcheck => exact fun _ he => seqTurn_blind fun hs ho => h (.inl ⟨hs, ho, he⟩)
    case hcommit => exact fun _ _ => commitStep_blind
    case habort => exact fun _ _ => abortStep_blind
    case hrng => exact fun hs b he => absurd (.inr (.inl ⟨hs, b, he⟩)) h
    case hinit => exact fun _ a _ => answerInit_blind a
    case hblock =>
      rintro hs a rfl
      cases a with
      | fail => exact raise_blind (streamFailure s.ctx.opc)
      | ok => exact absurd (.inr (.inr ⟨hs, rfl⟩)) h
  exact hmove.congr (seqMove_eq_moveOf P e s) fun ks k => seqMove_eq_moveOf P e (s.rekeyed ks k)

/-! ## Host accesses and single steps -/

theorem staged_blind (ks k : KeyBytes) {w w' : State} (h : w.keyBlind w') :
    (s.staged w).keyBlind ((s.rekeyed ks k).staged w') := by
  by_cases hs : s.seq = .idle
  · rwa [staged_idle hs, staged_idle (s := s.rekeyed ks k) hs]
  · rw [staged_busy hs, staged_busy (s := s.rekeyed ks k) hs]; rfl

theorem hostWrite_blind (off : Nat) (v : Word) : Blind (State.hostWrite off v) s := by
  intro ks k
  have hbuf : (s.rekeyed ks k).bufBytes = s.bufBytes := rfl
  rw [State.hostWrite, State.hostWrite, hbuf]
  cases targetOf s.bufBytes off with
  | cmd | keyLen | ivSize | inLen | key _ | inBuf _ => refine staged_blind ks k ?_; rfl
  | status | irqEn | id | err | outLen | inst | cap | outBuf _ | reserved => rfl

theorem State.keyBlind.withResp (h : s.keyBlind t) (r : Option Response) :
    ({ s with resp := r } : State).keyBlind { t with resp := r } := by
  rw [h.eq_rekeyed]; rfl

theorem State.keyBlind.withEvents (h : s.keyBlind t) (es : List Event) :
    ({ s with events := es } : State).keyBlind { t with events := es } := by
  rw [h.eq_rekeyed]; rfl

theorem hostAccess_blind (a : Access) : Blind (State.hostAccess a) s := by
  intro ks k
  rw [State.hostAccess.eq_def, State.hostAccess.eq_def]
  by_cases hwf : a.wf = true
  · rw [if_pos hwf, if_pos hwf]
    cases a with
    | read sz off => dsimp only; rw [hostRead_rekeyed]; rfl
    | write sz off v => exact (hostWrite_blind off v ks k).withResp _
  · rw [if_neg hwf, if_neg hwf]; rfl

theorem deliver_blind {e : Event} (h : ¬ s.UsesKey e) : Blind (deliver P e) s := by
  cases e with
  | bus a => exact hostAccess_blind a
  | reset | stale => exact fun _ _ => rfl
  | internal | rng _ | eng _ => exact seqMove_blind (P := P) h

/-- A single step delivers the next event, the sequencer's turn when none is to come. -/
theorem tick_eq_deliver (P : Params) (s : State) :
    tick P s = { deliver P (s.events.headD .internal) s with events := s.events.tail } := by
  cases he : s.events with
  | nil =>
    have hev : seqTurn { s with events := s.events } = { seqTurn s with events := s.events } :=
      seqTurn_events s s.events
    calc tick P s = seqTurn s := tick_nil he
      _ = { seqTurn s with events := s.events } := hev
      _ = { seqTurn s with events := [] } := by rw [he]
  | cons e es => rw [tick_cons he, deliver_events]; rfl

theorem turn_of_headD (h : s.events.headD .internal = .internal) : s.Turn s.events.tail := by
  cases he : s.events with
  | nil => exact .inr ⟨he, rfl⟩
  | cons e es => rw [he] at h; exact .inl (by rw [he]; exact congrArg (· :: es) h)

theorem events_of_headD {e : Event} (h : s.events.headD .internal = e) (hne : e ≠ .internal) :
    s.events = e :: s.events.tail := by
  cases he : s.events with
  | nil => rw [he] at h; exact absurd h.symm hne
  | cons e' es => rw [he] at h; exact congrArg (· :: es) h

theorem tick_keyBlind (h : s.keyBlind t) (hkey : ¬ s.UsesKey (s.events.headD .internal)) :
    (tick P s).keyBlind (tick P t) := by
  have hev : t.events = s.events := by rw [h]
  rw [tick_eq_deliver, tick_eq_deliver, hev]
  exact ((deliver_blind hkey).of_keyBlind h).withEvents _

/-! ## The moves that use the key -/

/-- A move that stays within the command shows the host nothing. -/
theorem State.MovesTo.looksLike (h : s.MovesTo t) (hs : s.seq ≠ .idle) (ht : t.seq ≠ .idle) : t.looksLike s := by
  have hover : t.overrun = s.overrun := by rw [h]
  have hen : t.irqEn = s.irqEn := by rw [h]
  have hdone : t.done = s.done := by rw [h]
  refine ⟨fun off _ => ?_, by rw [State.irqO, State.irqO, hdone, hen]⟩
  by_cases h8 : off = 0x00008
  · subst h8; exact h.showsAs.statusWord_eq hs ht hover
  by_cases h24 : off = 0x00024
  · subst h24; exact congrArg bitWord hen
  · exact h.showsAs.hostRead hs ht h8 h24

/-- A move that uses the key goes on with the command. -/
theorem deliver_usesKey_goesOn {e : Event} (h : s.UsesKey e) :
    s.GoesOn (seqMove P e s) ∧ deliver P e s = seqMove P e s := by
  rcases h with ⟨hs, ho, rfl⟩ | ⟨hs, b, rfl⟩ | ⟨hs, rfl⟩
  · exact ⟨checkTurn_goesOn hs (by rw [ho]; decide), rfl⟩
  · exact ⟨by rw [seqMove_rng hs]; exact answerRng_goesOn s b, rfl⟩
  · exact ⟨by rw [seqMove_block hs]; exact answerBlock_goesOn (by simp [State.InCommand, hs]) .ok, rfl⟩

theorem State.UsesKey.busy {e : Event} (h : s.UsesKey e) : s.seq ≠ .idle := by
  rcases h with ⟨hs, -⟩ | ⟨hs, -⟩ | ⟨hs, -⟩ <;> simp [hs]

theorem tick_usesKey_looksLike (h : s.UsesKey (s.events.headD .internal)) : (tick P s).looksLike s := by
  obtain ⟨hgo, hdeliver⟩ := deliver_usesKey_goesOn (P := P) h
  have hlike := (seqMove_movesTo (P := P) _ hgo.1.1).looksLike h.busy hgo.1.1
  rw [tick_eq_deliver, hdeliver]
  exact hlike

theorem State.looksLike.trans {u : State} (h : s.looksLike t) (h' : t.looksLike u) : s.looksLike u :=
  ⟨fun off h4 => (h.1 off h4).trans (h'.1 off h4), h.2.trans h'.2⟩

theorem State.looksLike.symm (h : s.looksLike t) : t.looksLike s :=
  ⟨fun off h4 => (h.1 off h4).symm, h.2.symm⟩

theorem State.UsesKey.of_keyBlind {e : Event} (h : s.UsesKey e) (hk : s.keyBlind t) : t.UsesKey e := by
  rw [hk.eq_rekeyed]; exact h

theorem tick_looksLike (h : s.keyBlind t) : (tick P s).looksLike (tick P t) := by
  by_cases hkey : s.UsesKey (s.events.headD .internal)
  · have hev : t.events = s.events := by rw [h]
    have hkey' : t.UsesKey (t.events.headD .internal) := by rw [hev]; exact hkey.of_keyBlind h
    exact ((tick_usesKey_looksLike hkey).trans h.looksLike).trans (tick_usesKey_looksLike hkey').symm
  · exact (tick_keyBlind h hkey).looksLike

/-! ## CREATE -/

/-- No move on the way of a CREATE uses the key. -/
theorem State.InCreate.not_usesKey (h : s.InCreate) (e : Event) : ¬ s.UsesKey e := by
  intro hkey
  have ho := h.opc hkey.busy
  have hphase := h.phase
  rcases hkey with ⟨-, hd, -⟩ | ⟨hs, -⟩ | ⟨hs, -⟩
  · exact absurd (ho.symm.trans hd) (by decide)
  · simp [hs] at hphase
  · simp [hs] at hphase

theorem drive_create_blind (es : List Event) (h : s.InCreate) : Blind (drive P es) s := by
  induction es generalizing s with
  | nil =>
    have hturn {u : State} (hu : u.InCreate) : Blind seqTurn u :=
      seqMove_blind (P := P) (hu.not_usesKey .internal)
    have hnext {u : State} (hu : u.InCreate) : (seqTurn u).InCreate := seqMove_inCreate (P := P) .internal hu
    have hthree := ((hturn h).comp (hturn (hnext h))).comp (hturn (hnext (hnext h)))
    exact fun ks k => (hthree ks k).withEvents []
  | cons e es ih =>
    cases hen : enabled s.seq e with
    | false =>
      intro ks k
      rw [drive_stop es hen, drive_stop (s := s.rekeyed ks k) es hen]; rfl
    | true =>
      exact ((seqMove_blind (h.not_usesKey e)).comp (ih (seqMove_inCreate e h))).congr (drive_enabled es hen)
        fun ks k => drive_enabled (s := s.rekeyed ks k) es hen

theorem issue_create_blind : Blind (issue P .create) s := by
  intro ks k
  by_cases hs : s.seq = .idle
  · rw [issue_idle hs, issue_idle (s := s.rekeyed ks k) hs]
    exact drive_create_blind (s := s.accept .create) s.events (.inl ⟨.inl rfl, rfl⟩) ks k
  · rw [issue_busy hs, issue_busy (s := s.rekeyed ks k) hs]; rfl

/-- Settles O41: every move but three is blind to the keys, those three show the host nothing, and no CREATE makes one
of them. -/
theorem keyIsNeverVisible : Obligations.KeyIsNeverVisible := by
  refine ⟨fun s t h => h.looksLike, fun P s t h => tick_looksLike h, fun P s t h hcheck hrng hblock => ?_,
    fun s t s' t' h hs ht => ?_⟩
  · refine tick_keyBlind h fun hkey => ?_
    rcases hkey with ⟨hs, ho, he⟩ | ⟨hs, b, he⟩ | ⟨hs, he⟩
    · exact hcheck hs ho _ (turn_of_headD he)
    · exact hrng hs b _ (events_of_headD he Event.noConfusion)
    · exact hblock hs _ (events_of_headD he Event.noConfusion)
  · rw [exec_eq_issue] at hs ht
    cases hs
    cases ht
    exact issue_create_blind.of_keyBlind h

end Sys2Proof.Machine
end

section
/-! Host programs (R110 to R112): what a run has taken, asked and left, move by move, and the expansions of the
pseudo-instructions. -/

namespace Sys2Proof.Machine

variable {P : Params} {s : State}

/-! ## A POLL -/

theorem transactions_poll_append {off : Nat} {mask val : Word} {vs : List Word} (h : ∀ u ∈ vs, u &&& mask ≠ val)
    (ws : List Word) (p : List HostLine) :
    transactions (vs ++ ws) (.poll off mask val :: p) =
      List.replicate vs.length (.read .w32 off) ++ transactions ws (.poll off mask val :: p) := by
  induction vs with
  | nil => rfl
  | cons v vs ih =>
    rw [List.forall_mem_cons] at h
    rw [List.cons_append, transactions_poll_again h.1, ih h.2]
    rfl

theorem linesAfter_poll (off : Nat) (mask val v : Word) (p : List HostLine) :
    linesAfter v (.poll off mask val :: p) = if v &&& mask = val then p else .poll off mask val :: p := by
  simp [linesAfter]

theorem hostRun_host (P : Params) (l : HostLine) (p : List HostLine) (s : State) :
    hostRun P [.host] (l :: p) s =
      ⟨linesAfter (s.hostAccess (lineAccess l)).answer (l :: p), [.bus (lineAccess l)],
        [(s.hostAccess (lineAccess l)).answer], s.hostAccess (lineAccess l)⟩ := rfl

/-- A host's turn at a POLL of STATUS reads STATUS and goes on if it matches. -/
theorem hostRun_pollStatus (P : Params) (mask val : Word) (p : List HostLine) (s : State) :
    hostRun P [.host] (.poll 0x00008 mask val :: p) s =
      ⟨if s.statusWord &&& mask = val then p else .poll 0x00008 mask val :: p, [.bus (.read .w32 0x00008)],
        [s.statusWord], { s with resp := some ⟨false, s.statusWord⟩ }⟩ := by
  rw [← linesAfter_poll]; rfl

theorem statusWord_done_iff : s.statusWord &&& 0x00000002 = 0x00000002 ↔ s.done = true := by
  unfold State.statusWord
  generalize s.busy = b, s.done = d, s.error = e, s.overrun = o
  revert b d e o
  decide

theorem statusWord_idle_iff : s.statusWord &&& 0x00000001 = 0x00000000 ↔ s.seq = .idle := by
  have hbusy : s.statusWord &&& 0x00000001 = 0x00000000 ↔ s.busy = false := by
    unfold State.statusWord
    generalize s.busy = b, s.done = d, s.error = e, s.overrun = o
    revert b d e o
    decide
  rw [hbusy, ← Bool.not_eq_true, busy_iff, not_not]

/-! ## Lines past the map (log 27) -/

theorem targetOf_pastMap {n off : Nat} (hn : CapOk n) (h4 : off % 4 = 0) (h : 2 ^ 18 ≤ off) :
    targetOf n off = .reserved :=
  targetOf_reserved h4 (.inr (.inr (.inr (by have := hn.2.1; omega))))

/-! ## The words of a byte sequence -/

theorem map_range_zipIdx {α : Type} (f : Nat → α) (n : Nat) :
    ((List.range n).map f).zipIdx = (List.range n).map fun k => (f k, k) :=
  List.ext_getElem (by simp) (by simp)

theorem seqWord_lane (b : List Byte) (k : Nat) {l : Nat} (hl : l < 4) :
    (seqWord b k).extractLsb' (8 * l) 8 = b.getD (4 * k + l) 0 := by
  obtain ⟨h0, h1, h2, h3⟩ := byteLane_wordOfLanes (b.getD (4 * k) 0) (b.getD (4 * k + 1) 0) (b.getD (4 * k + 2) 0)
    (b.getD (4 * k + 3) 0)
  match l, hl with
  | 0, _ => exact h0
  | 1, _ => exact h1
  | 2, _ => exact h2
  | 3, _ => exact h3

/-- The first `n` words of a byte sequence, one WR each. -/
theorem exists_seqWords (b : List Byte) (n : Nat) (off : Nat → Nat) : ∃ ws : List Word, ws.length = n ∧
    ((List.range n).map fun k => HostLine.wr (off k) (seqWord b k).toNat) =
      (ws.zipIdx.map fun x => .wr (off x.2) x.1.toNat) ∧
    ∀ (k l : Nat) (h : k < ws.length), l < 4 → ws[k].extractLsb' (8 * l) 8 = b.getD (4 * k + l) 0 := by
  refine ⟨(List.range n).map (seqWord b), by simp, ?_, fun k l h hl => ?_⟩
  · rw [map_range_zipIdx, List.map_map]; rfl
  · rw [List.getElem_map, List.getElem_range]
    exact seqWord_lane b k hl

/-- Settles O59: a POLL read by read, a turn at WAITDONE and WAITIDLE, lines past the map, and the words of LDIN and
LDKEY. -/
theorem hostProgramTransactions : Obligations.HostProgramTransactions := by
  refine ⟨fun off mask val v vs ws p h => ⟨?_, fun hv => ?_⟩, fun P s p => ⟨?_, ?_, ?_⟩,
    fun off val h => writeAccess_eq off h, fun P s off val e p hcap h4 hoff hval => ⟨?_, ?_⟩, fun b => ?_,
    fun b len => ?_⟩
  · simpa [transactions] using transactions_poll_append h [] p
  · rw [transactions_poll_append h, transactions_poll_done hv, List.replicate_succ', List.append_assoc]; rfl
  · rw [expandPseudo, List.singleton_append, hostRun_pollStatus]
    simp only [statusWord_done_iff]
  · rw [expandPseudo, List.singleton_append, hostRun_pollStatus]
    simp only [statusWord_idle_iff]
  · rw [expandPseudo, List.singleton_append, hostRun_pollStatus]; rfl
  · have hread : s.hostAccess (.read .w32 off) = { s with resp := some ⟨false, 0⟩ } := by
      rw [hostAccess_read h4, hostRead_reserved (targetOf_pastMap hcap h4 hoff)]
    rw [hostRun_host, lineAccess, hread]
    rfl
  · have hwrite : s.hostAccess (.write .w32 off (BitVec.ofNat 32 val)) = { s with resp := some ⟨false, 0⟩ } := by
      rw [hostAccess_write h4, hostWrite_reserved (targetOf_pastMap hcap h4 hoff)]
    rw [hostRun_host, lineAccess, writeAccess_eq off hval, hwrite]
    rfl
  · obtain ⟨ws, hlen, hws, hlane⟩ := exists_seqWords b (words b.length) inOffset
    exact ⟨ws, hlen, by rw [expandPseudo, hws]; rfl, hlane⟩
  · obtain ⟨ws, hlen, hws, hlane⟩ := exists_seqWords b (min (words len.toNat) 8) keyOffset
    exact ⟨ws, hlen, by rw [expandPseudo, hws]; rfl, hlane⟩

/-! ## A run beside the other agents -/

/-- The lines left of a program whose accesses have been answered with `vs`. -/
def linesLeft (vs : List Word) (p : List HostLine) : List HostLine := vs.foldl (fun q v => linesAfter v q) p

theorem linesLeft_concat (vs : List Word) (v : Word) (p : List HostLine) :
    linesLeft (vs ++ [v]) p = linesAfter v (linesLeft vs p) := List.foldl_append ..

theorem linesAfter_suffix (v : Word) (p : List HostLine) : linesAfter v p <:+ p := by
  cases p with
  | nil => exact List.suffix_rfl
  | cons l p =>
    rcases linesAfter_cases v l p with h | h <;> rw [h]
    exact List.suffix_cons l p

theorem linesLeft_suffix (vs : List Word) (p : List HostLine) : linesLeft vs p <:+ p := by
  induction vs generalizing p with
  | nil => exact List.suffix_rfl
  | cons v vs ih => exact (ih (linesAfter v p)).trans (linesAfter_suffix v p)

/-- One more answer is one more transaction, that of the first line left. -/
theorem transactions_concat {l : HostLine} {q : List HostLine} (vs : List Word) (v : Word) (p : List HostLine)
    (h : linesLeft vs p = l :: q) : transactions (vs ++ [v]) p = transactions vs p ++ [lineAccess l] := by
  induction vs generalizing p with
  | nil => cases h; rfl
  | cons u vs ih =>
    cases p with
    | nil => rw [List.suffix_nil.1 (linesLeft_suffix (u :: vs) [])] at h; cases h
    | cons m p => exact congrArg (lineAccess m :: ·) (ih _ h)

/-- A move does nothing, at the program's end, or takes one input and delivers it. -/
theorem move_takes (P : Params) (r : HostRun) (x : Slot) :
    r.move P x = r ∨ ∃ e, (r.move P x).taken = r.taken ++ [e] ∧ (r.move P x).block = deliver P e r.block := by
  cases x with
  | other e => exact .inr ⟨e, rfl, rfl⟩
  | host =>
    cases hl : r.left with
    | nil => exact .inl (move_host_done r hl)
    | cons l q => rw [move_host hl]; exact .inr ⟨.bus (lineAccess l), rfl, rfl⟩

/-- A run's block is that of the single steps on the inputs it took. -/
theorem hostRun_ticks (P : Params) (order : List Slot) (p : List HostLine) (s : State) (more : List Event) :
    (tick P)^[(hostRun P order p s).taken.length] { s with events := (hostRun P order p s).taken ++ more } =
      { (hostRun P order p s).block with events := more } := by
  induction order using List.reverseRecOn generalizing more with
  | nil => rfl
  | append_singleton order x ih =>
    rw [hostRun_append]
    rcases move_takes P (hostRun P order p s) x with h | ⟨e, htaken, hblock⟩
    · rw [h]; exact ih more
    · rw [htaken, hblock, List.length_append, List.length_singleton, Function.iterate_succ_apply', List.append_assoc,
        ih, tick_cons rfl]
      exact deliver_events P e (hostRun P order p s).block more

theorem hostRun_left (P : Params) (order : List Slot) (p : List HostLine) (s : State) :
    (hostRun P order p s).left = linesLeft (hostRun P order p s).answered p := by
  induction order using List.reverseRecOn with
  | nil => rfl
  | append_singleton order x ih =>
    rw [hostRun_append]
    cases x with
    | other e => exact ih
    | host =>
      cases hl : (hostRun P order p s).left with
      | nil => rw [move_host_done _ hl]; exact ih
      | cons l q => rw [move_host hl, linesLeft_concat, ← ih, hl]

/-- The host access among the inputs, if the event is one. -/
def Event.access? : Event → Option Access
  | .bus a => some a
  | _ => none

theorem hostRun_transactions (P : Params) (order : List Slot) (p : List HostLine) (s : State)
    (h : ∀ a, .other (.bus a) ∉ order) :
    transactions (hostRun P order p s).answered p = (hostRun P order p s).taken.filterMap Event.access? := by
  induction order using List.reverseRecOn with
  | nil => rfl
  | append_singleton order x ih =>
    have hih := ih fun a ha => h a (List.mem_append_left _ ha)
    rw [hostRun_append]
    cases x with
    | other e =>
      have hnone : e.access? = none := by
        cases e with
        | bus a => exact absurd (List.mem_append_right _ (List.mem_singleton_self _)) (h a)
        | _ => rfl
      change transactions (hostRun P order p s).answered p = _
      simpa [HostRun.move, hnone] using hih
    | host =>
      cases hl : (hostRun P order p s).left with
      | nil => rw [move_host_done _ hl]; exact hih
      | cons l q =>
        rw [move_host hl, transactions_concat _ _ _ ((hostRun_left P order p s).symm.trans hl), hih]
        simp [Event.access?]

/-- Every access is answered (R232). -/
theorem hostAccess_responds (a : Access) (s : State) : ∃ err d, (s.hostAccess a).resp = some ⟨err, d⟩ := by
  by_cases hwf : a.sizeOk = true ∧ a.aligned = true
  · exact ⟨false, hostAccess_resp hwf.1 hwf.2 s⟩
  · exact ⟨true, 0, by rw [hostAccess_error hwf]⟩

/-- Settles O60: a run move by move, and its block, its lines left and its accesses. -/
theorem hostProgramRunsAsInputs : Obligations.HostProgramRunsAsInputs := by
  refine ⟨fun P p s => ⟨rfl, fun order x => hostRun_append P order x p s⟩,
    fun P r => ⟨move_host_done r, fun l q hl => ?_, fun e => rfl⟩,
    fun P order p s => ⟨hostRun_ticks P order p s, ?_, fun h => hostRun_transactions P order p s h⟩⟩
  · obtain ⟨err, d, hresp⟩ := hostAccess_responds (lineAccess l) r.block
    have hanswer : (r.block.hostAccess (lineAccess l)).answer = d := by rw [State.answer, hresp]
    refine ⟨err, d, hresp, ?_⟩
    rw [move_host hl, hanswer]
    cases l with
    | wr off val => rfl
    | rd off e => rfl
    | poll off mask val => rw [linesAfter_poll]
  · obtain ⟨done, hdone⟩ := linesLeft_suffix (hostRun P order p s).answered p
    exact ⟨done, by rw [hostRun_left, hdone]⟩

end Sys2Proof.Machine
end

section
/-! Fixed words and the state after reset. -/

namespace Sys2Proof.Machine

/-- Settles O1: the three commands decode from their encodings, and the decoder refuses the other words by their
fields. -/
theorem specWordsDecode : Obligations.SpecWordsDecode := by
  have hcommand (i : Instr) : decodeCommand (encode i) = some i := decodeCommand_eq_some_iff.2 rfl
  exact ⟨hcommand .create, hcommand .encrypt, hcommand .decrypt, rfl, rfl, rfl, rfl, rfl, rfl⟩

/-- The block as the first turn of the sequencer after reset leaves it. -/
def State.ready : State := { State.reset with seq := .idle }

theorem step_reset : step State.reset = .next State.ready := by
  rw [step_other fun _ _ => (List.cons_ne_nil _ _).symm, tick_nil rfl, seqTurn_rstClr rfl]; rfl

theorem step_ready : step State.ready = .next State.ready := by
  rw [step_other fun _ _ => (List.cons_ne_nil _ _).symm, tick_nil rfl, seqTurn_idle rfl]

/-- ENCRYPT or DECRYPT as the first command after reset completes with NoInstance. -/
theorem step_ready_cmd {w : Word} (h : w = 2 ∨ w = 3) :
    ∃ t, step { State.ready with events := [.bus (.write .w32 0x00004 w)] } = .next t ∧
      t.seq = .idle ∧ t.done = true ∧ t.errCode = some .noInstance := by
  obtain ⟨i, hi, hdecode⟩ : ∃ i, i ≠ .create ∧ decodeCommand w = some i := by
    rcases h with rfl | rfl
    · exact ⟨.encrypt, Instr.noConfusion, decodeCommand_eq_some_iff.2 rfl⟩
    · exact ⟨.decrypt, Instr.noConfusion, decodeCommand_eq_some_iff.2 rfl⟩
  have hstep := stepRunsTheDecodedCommand.1 { State.ready with events := [.bus (.write .w32 0x00004 w)] } w [] i rfl
    hdecode
  exact ⟨_, hstep.trans (exec_noInstance (rest := []) hi rfl rfl (.inr ⟨rfl, 0, Nat.zero_le 2, rfl⟩)), rfl, rfl, rfl⟩

/-- Settles O51: one turn of the sequencer after reset the block is in IDLE with its reset values. -/
theorem hostViewAfterReset : Obligations.HostViewAfterReset := by
  exact ⟨State.ready, step_reset, rfl, step_ready, rfl, by decide, rfl, fun _ hw => step_ready_cmd hw⟩

end Sys2Proof.Machine
end
